-- ==== Sys2Proof/Word.lean ====
section
/-! DEFINITION. The word types of the SIAB control block: the source declares only `u8`, `u16`, `u32`
and `bool` (spec 00_scope.md R10), every one of them unsigned. -/

namespace Sys2Proof

/-- `u8`: a frame byte, a buffer byte, an EEPROM byte, an SPI byte (R10). -/
abbrev Byte := BitVec 8

/-- `u16`: register data of an ASIC, a sample count, an EEPROM address in a frame (R10). -/
abbrev Word16 := BitVec 16

/-- `u32`: a running sum, a sample, an offset, the ADC result word (R10, R35). -/
abbrev Word32 := BitVec 32

end Sys2Proof
end

