-- ==== Sys2Proof/Machine/Types.lean ====
section
/-! DEFINITION. The plain data the state is made of: the two chips, modes, latches, sessions and
accumulators of 10_state.md, the moves the environment may make, and the events the block shows it. -/

namespace Sys2Proof.Machine

/-- The two MUSIC ASICs: `c = 0` is bottom, `c = 1` is top (R6 `N_CHIP`, R25). -/
inductive Chip where
  | bottom
  | top
deriving DecidableEq, Repr, Inhabited

/-- One value for each chip. -/
structure PerChip (α : Type) where
  bottom : α
  top : α
deriving DecidableEq, Repr

/-- The value of one chip. -/
def PerChip.get {α : Type} (p : PerChip α) : Chip → α
  | .bottom => p.bottom
  | .top => p.top

/-- Replace the value of one chip. -/
def PerChip.put {α : Type} (p : PerChip α) (c : Chip) (v : α) : PerChip α :=
  match c with
  | .bottom => { p with bottom := v }
  | .top => { p with top := v }

/-- The SPI clock mode (R30): `addr` samples the address byte and runs whole reads, `data` is the
opposite clock phase, for the data bytes of a write. -/
inductive SpiMode where
  | addr
  | data
deriving DecidableEq, Repr, Inhabited

/-- The two single-shot analog sources (R170). -/
inductive AnalogSource where
  | sipmTherm
  | ucTemp
deriving DecidableEq, Repr

/-- The four GPIO output latches (R40). -/
inductive Latch where
  | led
  | en3v3
  | en5v
  | hvEn
deriving DecidableEq, Repr, Inhabited

/-- The session state (R23). -/
inductive Session where
  | idle
  | writeRequested
  | writeReadRequested
  | error
deriving DecidableEq, Repr

/-- One entry of a MUSIC register map (R25). -/
structure MapEntry where
  addr : Byte
  data : Word16
deriving DecidableEq, Repr, Inhabited

/-- One ADC channel accumulator (R35). -/
structure Acc where
  sum : Word32
  count : Word16
  last : Word32
  offset : Word32
deriving DecidableEq, Repr

/-- What may happen at an interrupt window: the ADC raises conversion-ready with a result word (R250,
R251), or the pending interrupt is served (R252). -/
inductive IrqMove where
  | convReady (word : Word32)
  | serve
deriving DecidableEq, Repr, Inhabited

/-- A move of the environment while no command runs: the transport's events (R130), the external clear
(R314), power-on (R341), or an interrupt move. -/
inductive EnvEvent where
  /-- A write phase with these bytes completed (R131). -/
  | frameDelivered (bytes : List Byte)
  /-- The master started a read phase and reads `n` bytes (R135). -/
  | readPhase (n : Nat)
  /-- An external agent clears the error flag (R314). -/
  | clearError
  /-- Power-on reset (R341). -/
  | powerOn
  /-- An interrupt move between commands (R317). -/
  | irq (m : IrqMove)
deriving DecidableEq, Repr, Inhabited

/-- One access of the block to what lies outside it, by the foreground or by the `ISR`, in the order the steps
execute (R86): pin and latch writes, bytes on the SPI lines, delays, EEPROM accesses, single-shot conversions,
the debug log, the ADC device's commands and result words, and what the transport returned to the master. -/
inductive Event where
  /-- `Gpio(NAME) <- b` (R40). -/
  | gpio (latch : Latch) (high : Bool)
  /-- `CS_N[c] <- b` (R201). -/
  | csN (c : Chip) (high : Bool)
  /-- `SCLK <- b` (R203). -/
  | sclk (high : Bool)
  /-- `MOSI <- b` (R203). -/
  | mosi (high : Bool)
  /-- The controller samples `MISO` (R203). -/
  | sample (high : Bool)
  /-- One byte transfer completed: what went out and what came in (R204). -/
  | xfer (m : SpiMode) (sent received : Byte)
  /-- `spi_mode <- m` (R211). -/
  | setMode (m : SpiMode)
  /-- `DelayUs(n)` (R352). -/
  | delay (us : Nat)
  /-- `EeRead(a)`, which returned `v` (R72). -/
  | eeRead (a : Nat) (v : Byte)
  /-- `EeProgram(a, v)`, one physical byte write (R73). -/
  | eeProgram (a : Nat) (v : Byte)
  /-- `AdcSingleShot(src)`, which returned `count` (R170). -/
  | singleShot (src : AnalogSource) (count : Word16)
  /-- `DebugLog("map", c, map[c])` (R233). -/
  | debugMap (c : Chip) (entries : List MapEntry)
  /-- `DebugLog("verify mismatch", c, addr, data, r)` (R210). -/
  | debugMismatch (c : Chip) (addr : Byte) (written readBack : Word16)
  /-- `AdcDevice.SetRate(code)` (R270). -/
  | adcSetRate (code : Byte)
  /-- `AdcDevice.Init()` (R271). -/
  | adcInit
  /-- The bytes the transport returned in a read phase (R135). -/
  | response (bytes : List Byte)
  /-- `AdcReadWord()` of the `ISR`, which returned `word` (R251). -/
  | isrReadWord (word : Word32)
  /-- `Gpio(HV_EN) <- 0` of the `ISR`, the cutoff (R252, R255). -/
  | isrCutoff
deriving DecidableEq, Repr

/-- A stream of inputs from the environment: the inputs that already stand in line, and how many have
been taken. Inputs beyond the line are the environment's free choice. -/
structure Feed (α : Type) where
  queued : List α
  taken : Nat
deriving DecidableEq, Repr

/-- An input stream with nothing in line. -/
def Feed.empty {α : Type} : Feed α := ⟨[], 0⟩

/-- Take the next input: the head of the line, else the environment's free value of that number. -/
def Feed.take {α : Type} (free : Nat → α) (f : Feed α) : α × Feed α :=
  match f.queued with
  | [] => (free f.taken, { f with taken := f.taken + 1 })
  | a :: rest => (a, ⟨rest, f.taken + 1⟩)

end Sys2Proof.Machine
end

