-- ==== Sys2Proof/Config.lean ====
section
/-! DEFINITION. The constants the source fixes (00_scope.md R6), the parameters it leaves to the
implementation (R7), and the values the environment or nobody fixes (the draws of
93_implementation_defined.md). A parameter that R7 calls OPEN and every free value is an opaque
constant: nothing can be proved of its value. -/

namespace Sys2Proof

open Machine

/-- `N_CHIP`: MUSIC ASICs, the constructors of `Chip` (R6). -/
abbrev Config.nChip : Nat := 2
/-- `N_MAP`: entries of a chip's register map (R6). -/
abbrev Config.nMap : Nat := 23
/-- `N_CH`: ADC channel accumulators (R6). -/
abbrev Config.nCh : Nat := 16
/-- `MAX_PAYLOAD`: payload bytes of a frame, besides the opcode (R6). -/
abbrev Config.maxPayload : Nat := 4
/-- `EEPROM_CONFIG_START`: first EEPROM address of the register maps (R6). -/
abbrev Config.eepromConfigStart : Nat := 65
/-- `MAP_ENTRY_BYTES` (R6). -/
abbrev Config.mapEntryBytes : Nat := 3
/-- `MAP_BYTES`: bytes of one chip's map in EEPROM (R6). -/
abbrev Config.mapBytes : Nat := 69
/-- Length of `SERIAL_REGION`, which starts at address 0 (R6). -/
abbrev Config.serialRegion : Nat := 65
/-- `SPI_SETTLE_US` (R6). -/
abbrev Config.spiSettleUs : Nat := 100
/-- `ERASED`: the erased value of an EEPROM byte (R6). -/
abbrev Config.erased : Byte := 0xFF#8
/-- `VTH_MAX`: the largest threshold code (R6). Only the calibration engine uses it, which R5 leaves out. -/
abbrev Config.vthMax : Nat := 511
/-- `UA_TO_COUNTS` is 38.8 counts per microampere, that is 194 fifths (R6, R296). -/
abbrev Config.uaToCountsFifths : Nat := 194
/-- `RX_BUF_SIZE` (R7, decided by D6). -/
abbrev Config.rxBufSize : Nat := 5
/-- `TX_BUF_SIZE` (R7, decided by D6). -/
abbrev Config.txBufSize : Nat := 65
/-- `CHIPID_BOTTOM` (R7, decided by D10, replaceable). -/
abbrev Config.chipIdBottom : BitVec 2 := 0#2
/-- `CHIPID_TOP` (R7, decided by D10, replaceable). -/
abbrev Config.chipIdTop : BitVec 2 := 1#2
/-- `AVG_SHIFT` (R7, decided by D27). -/
abbrev Config.avgShift : Nat := 4
/-- The least `EEPROM_SIZE` (R7, R71): the end of the two maps, 203, plus four calibrated-code bytes. -/
abbrev Config.eepromMin : Nat := 207

/-- How far the open parameter `EEPROM_SIZE` exceeds its lower bound (R7, OPEN). -/
opaque Config.eepromExtra : Nat
/-- `SPI_CPOL`, the idle level of `SCLK` (R7, OPEN). -/
opaque Config.spiCpol : Bool
/-- `SPI_ADDR_CPHA`, the clock phase of `MODE_ADDR` (R7, OPEN). -/
opaque Config.spiAddrCpha : Bool
/-- `ADC_ERR_MASK`, the error bits of the ADC result word (R7, OPEN). -/
opaque Config.adcErrMask : Word32
/-- `RST_ON_AVG_READ` (R7, OPEN). -/
opaque Config.rstOnAvgRead : Bool
/-- `RST_ON_OFFSET_RECORD` (R7, OPEN). -/
opaque Config.rstOnOffsetRecord : Bool
/-- `RST_ON_HV_ON` (R7, OPEN). -/
opaque Config.rstOnHvOn : Bool
/-- `RST_ON_SAFETY_EN` (R7, OPEN). -/
opaque Config.rstOnSafetyEn : Bool
/-- How far each of the addresses `CAL_OFFSET_VDC_SE`, `_VDC_LG`, `_VDC_HG`, `_VCM` (in this order) lies
above 203 (R7, OPEN; no rule reads them). -/
opaque Config.calOffsetAbove203 : Fin 4 → Nat
/-- `ADC_RATE[1..6]`, the six sample rates (R7, OPEN; no rule reads them). -/
opaque Config.adcRateValue : Fin 6 → Nat
/-- `ADC_CH_MAP[0..15]`, channel to analog input (R7, OPEN; no rule reads it). -/
opaque Config.adcChMap : Fin 16 → Nat

/-- The byte the ASIC `c` answers in a transfer: a function of what the block has put on the SPI pins so far
and of the byte now being transferred, under no law (R204, 93 U5). -/
opaque Config.asicAnswer : Chip → List Event → SpiMode → Byte → Byte
/-- The count a single-shot conversion returns, by source and by the number of the conversion (R170). -/
opaque Config.analogReading : AnalogSource → Nat → Word16
/-- The average of no samples: `draw(u32)`, by the number of the draw (R277, 93 U8). -/
opaque Config.undefinedAverage : Nat → Word32
/-- Payload byte `k` that a short frame did not carry: `draw(u8)` (R136, 93 U11). The first argument numbers
the draw, the second is `k`. -/
opaque Config.missingByte : Nat → Nat → Byte
/-- A byte the master reads beyond the response: any value (R135, 93 U2). The first argument numbers the draw,
the second is the byte's place beyond the response. -/
opaque Config.surplusByte : Nat → Nat → Byte
/-- What happens at an interrupt window, between two primitive steps of the foreground: any number of interrupt
moves, in order (R9, R317). -/
opaque Config.irqWindow : Nat → List IrqMove
/-- What the environment does while no command runs (R130, R314, R317, R341). -/
opaque Config.envEvent : Nat → EnvEvent

/-- What a model does with a situation the spec refuses (93_implementation_defined.md section 1): give it
no successor state, or, as the section's last paragraph allows a model that prefers totality, let the
command have no effect and complete as its kind says. -/
inductive Treatment where
  | refuse
  | noEffect
deriving DecidableEq, Repr

/-- The parameters of the model (R7), carried in the state so that a claim holds for every value of them.
No step changes them. -/
structure Params where
  /-- `EEPROM_SIZE` less its lower bound 207. -/
  eepromExtra : Nat
  /-- `SPI_CPOL`. -/
  spiCpol : Bool
  /-- `SPI_ADDR_CPHA`. -/
  spiAddrCpha : Bool
  /-- `ADC_ERR_MASK`. -/
  adcErrMask : Word32
  /-- `RST_ON_AVG_READ`. -/
  rstOnAvgRead : Bool
  /-- `RST_ON_OFFSET_RECORD`. -/
  rstOnOffsetRecord : Bool
  /-- `RST_ON_HV_ON`. -/
  rstOnHvOn : Bool
  /-- `RST_ON_SAFETY_EN`. -/
  rstOnSafetyEn : Bool
  /-- What becomes of a situation the spec refuses. -/
  unsourced : Treatment
deriving DecidableEq, Repr

/-- `EEPROM_SIZE`, at least 207 (R7, R71). -/
def Params.eepromSize (p : Params) : Nat := p.eepromExtra + Config.eepromMin

/-- The parameters of the machine that `State.reset` starts: the open ones opaque; the treatment of what
the spec refuses is a DESIGN CHOICE (notes/assumptions/2.md). -/
def Config.params : Params where
  eepromExtra := Config.eepromExtra
  spiCpol := Config.spiCpol
  spiAddrCpha := Config.spiAddrCpha
  adcErrMask := Config.adcErrMask
  rstOnAvgRead := Config.rstOnAvgRead
  rstOnOffsetRecord := Config.rstOnOffsetRecord
  rstOnHvOn := Config.rstOnHvOn
  rstOnSafetyEn := Config.rstOnSafetyEn
  unsourced := .noEffect

end Sys2Proof
end

