-- ==== Sys2Proof/Syntax.lean ====
section
/-! DEFINITION. The commands of the block: one constructor per row of spec/opcode_table.json
(30_encoding.md R105). The operands are the fields of the frame formats of R101, assembled as R102 to
R104 say: addresses and data as the bit vectors the frame carries. -/

namespace Sys2Proof

/-- One command frame, decoded. The unit of operation is one command frame (R1); the opcode alone
selects the constructor (R100). -/
inductive Instr where
  /-- 0x01 `RESET`, format `N` (R150). -/
  | reset
  /-- 0x02 `LED_ON`, format `N` (R151). -/
  | ledOn
  /-- 0x03 `LED_OFF`, format `N` (R152). -/
  | ledOff
  /-- 0x04 `P3V3_ON`, format `N` (R153). -/
  | p3v3On
  /-- 0x05 `P3V3_OFF`, format `N` (R154). -/
  | p3v3Off
  /-- 0x06 `P5V_ON`, format `N` (R155). -/
  | p5vOn
  /-- 0x07 `P5V_OFF`, format `N` (R156). -/
  | p5vOff
  /-- 0x08 `PALL_ON`, format `N` (R157). -/
  | pallOn
  /-- 0x09 `PALL_OFF`, format `N` (R158). -/
  | pallOff
  /-- 0x0A `TEMP_SIPM`, format `N` (R171). -/
  | tempSipm
  /-- 0x0B `TEMP_UC`, format `N` (R172). -/
  | tempUc
  /-- 0x0C `EE_RDB a`, format `H`: a 16-bit EEPROM address (R180). -/
  | eeRdb (a : Word16)
  /-- 0x0D `EE_RDW a8`, format `K`: an 8-bit EEPROM address (R181). -/
  | eeRdw (a8 : Byte)
  /-- 0x0E `EE_WRB a, v`, format `HV` (R182). -/
  | eeWrb (a : Word16) (v : Byte)
  /-- 0x0F `EE_WRW a8, hi, lo`, format `KW` (R183). -/
  | eeWrw (a8 hi lo : Byte)
  /-- 0x10 `MUSIC_SPI_INIT`, format `N` (R230). -/
  | musicSpiInit
  /-- 0x11 `MUSIC_LOAD chip`, format `C` (R231); the 2-bit chip field of R103, not yet looked up. -/
  | musicLoad (chip : BitVec 2)
  /-- 0x12 `MUSIC_PRINT chip`, format `C` (R233). -/
  | musicPrint (chip : BitVec 2)
  /-- 0x13 `MUSIC_APPLY chip`, format `C` (R234). -/
  | musicApply (chip : BitVec 2)
  /-- 0x14 `MUSIC_RD chip, addr`, format `RA` (R235). -/
  | musicRd (chip : BitVec 2) (addr : Byte)
  /-- 0x15 `MUSIC_WR chip, addr, data`, format `RAD` (R236). -/
  | musicWr (chip : BitVec 2) (addr : Byte) (data : Word16)
  /-- 0x16 `ADC_RATE code`, format `K` (R270). -/
  | adcRate (code : Byte)
  /-- 0x17 `ADC_INIT`, format `N` (R271). -/
  | adcInit
  /-- 0x18 `ADC_START`, format `N` (R272). -/
  | adcStart
  /-- 0x19 `ADC_STOP`, format `N` (R273). -/
  | adcStop
  /-- 0x1A `ADC_RDAVG ch`, format `K`: the 4-bit channel field of R104 (R274). -/
  | adcRdavg (ch : BitVec 4)
  /-- 0x1B `ADC_RDALL`, format `N`, reserved and not implemented (R275). -/
  | adcRdall
  /-- 0x1C `ADC_RECOFF`, format `N` (R276). -/
  | adcRecoff
  /-- 0x1D `ADC_RDOFF ch`, format `K` (R278). -/
  | adcRdoff (ch : BitVec 4)
  /-- 0x1E `HV_ON`, format `N` (R290). -/
  | hvOn
  /-- 0x1F `HV_OFF`, format `N` (R291). -/
  | hvOff
  /-- 0x20 `HVSAFE_EN`, format `N` (R292). -/
  | hvsafeEn
  /-- 0x21 `HV_STAT`, format `N` (R293). -/
  | hvStat
  /-- 0x22 `HV_SETMAX uA`, format `H`: a 16-bit current in microamperes (R294). -/
  | hvSetmax (uA : Word16)
  /-- 0x25 `DEV_ID`, format `N` (R166). -/
  | devId
deriving DecidableEq, Repr

end Sys2Proof
end

