-- ==== Sys2Proof/WellFormed.lean ====
section
/-! DEFINITION. The operand conditions the spec states on a frame alone, without looking at the
machine: an assigned chip code (R103) and an SPI register address with bit 7 clear (R110, R213).
Every other operand may take every value of its field. -/

namespace Sys2Proof

/-- The two assigned codes of the chip field; the other two have no meaning in the source (R103). -/
def chipCodeAssigned (f : BitVec 2) : Bool := f == Config.chipIdBottom || f == Config.chipIdTop

/-- An SPI register address the address byte can carry: bit 7 is the read flag (R110, R205). -/
def spiAddrClear (addr : Byte) : Bool := !addr.msb

/-- A command whose operand fields all have a meaning in the spec. -/
def WellFormed : Instr → Bool
  | .musicLoad f => chipCodeAssigned f
  | .musicPrint f => chipCodeAssigned f
  | .musicApply f => chipCodeAssigned f
  | .musicRd f a => chipCodeAssigned f && spiAddrClear a
  | .musicWr f a _ => chipCodeAssigned f && spiAddrClear a
  | .reset | .ledOn | .ledOff | .p3v3On | .p3v3Off | .p5vOn | .p5vOff | .pallOn | .pallOff => true
  | .tempSipm | .tempUc => true
  | .eeRdb _ | .eeRdw _ | .eeWrb _ _ | .eeWrw _ _ _ => true
  | .musicSpiInit => true
  | .adcRate _ | .adcInit | .adcStart | .adcStop | .adcRdavg _ | .adcRdall | .adcRecoff
  | .adcRdoff _ => true
  | .hvOn | .hvOff | .hvsafeEn | .hvStat | .hvSetmax _ => true
  | .devId => true

end Sys2Proof
end

