-- ==== Sys2Proof/Decode.lean ====
section
/-! DEFINITION. Command frames: the formats of 30_encoding.md R101, the field assembly of R102 to R104,
the opcode map of R105 as ONE table, the decoder, and the encoder written from the same rules. -/

namespace Sys2Proof

/-- The bytes of a frame at the fixed indices the handlers read (R100, R107): `op` is `rx[0]`, `pk` is
`rx[k]`. What stands in a byte the master did not send is the fetch's business (R136). -/
structure Frame where
  op : Byte
  p1 : Byte
  p2 : Byte
  p3 : Byte
  p4 : Byte
deriving DecidableEq, Repr

/-- The five bytes in `rx` order. -/
def Frame.bytes (f : Frame) : List Byte := [f.op, f.p1, f.p2, f.p3, f.p4]

/-- A frame from the bytes sent and what the bytes not sent hold (R136). -/
def Frame.ofBytes (sent : List Byte) (rest : Frame) : Frame where
  op := sent.getD 0 rest.op
  p1 := sent.getD 1 rest.p1
  p2 := sent.getD 2 rest.p2
  p3 := sent.getD 3 rest.p3
  p4 := sent.getD 4 rest.p4

/-- Two bytes as one big-endian 16-bit value, high byte first (R82, R102). -/
def joinBytes (hi lo : Byte) : Word16 := hi ++ lo

/-- Bits 15:8 of a 16-bit value. -/
def hiByte (w : Word16) : Byte := w.extractLsb' 8 8

/-- Bits 7:0 of a 16-bit value. -/
def loByte (w : Word16) : Byte := w.extractLsb' 0 8

/-- The chip field of a chip byte: bits 1:0, bits 7:2 ignored (R103). -/
def chipField (b : Byte) : BitVec 2 := b.extractLsb' 0 2

/-- The channel field of a channel byte: bits 3:0, bits 7:4 ignored (R104). -/
def channelField (b : Byte) : BitVec 4 := b.extractLsb' 0 4

/-- The kind of a command (R105): write-only, or write-then-read. -/
inductive Kind where
  | writeOnly
  | writeThenRead
deriving DecidableEq, Repr

/-- The frame formats of R101. -/
inductive Format where
  | N | C | K | H | HV | KW | RA | RAD
deriving DecidableEq, Repr

/-- The `bytes` column of R101. -/
def Format.length : Format → Nat
  | .N => 1
  | .C => 2
  | .K => 2
  | .H => 3
  | .HV => 4
  | .KW => 4
  | .RA => 3
  | .RAD => 5

/-- One row of the opcode map. -/
structure OpcodeRow where
  op : Byte
  fmt : Format
  kind : Kind
  build : Frame → Instr

/-- Rows 0x01 to 0x0F of the opcode map (R105). -/
def opcodeRowsLow : List OpcodeRow := [
  ⟨0x01#8, .N, .writeOnly, fun _ => .reset⟩,
  ⟨0x02#8, .N, .writeOnly, fun _ => .ledOn⟩,
  ⟨0x03#8, .N, .writeOnly, fun _ => .ledOff⟩,
  ⟨0x04#8, .N, .writeOnly, fun _ => .p3v3On⟩,
  ⟨0x05#8, .N, .writeOnly, fun _ => .p3v3Off⟩,
  ⟨0x06#8, .N, .writeOnly, fun _ => .p5vOn⟩,
  ⟨0x07#8, .N, .writeOnly, fun _ => .p5vOff⟩,
  ⟨0x08#8, .N, .writeOnly, fun _ => .pallOn⟩,
  ⟨0x09#8, .N, .writeOnly, fun _ => .pallOff⟩,
  ⟨0x0A#8, .N, .writeThenRead, fun _ => .tempSipm⟩,
  ⟨0x0B#8, .N, .writeThenRead, fun _ => .tempUc⟩,
  ⟨0x0C#8, .H, .writeThenRead, fun f => .eeRdb (joinBytes f.p1 f.p2)⟩,
  ⟨0x0D#8, .K, .writeThenRead, fun f => .eeRdw f.p1⟩,
  ⟨0x0E#8, .HV, .writeOnly, fun f => .eeWrb (joinBytes f.p1 f.p2) f.p3⟩,
  ⟨0x0F#8, .KW, .writeOnly, fun f => .eeWrw f.p1 f.p2 f.p3⟩]

/-- Rows 0x10 to 0x25 of the opcode map (R105). -/
def opcodeRowsHigh : List OpcodeRow := [
  ⟨0x10#8, .N, .writeOnly, fun _ => .musicSpiInit⟩,
  ⟨0x11#8, .C, .writeOnly, fun f => .musicLoad (chipField f.p1)⟩,
  ⟨0x12#8, .C, .writeOnly, fun f => .musicPrint (chipField f.p1)⟩,
  ⟨0x13#8, .C, .writeOnly, fun f => .musicApply (chipField f.p1)⟩,
  ⟨0x14#8, .RA, .writeThenRead, fun f => .musicRd (chipField f.p1) f.p2⟩,
  ⟨0x15#8, .RAD, .writeOnly, fun f => .musicWr (chipField f.p1) f.p2 (joinBytes f.p3 f.p4)⟩,
  ⟨0x16#8, .K, .writeOnly, fun f => .adcRate f.p1⟩,
  ⟨0x17#8, .N, .writeOnly, fun _ => .adcInit⟩,
  ⟨0x18#8, .N, .writeOnly, fun _ => .adcStart⟩,
  ⟨0x19#8, .N, .writeOnly, fun _ => .adcStop⟩,
  ⟨0x1A#8, .K, .writeThenRead, fun f => .adcRdavg (channelField f.p1)⟩,
  ⟨0x1B#8, .N, .writeOnly, fun _ => .adcRdall⟩,
  ⟨0x1C#8, .N, .writeOnly, fun _ => .adcRecoff⟩,
  ⟨0x1D#8, .K, .writeThenRead, fun f => .adcRdoff (channelField f.p1)⟩,
  ⟨0x1E#8, .N, .writeOnly, fun _ => .hvOn⟩,
  ⟨0x1F#8, .N, .writeOnly, fun _ => .hvOff⟩,
  ⟨0x20#8, .N, .writeOnly, fun _ => .hvsafeEn⟩,
  ⟨0x21#8, .N, .writeThenRead, fun _ => .hvStat⟩,
  ⟨0x22#8, .H, .writeOnly, fun f => .hvSetmax (joinBytes f.p1 f.p2)⟩,
  ⟨0x25#8, .N, .writeThenRead, fun _ => .devId⟩]

/-- The complete opcode map: 35 opcodes (R105). -/
def opcodeTable : List OpcodeRow := opcodeRowsLow ++ opcodeRowsHigh

/-- The row of an opcode, if it is in the map. -/
def rowOf (op : Byte) : Option OpcodeRow := opcodeTable.find? (fun r => r.op == op)

/-- Why a frame is rejected. -/
inductive Reject where
  /-- The opcode is not in the opcode map (R106, R311). Raised by `decode`; the machine takes the fault
  `UnknownOpcode`, so the rejection is the spec's own and safe. -/
  | unknownOpcode (op : Byte)
deriving DecidableEq, Repr

/-- Decode a frame: the opcode alone classifies (R100, R132); the rest of the frame gives the operands. -/
def decode (f : Frame) : Except Reject Instr :=
  match rowOf f.op with
  | some r => .ok (r.build f)
  | none => .error (.unknownOpcode f.op)

/-- How many bytes the command of an opcode reads (the `bytes` column of R105). A frame with an unknown
opcode is classified by its first byte. -/
def frameLength (op : Byte) : Nat :=
  match rowOf op with
  | some r => r.fmt.length
  | none => 1

/-- The kind column of R105, by command. -/
def Instr.kind : Instr → Kind
  | .tempSipm | .tempUc | .eeRdb _ | .eeRdw _ | .musicRd _ _ | .adcRdavg _ | .adcRdoff _ | .hvStat
  | .devId => .writeThenRead
  | .reset | .ledOn | .ledOff | .p3v3On | .p3v3Off | .p5vOn | .p5vOff | .pallOn | .pallOff
  | .eeWrb _ _ | .eeWrw _ _ _ | .musicSpiInit | .musicLoad _ | .musicPrint _ | .musicApply _
  | .musicWr _ _ _ | .adcRate _ | .adcInit | .adcStart | .adcStop | .adcRdall | .adcRecoff
  | .hvOn | .hvOff | .hvsafeEn | .hvSetmax _ => .writeOnly

/-- The frame of a command, the bytes of its format and no more (R101, R102). The ignored bits of a chip
byte and of a channel byte are sent as zero (R106 lets them hold any value). -/
def encode : Instr → List Byte
  | .reset => [0x01#8]
  | .ledOn => [0x02#8]
  | .ledOff => [0x03#8]
  | .p3v3On => [0x04#8]
  | .p3v3Off => [0x05#8]
  | .p5vOn => [0x06#8]
  | .p5vOff => [0x07#8]
  | .pallOn => [0x08#8]
  | .pallOff => [0x09#8]
  | .tempSipm => [0x0A#8]
  | .tempUc => [0x0B#8]
  | .eeRdb a => [0x0C#8, hiByte a, loByte a]
  | .eeRdw a8 => [0x0D#8, a8]
  | .eeWrb a v => [0x0E#8, hiByte a, loByte a, v]
  | .eeWrw a8 hi lo => [0x0F#8, a8, hi, lo]
  | .musicSpiInit => [0x10#8]
  | .musicLoad f => [0x11#8, f.zeroExtend 8]
  | .musicPrint f => [0x12#8, f.zeroExtend 8]
  | .musicApply f => [0x13#8, f.zeroExtend 8]
  | .musicRd f a => [0x14#8, f.zeroExtend 8, a]
  | .musicWr f a d => [0x15#8, f.zeroExtend 8, a, hiByte d, loByte d]
  | .adcRate k => [0x16#8, k]
  | .adcInit => [0x17#8]
  | .adcStart => [0x18#8]
  | .adcStop => [0x19#8]
  | .adcRdavg ch => [0x1A#8, ch.zeroExtend 8]
  | .adcRdall => [0x1B#8]
  | .adcRecoff => [0x1C#8]
  | .adcRdoff ch => [0x1D#8, ch.zeroExtend 8]
  | .hvOn => [0x1E#8]
  | .hvOff => [0x1F#8]
  | .hvsafeEn => [0x20#8]
  | .hvStat => [0x21#8]
  | .hvSetmax uA => [0x22#8, hiByte uA, loByte uA]
  | .devId => [0x25#8]

/-- Byte `k` of an instruction whose bits are numbered as spec/opcode_table.json numbers them: the bits
from `nbits` on are 0. -/
def tableByte (nbits w k : Nat) : Byte := BitVec.ofNat 8 ((w % 2 ^ nbits) / 256 ^ k)

/-- The whole frame of such an instruction, five bytes long. -/
def tableFrame (nbits w : Nat) : Frame :=
  ⟨tableByte nbits w 0, tableByte nbits w 1, tableByte nbits w 2, tableByte nbits w 3,
    tableByte nbits w 4⟩

/-- The command the decoder reads from such an instruction. -/
def decodeTableWord (nbits w : Nat) : Option Instr :=
  match decode (tableFrame nbits w) with
  | .ok i => some i
  | .error _ => none

end Sys2Proof
end

