-- ==== Sys2Proof/Machine/State.lean ====
section
/-! DEFINITION. The state of the machine: every element of 10_state.md R20, grouped by the sub-unit the
rule names, the parameters of R7, and the environment's part (R50): the EEPROM, the ADC device's result
word, the input streams and the record of what the block has shown. Reset is R60 and R340. -/

namespace Sys2Proof.Machine

/-- Why the machine stops with a fault. The spec's own five faults (R310) are all locally recovered and
are no stop. -/
inductive Fault where
  /-- An EEPROM access at an address at or above `EEPROM_SIZE` (R71, 93 U9). Raised by the EEPROM
  passthrough commands where the treatment is `refuse`. Safe: the hardware goes on in some way the spec
  does not describe. -/
  | eeOutOfRange (a : Nat)
deriving DecidableEq, Repr

/-- Why the model gives no meaning. -/
inductive Refusal where
  /-- An instruction without a meaning. Raised by no arm of `exec`. Safe. -/
  | notModelled (mnemonic : String)
  /-- A write phase longer than the receive buffer (R131, 93 U1). Raised by frame delivery. Safe. -/
  | frameTooLong
  /-- A read phase with no response pending (R135, 93 U2). Raised by the read phase. Safe. -/
  | readWithoutResponse
  /-- A chip code that is not assigned (R103, 93 U3). Raised by 0x11 to 0x15. Safe. -/
  | badChipId
  /-- An SPI transaction before 0x10 ran since reset (R213, 93 U4). Raised by 0x13 to 0x15. Safe. -/
  | spiNotInitialised
  /-- An SPI register address with bit 7 set (R213, 93 U6). Raised by 0x13 to 0x15. Safe. -/
  | spiAddrBit7
  /-- A map that was not loaded since reset (R233, R234, 93 U7). Raised by 0x12 and 0x13. Safe. -/
  | mapNotLoaded
  /-- A serial length of 65 to 254 (R166, 93 U10). Raised by 0x25. Safe. -/
  | serialTooLong
deriving DecidableEq, Repr

/-- A reason to stop, of either sort. -/
inductive Stop where
  | fault (r : Fault)
  | refusal (r : Refusal)
deriving DecidableEq, Repr

/-- The dispatcher's state (R21 to R25). -/
structure Dispatcher where
  /-- `rx`, the receive buffer (R21). -/
  rx : Vector Byte Config.rxBufSize
  /-- `rx_len` (R21). -/
  rxLen : Nat
  /-- `tx`, the transmit buffer (R22). -/
  tx : Vector Byte Config.txBufSize
  /-- `tx_len` (R22). -/
  txLen : Nat
  /-- `session` (R23). -/
  session : Session
  /-- `err`, the sticky error flag (R24). -/
  err : Bool
  /-- `map[c]`, the MUSIC register maps (R25). -/
  map : PerChip (Vector MapEntry Config.nMap)
  /-- `map_loaded[c]` (R25). -/
  mapLoaded : PerChip Bool
deriving DecidableEq, Repr

/-- The SPI controller's state (R30 to R33). -/
structure Spi where
  /-- `spi_mode` (R30). -/
  mode : SpiMode
  /-- `spi_inited` (R31). -/
  inited : Bool
  /-- `CS_N[c]`, active low (R32). -/
  csN : PerChip Bool
  /-- `SCLK` (R32). -/
  sclk : Bool
  /-- `MOSI` (R32). -/
  mosi : Bool
  /-- `spi_mismatch`, the sticky debug flag (R33). -/
  mismatch : Bool
deriving DecidableEq, Repr

/-- The ADC acquisition state (R35 to R39). -/
structure Adc where
  /-- `acc[0..15]`, the accumulators (R35). -/
  acc : Vector Acc Config.nCh
  /-- `adc_loop_en` (R36). -/
  loopEn : Bool
  /-- `adc_inited` (R37). -/
  inited : Bool
  /-- `adc_rate_code`, 0 for none (R38). -/
  rateCode : BitVec 3
  /-- `irq_pending` (R39). -/
  irqPending : Bool
deriving DecidableEq, Repr

/-- The GPIO output latches, true for high (R40). -/
structure Gpio where
  led : Bool
  en3v3 : Bool
  en5v : Bool
  hvEn : Bool
deriving DecidableEq, Repr

/-- The HV safety state (R45 to R48). -/
structure HvSafety where
  /-- `hv_safety_en` (R45). -/
  safetyEn : Bool
  /-- `offset_valid` (R46). -/
  offsetValid : Bool
  /-- `hv_max_uA` (R47). -/
  maxUA : Word16
  /-- `hv_max_delta` (R48). -/
  maxDelta : Word32
deriving DecidableEq, Repr

/-- EEPROM contents as (address, byte) pairs in one canonical form: addresses strictly rising, no entry
equal to what an unlisted address reads as (`Memory.wf` in Machine/Memory.lean). -/
abbrev Memory := List Host.Cell

/-- The environment's part (R50): what the block reaches but does not own, and the model's own counters
and record. -/
structure Env where
  /-- `EE`, the EEPROM contents (R71). -/
  ee : Memory
  /-- `ADCW`, the result word the ADC device holds (R70, R251). -/
  adcWord : Word32
  /-- The model's own: the environment's moves while no command runs (R130). -/
  bus : Feed EnvEvent
  /-- The model's own: what happens at each interrupt window (R9, R317). -/
  irq : Feed (List IrqMove)
  /-- The model's own: the bytes the ASICs answer (R204). -/
  miso : Feed Byte
  /-- The model's own: the counts of the single-shot conversions (R170). -/
  analog : Feed Word16
  /-- The model's own: how many free values have been drawn. -/
  draws : Nat
  /-- The model's own: the accesses to what lies outside the block, of the foreground and of the `ISR`, oldest
  first (R86, R330). -/
  trace : List Event
deriving DecidableEq, Repr

/-- The state of the machine. -/
structure State where
  disp : Dispatcher
  spi : Spi
  adc : Adc
  gpio : Gpio
  hv : HvSafety
  /-- `irq_masked` (R39). -/
  irqMasked : Bool
  params : Params
  env : Env
deriving DecidableEq, Repr

/-- Reset values of the dispatcher (R60). The bytes of `rx` and `tx` and the entries of `map` have none:
zero is a DESIGN CHOICE (notes/assumptions/3.md). -/
def Dispatcher.afterReset : Dispatcher where
  rx := Vector.replicate _ 0#8
  rxLen := 0
  tx := Vector.replicate _ 0#8
  txLen := 0
  session := .idle
  err := false
  map := ⟨Vector.replicate _ ⟨0#8, 0#16⟩, Vector.replicate _ ⟨0#8, 0#16⟩⟩
  mapLoaded := ⟨false, false⟩

/-- Reset values of the SPI controller (R60). -/
def Spi.afterReset (p : Params) : Spi where
  mode := .addr
  inited := false
  csN := ⟨true, true⟩
  sclk := p.spiCpol
  mosi := false
  mismatch := false

/-- Reset values of the ADC acquisition state (R60). -/
def Adc.afterReset : Adc where
  acc := Vector.replicate _ ⟨0#32, 0#16, 0#32, 0#32⟩
  loopEn := false
  inited := false
  rateCode := 0#3
  irqPending := false

/-- Every state element of the block at its reset value (R60, R340); the parameters and the environment
are not state of the block and stay (R20, R342). -/
def State.afterReset (p : Params) (e : Env) : State where
  disp := Dispatcher.afterReset
  spi := Spi.afterReset p
  adc := Adc.afterReset
  gpio := ⟨false, false, false, false⟩
  hv := ⟨false, false, 0#16, 0#32⟩
  irqMasked := false
  params := p
  env := e

/-- The environment before anything has happened: a virgin EEPROM, nothing in line, nothing shown
(notes/assumptions/4.md, 5.md). -/
def Env.initial : Env where
  ee := []
  adcWord := 0#32
  bus := Feed.empty
  irq := Feed.empty
  miso := Feed.empty
  analog := Feed.empty
  draws := 0
  trace := []

/-- The machine right after power-on reset (R60, R340). -/
def State.reset : State := State.afterReset Config.params Env.initial

end Sys2Proof.Machine
end

