-- ==== Sys2Proof/Machine/Memory.lean ====
section
/-! DEFINITION. The EEPROM array (20_memory.md R71 to R73): reading and writing one byte of it, and the
canonical form that makes equal contents equal data. -/

namespace Sys2Proof.Machine

/-- What an address that no write has listed reads as: the erased value of an EEPROM byte (R6 `ERASED`).
DESIGN CHOICE for the initial contents, which the spec leaves to the environment
(notes/assumptions/4.md). -/
def Memory.unlisted : Byte := Config.erased

/-- `EE[a]` (R72). -/
def Memory.read : Memory → Nat → Byte
  | [], _ => Memory.unlisted
  | (b, v) :: rest, a => if b = a then v else Memory.read rest a

/-- Put a cell before the first one with a larger address. -/
def Memory.insertCell (a : Nat) (v : Byte) : Memory → Memory
  | [] => [(a, v)]
  | (b, w) :: rest => if a < b then (a, v) :: (b, w) :: rest else (b, w) :: Memory.insertCell a v rest

/-- The contents with address `a` unlisted. -/
def Memory.drop (m : Memory) (a : Nat) : Memory := m.filter (fun c => c.1 != a)

/-- `EE[a] <- v` (R73), keeping the canonical form: the unlisted value is not listed. -/
def Memory.write (m : Memory) (a : Nat) (v : Byte) : Memory :=
  if v = Memory.unlisted then m.drop a else Memory.insertCell a v (m.drop a)

/-- The canonical form: addresses strictly rising, and no entry equal to the unlisted value. -/
def Memory.wf (m : Memory) : Bool :=
  decide (m.Pairwise (fun c d => c.1 < d.1)) && m.all (fun c => c.2 != Memory.unlisted)

end Sys2Proof.Machine
end

