-- ==== Sys2Proof/Machine/Operands.lean ====
section
/-! DEFINITION. Operand forms: the chip lookup (R103), the SPI address byte (R110), the EEPROM address of
a map entry (R78), the µA conversion (R296), the 16-bit window of an average (R279), and the fields of
the ADC result word (R111). -/

namespace Sys2Proof.Machine

/-- `ChipOf`: the chip an assigned code names (R103). -/
def chipOf (f : BitVec 2) : Option Chip :=
  if f = Config.chipIdBottom then some .bottom
  else if f = Config.chipIdTop then some .top
  else none

/-- `chip_offset(c)`: the distance of a chip's map from `EEPROM_CONFIG_START` (R78). -/
def chipOffset : Chip → Nat
  | .bottom => 0
  | .top => Config.mapBytes

/-- The EEPROM address of byte `k` of entry `i` of a chip's map, without wrap (R78, R231, R280). -/
def mapEntryAddress (c : Chip) (i k : Nat) : Nat :=
  Config.eepromConfigStart + chipOffset c + Config.mapEntryBytes * i + k

/-- The 8-bit EEPROM address of 0x0D and 0x0F, zero-extended (R102, R181). -/
def address8 (a8 : Byte) : Nat := a8.toNat

/-- The 16-bit EEPROM address of 0x0C and 0x0E (R102, R180). -/
def address16 (a : Word16) : Nat := a.toNat

/-- `AddrByte(read, addr)`: bit 7 is the read flag (R110). An `addr` with bit 7 set is refused before it
gets here (R213). -/
def addrByte (read : Bool) (addr : Byte) : Byte := if read then 0x80#8 ||| addr else addr

/-- `DeltaOf(uA) = (uA × 194) div 5`, exact (R296). -/
def deltaOf (uA : Word16) : Word32 := BitVec.ofNat 32 (uA.toNat * Config.uaToCountsFifths / 5)

/-- `Avg16(v) = v[19:4]` (R279). -/
def avg16 (v : Word32) : Word16 := v.extractLsb' Config.avgShift 16

/-- `s div n`, floor, unsigned (R277, R280). -/
def average (sum : Word32) (count : Word16) : Word32 := sum / count.zeroExtend 32

/-- The 24-bit sample of a result word, its first three bytes, zero-extended (R111, R254). -/
def sampleOf (w : Word32) : Word32 := (w.extractLsb' 8 24).zeroExtend 32

/-- The channel of a result word, the low nibble of its last byte (R111, R254). -/
def channelOf (w : Word32) : BitVec 4 := w.extractLsb' 0 4

/-- A channel number as an index of the accumulator file. -/
def channelIndex (ch : BitVec 4) : Fin Config.nCh := ch.toFin

/-- The 16 channels in rising order, the order of the loops of R276, R290 and R292. -/
def allChannels : List (BitVec 4) :=
  [0#4, 1#4, 2#4, 3#4, 4#4, 5#4, 6#4, 7#4, 8#4, 9#4, 10#4, 11#4, 12#4, 13#4, 14#4, 15#4]

end Sys2Proof.Machine
end

