-- ==== Sys2Proof/Machine/Flags.lean ====
section
/-! DEFINITION. The conditions the machine tests and the flags it computes: the error bits of an ADC word
(R253), the overcurrent comparator (R255), the accumulator update (R256), and the verify mismatch
(R210). -/

namespace Sys2Proof.Machine

/-- `(W & ADC_ERR_MASK) != 0` (R253). -/
def sampleError (p : Params) (w : Word32) : Bool := w &&& p.adcErrMask != 0#32

/-- The comparator's threshold, `offset +_32 hv_max_delta` (R255). -/
def cutoffThreshold (a : Acc) (h : HvSafety) : Word32 := a.offset + h.maxDelta

/-- The cutoff condition, all three parts; the comparison is unsigned and strict (R255). -/
def overcurrent (h : HvSafety) (a : Acc) (sample : Word32) : Bool :=
  h.safetyEn && h.offsetValid && decide (cutoffThreshold a h < sample)

/-- `last <- s`, `sum <- sum +_32 s`, `count <- count +_16 1` (R256). -/
def accumulate (a : Acc) (sample : Word32) : Acc :=
  { a with last := sample, sum := a.sum + sample, count := a.count + 1#16 }

/-- A read-back that differs from the value written (R210). -/
def readBackDiffers (written readBack : Word16) : Bool := readBack != written

end Sys2Proof.Machine
end

