-- ==== Sys2Proof/Machine/Ops.lean ====
section
/-! DEFINITION. The named operations every command and every environment move is made of: the event
record, the interrupt, the primitive step and the critical section (60_exceptions.md section 2), the GPIO
latches, the EEPROM primitives (20_memory.md section 2), the buffers, the session transitions (40_dispatcher_session.md), the
one protocol error, and reset. -/

namespace Sys2Proof.Machine

/-! ## The event record -/

/-- Record these accesses, in order (R86). -/
def emit (evs : List Event) (s : State) : State :=
  { s with env := { s.env with trace := s.env.trace ++ evs } }

/-! ## The interrupt -/

/-- The accumulator of a channel (R35). -/
def accOf (s : State) (ch : BitVec 4) : Acc := s.adc.acc.get (channelIndex ch)

/-- Replace the accumulator of a channel (R35). -/
def setAcc (ch : BitVec 4) (a : Acc) (s : State) : State :=
  { s with adc := { s.adc with acc := s.adc.acc.set (channelIndex ch) a } }

/-- `AdcReadWord()`: the word the ADC device holds (R251). -/
def adcReadWord (s : State) : Word32 := s.env.adcWord

/-- `Gpio(HV_EN) <- 0`, the cutoff (R255). -/
def cutoff (s : State) : State := emit [.isrCutoff] { s with gpio := { s.gpio with hvEn := false } }

/-- The sample part of the `ISR`, for a word without error bits: the comparator, then the accumulation
(R252, R254 to R256). -/
def takeSample (w : Word32) (s : State) : State :=
  let a := accOf s (channelOf w)
  let s := if overcurrent s.hv a (sampleOf w) then cutoff s else s
  setAcc (channelOf w) (accumulate a (sampleOf w)) s

/-- `irq_pending <- 0`, the first act of the `ISR` (R252, R315). -/
def clearPending (s : State) : State := { s with adc := { s.adc with irqPending := false } }

/-- Taking the interrupt: the `ISR` step, whole and atomic (R252). Entry saves nothing and changes no mode
(R318); the end of the step is the return, and the foreground goes on where it was (R319). -/
def takeInterrupt (s : State) : State :=
  let w := adcReadWord s
  let s := emit [.isrReadWord w] (clearPending s)
  if sampleError s.params w then s else takeSample w s

/-- `ConvReady` with a result word: pending if the loop is enabled, ignored and lost if not (R250, R315). -/
def convReady (w : Word32) (s : State) : State :=
  if s.adc.loopEn then
    { s with adc := { s.adc with irqPending := true }, env := { s.env with adcWord := w } }
  else s

/-- One interrupt move. Serving takes the interrupt if it is pending and not masked (R250, R317). -/
def irqMove (s : State) : IrqMove → State
  | .convReady w => convReady w s
  | .serve => if s.adc.irqPending && !s.irqMasked then takeInterrupt s else s

/-- An interrupt window between two primitive steps of the foreground: the interrupt moves the environment makes
there, in order (R9, R86, R317). With the loop disabled and nothing pending no move has an effect (R250). -/
def window (s : State) : State :=
  if s.adc.loopEn || s.adc.irqPending then
    let r := s.env.irq.take Config.irqWindow
    r.1.foldl irqMove { s with env := { s.env with irq := r.2 } }
  else s

/-- One primitive step of the foreground, and the interrupt window behind it (R9). Every step of a command but its
last is one of these. -/
def prim (f : State → State) (s : State) : State := window (f s)

/-- `irq_masked <- b` (R39). -/
def setMask (b : Bool) (s : State) : State := { s with irqMasked := b }

/-- `critical { body }` (R316). While the mask is set a conversion may become pending but is not served. The mask
drops when the outermost section ends, so the mask becomes what it was on entry. -/
def critical (body : State → State) (s : State) : State :=
  prim (setMask s.irqMasked) (body (prim (setMask true) s))

/-- `critical { body }` for a body that yields a value (R316). -/
def criticalGet {α : Type} (body : State → α × State) (s : State) : α × State :=
  let r := body (prim (setMask true) s)
  (r.1, prim (setMask s.irqMasked) r.2)

/-! ## GPIO latches, delays, the debug log -/

/-- One latch written, the others as they were (R40). -/
def setLatch (l : Latch) (b : Bool) (g : Gpio) : Gpio :=
  match l with
  | .led => { g with led := b }
  | .en3v3 => { g with en3v3 := b }
  | .en5v => { g with en5v := b }
  | .hvEn => { g with hvEn := b }

/-- The write of a latch; the pin follows it (R40). -/
def latchWrite (l : Latch) (b : Bool) (s : State) : State :=
  emit [.gpio l b] { s with gpio := setLatch l b s.gpio }

/-- `Gpio(NAME) <- b` (R40). -/
def gpioWrite (l : Latch) (b : Bool) (s : State) : State := prim (latchWrite l b) s

/-- `DelayUs(n)`: a lower bound in time, no change of the block's state (R352). -/
def delayUs (n : Nat) (s : State) : State := prim (emit [.delay n]) s

/-- `DebugLog`: one event, no state (R330). -/
def debugLog (e : Event) (s : State) : State := prim (emit [e]) s

/-! ## Free values -/

/-- Count one free value as drawn. -/
def countDraw (s : State) : State := { s with env := { s.env with draws := s.env.draws + 1 } }

/-! ## The EEPROM port -/

/-- The byte `EE[a]` (R71, R72). -/
def eeRead (a : Nat) (s : State) : Byte := s.env.ee.read a

/-- `EeRead(a)` as a step: no side effect (R72). -/
def eeReadStep (a : Nat) (s : State) : Byte × State :=
  (eeRead a s, prim (emit [.eeRead a (eeRead a s)]) s)

/-- The check of R71: the addresses of a command, the first one outside the array stops it. -/
def eeStop (addrs : List Nat) (s : State) : Option Stop :=
  (addrs.find? (fun a => !decide (a < s.params.eepromSize))).map (fun a => .fault (.eeOutOfRange a))

/-- `EE[a] <- v` (R73). -/
def programByte (a : Nat) (v : Byte) (s : State) : State :=
  emit [.eeProgram a v] { s with env := { s.env with ee := s.env.ee.write a v } }

/-- `EeProgram(a, v)`: one physical byte write (R73). -/
def eeProgram (a : Nat) (v : Byte) (s : State) : State := prim (programByte a v) s

/-- `EeWriteIfChanged(a, v)` (R74). -/
def eeWriteIfChanged (a : Nat) (v : Byte) (s : State) : State :=
  let old := eeReadStep a s
  if old.1 != v then eeProgram a v old.2 else old.2

/-- `EeReadWord(a)`: high byte at `a`, low byte at `a + 1`, no wrap (R75). -/
def eeReadWord (a : Nat) (s : State) : Word16 × State :=
  let hi := eeReadStep a s
  let lo := eeReadStep (a + 1) hi.2
  (joinBytes hi.1 lo.1, lo.2)

/-- `EeWriteWordIfChanged(a, hi, lo)`: two byte writes (R76). -/
def eeWriteWordIfChanged (a : Nat) (hi lo : Byte) (s : State) : State :=
  eeWriteIfChanged (a + 1) lo (eeWriteIfChanged a hi s)

/-- `EeEraseRegion(start, len)`: zero-fill (R77). -/
def eeEraseRegion (start len : Nat) (s : State) : State :=
  (List.range' start len).foldl (fun s a => eeWriteIfChanged a 0x00#8 s) s

/-! ## The analog inputs -/

/-- The count of the next conversion of a source taken from the environment (R170). That the conversion is recorded
is the model's choice (notes/assumptions/9.md). -/
def takeReading (src : AnalogSource) (s : State) : State :=
  let r := s.env.analog.take (Config.analogReading src)
  emit [.singleShot src r.1] { s with env := { s.env with analog := r.2 } }

/-- `AdcSingleShot(src)`: one conversion, a raw count under no law (R170). -/
def adcSingleShot (src : AnalogSource) (s : State) : Word16 × State :=
  ((s.env.analog.take (Config.analogReading src)).1, prim (takeReading src) s)

/-! ## The buffers -/

/-- A buffer with its entries from index `k` on overwritten by `items`, as far as it reaches. -/
def overlayFrom {α : Type} {n : Nat} : Nat → List α → Vector α n → Vector α n
  | _, [], v => v
  | k, a :: rest, v => overlayFrom (k + 1) rest (v.setIfInBounds k a)

/-- A buffer with its first entries overwritten and the others as they were. -/
def overlay {α : Type} {n : Nat} (items : List α) (v : Vector α n) : Vector α n := overlayFrom 0 items v

/-- `tx[k] <- b` (R22). -/
def putTx (k : Nat) (b : Byte) (s : State) : State :=
  { s with disp := { s.disp with tx := s.disp.tx.setIfInBounds k b } }

/-- `tx_len <- n` (R22). -/
def setTxLen (n : Nat) (s : State) : State := { s with disp := { s.disp with txLen := n } }

/-- `tx[k] <- ..`, byte after byte from index `k` on (R22). -/
def writeTx : Nat → List Byte → State → State
  | _, [], s => s
  | k, b :: rest, s => writeTx (k + 1) rest (prim (putTx k b) s)

/-- A handler's response: `tx[0..n-1]`, then `tx_len` (R22, R134). -/
def respond (bytes : List Byte) (s : State) : State :=
  prim (setTxLen bytes.length) (writeTx 0 bytes s)

/-- A 16-bit response, low byte first (R82, R109). -/
def respondLittle (v : Word16) (s : State) : State := respond [loByte v, hiByte v] s

/-- A 16-bit response, high byte first (R82, R109). -/
def respondBig (v : Word16) (s : State) : State := respond [hiByte v, loByte v] s

/-- The bytes of the current response, `tx[0..tx_len-1]` (R135). -/
def responseBytes (s : State) : List Byte := s.disp.tx.toList.take s.disp.txLen

/-- Byte `k` of the frame as the handlers find it: `rx[k]` if the transport delivered it, else a free
value, never what an earlier frame left there (R136). -/
def rxByte (k : Nat) (hk : k < Config.rxBufSize) (s : State) : Byte :=
  if k < s.disp.rxLen then s.disp.rx[k] else Config.missingByte s.env.draws k

/-- The frame in `rx` (R89, R107, R136). -/
def frameOf (s : State) : Frame where
  op := rxByte 0 (by decide) s
  p1 := rxByte 1 (by decide) s
  p2 := rxByte 2 (by decide) s
  p3 := rxByte 3 (by decide) s
  p4 := rxByte 4 (by decide) s

/-- Fetch the frame in `rx`. A frame shorter than its format makes one draw, which its missing bytes share
out by place (R136); the bytes no format field stands in are ignored (R107). -/
def fetchFrame (s : State) : Frame × State :=
  (frameOf s, if s.disp.rxLen < frameLength (frameOf s).op then countDraw s else s)

/-! ## Running a command -/

/-- `tx_len <- 0`, the first act of `Dispatch` (R132). -/
def clearResponse (s : State) : State := setTxLen 0 s

/-- The beginning of `Dispatch` (R132): the opcode is read, then the response cleared. -/
def beginDispatch (s : State) : State := prim clearResponse (window s)

/-- `session <- S` (R23). -/
def setSession (ended : Session) (s : State) : State := { s with disp := { s.disp with session := ended } }

/-- `err <- 1` (R24). -/
def setErr (s : State) : State := { s with disp := { s.disp with err := true } }

/-- The session a kind of command ends in (R133, R134). -/
def sessionAfter : Kind → Session
  | .writeOnly => .idle
  | .writeThenRead => .writeReadRequested

/-- Completion of a command (R133, R134). -/
def complete (k : Kind) (s : State) : State := setSession (sessionAfter k) s

/-- A stop as an outcome of the step. -/
def Stop.outcome : Stop → Host.Outcome State Fault Refusal
  | .fault r => .fault r
  | .refusal r => .refused r

/-- A situation the spec refuses, under the treatment the parameters name: no successor state, or
`calm`, the state in which nothing but completion happened (93_implementation_defined.md section 1). -/
def unsourced (r : Stop) (calm s : State) : Host.Outcome State Fault Refusal :=
  match s.params.unsourced with
  | .refuse => r.outcome
  | .noEffect => .next calm

/-- A command the spec refuses: with the treatment `noEffect` it has no effect and completes as its kind
says. The spec gives it no steps, so there is no window in it. -/
def stopped (k : Kind) (r : Stop) (s : State) : Host.Outcome State Fault Refusal :=
  unsourced r (complete k (clearResponse s)) s

/-- Run one command (R132): the beginning of `Dispatch`, the handler, completion. `stop` is the condition under
which the spec refuses the command. -/
def command (k : Kind) (stop : Option Stop) (handler : State → State) (s : State) :
    Host.Outcome State Fault Refusal :=
  match stop with
  | none => .next (complete k (handler (beginDispatch s)))
  | some r => stopped k r s

/-- Run a command on the chip its chip field names (R103). -/
def onChip (k : Kind) (f : BitVec 2) (s : State) (run : Chip → Host.Outcome State Fault Refusal) :
    Host.Outcome State Fault Refusal :=
  match chipOf f with
  | some c => run c
  | none => stopped k (.refusal .badChipId) s

/-- The reason if the condition fails. -/
def refuseUnless (ok : Bool) (r : Refusal) : Option Stop := if ok then none else some (.refusal r)

/-- Taking the one protocol error, `raise UnknownOpcode(op)` (R137, R311): the flag is set and nothing else
happens; the session passes through `Error` to `Idle`. -/
def raiseUnknownOpcode (s : State) : State :=
  setSession .idle (prim (setSession .error) (prim setErr (beginDispatch s)))

/-- Reset of the block, by command 0x01 or by power-on (R150, R340, R341): the parameters and the
environment stay (R342). That the levels the latches and SPI lines take at reset are no events of the record, nor of
what an ASIC sees, is the model's choice (notes/assumptions/19.md). -/
def resetBlock (s : State) : State := State.afterReset s.params s.env

/-! ## The environment's moves -/

/-- `FrameDelivered(b[0..n-1])` (R131). -/
def deliverFrame (bytes : List Byte) (s : State) : Host.Outcome State Fault Refusal :=
  if bytes.length = 0 then .next s
  else if bytes.length ≤ Config.rxBufSize then
    .next { s with disp := { s.disp with
      rx := overlay bytes s.disp.rx, rxLen := bytes.length, session := .writeRequested } }
  else unsourced (.refusal .frameTooLong) s s

/-- What the master receives when it reads `n` bytes: the response, cut short or followed by free values
(R135). -/
def masterReceives (n : Nat) (s : State) : List Byte :=
  (responseBytes s).take n ++
    (List.range (n - s.disp.txLen)).map (fun k => Config.surplusByte s.env.draws k)

/-- `ReadPhase`, the master reading `n` bytes (R135). -/
def readPhase (n : Nat) (s : State) : Host.Outcome State Fault Refusal :=
  match s.disp.session with
  | .writeReadRequested =>
    .next (emit [.response (masterReceives n s)]
      (countDraw (setSession .idle s)))
  | _ => unsourced (.refusal .readWithoutResponse) s s

/-- One move of the environment while no command runs. -/
def envMove (s : State) : EnvEvent → Host.Outcome State Fault Refusal
  | .frameDelivered bytes => deliverFrame bytes s
  | .readPhase n => readPhase n s
  | .clearError => .next { s with disp := { s.disp with err := false } }
  | .powerOn => .next (resetBlock s)
  | .irq m => .next (irqMove s m)

/-- The environment's next move is taken from its stream and made. -/
def envStep (s : State) : Host.Outcome State Fault Refusal :=
  let r := s.env.bus.take Config.envEvent
  envMove { s with env := { s.env with bus := r.2 } } r.1

/-- The second half of the passage `Error → Idle` (R137, R138): `Error` is never observable between
commands, and a state that shows it goes on to `Idle`. -/
def leaveError (s : State) : State := setSession .idle s

/-! ## Average and reset of a channel -/

/-- `sum` and `count` zeroed; `last` and `offset` stay (R277). -/
def Acc.cleared (a : Acc) : Acc := { a with sum := 0#32, count := 0#16 }

/-- `ReadAvgAndMaybeReset(ch, rst)` (R277). The average of no samples is a free value. -/
def readAvgAndMaybeReset (ch : BitVec 4) (rst : Bool) (s : State) : Word32 × State :=
  let r := criticalGet (fun s => (accOf s ch, if rst then setAcc ch (accOf s ch).cleared s else s)) s
  if r.1.count = 0#16 then (Config.undefinedAverage r.2.env.draws, countDraw r.2)
  else (average r.1.sum r.1.count, r.2)

/-- `for ch in 0 .. 15: _ = ReadAvgAndMaybeReset(ch, true)`, if the parameter says so (R290, R292). -/
def zeroAllIf (rst : Bool) (s : State) : State :=
  if rst then allChannels.foldl (fun s ch => (readAvgAndMaybeReset ch true s).2) s else s

end Sys2Proof.Machine
end

