-- ==== Sys2Proof/Machine/AdcControl.lean ====
section
/-! DEFINITION. The ADC control commands (47_adc_commands.md): 0x16 to 0x1D. -/

namespace Sys2Proof.Machine

/-- A rate code the device knows (R270). -/
def rateCodeKnown (code : Byte) : Bool := decide (1#8 ≤ code) && decide (code ≤ 6#8)

/-- `adc_rate_code <- code` (R38). -/
def setRateCode (code : Byte) (s : State) : State :=
  { s with adc := { s.adc with rateCode := code.extractLsb' 0 3 } }

/-- The handler of `ADC_RATE`: codes outside 1 to 6 are ignored (R270). -/
def setRate (code : Byte) (s : State) : State :=
  if rateCodeKnown code then prim (emit [.adcSetRate code]) (prim (setRateCode code) s) else s

/-- 0x16 `ADC_RATE` (R270). -/
def execAdcRate (code : Byte) (s : State) : Host.Outcome State Fault Refusal :=
  command .writeOnly none (setRate code) s

/-- `adc_inited <- 1` (R37). -/
def setAdcInited (s : State) : State := { s with adc := { s.adc with inited := true } }

/-- The handler of `ADC_INIT` (R271). -/
def initAdc (s : State) : State := prim setAdcInited (prim (emit [.adcInit]) s)

/-- 0x17 `ADC_INIT` (R271). -/
def execAdcInit (s : State) : Host.Outcome State Fault Refusal := command .writeOnly none initAdc s

/-- `adc_loop_en <- 1` (R36). -/
def setLoopEn (s : State) : State := { s with adc := { s.adc with loopEn := true } }

/-- 0x18 `ADC_START` (R272). -/
def execAdcStart (s : State) : Host.Outcome State Fault Refusal :=
  command .writeOnly none (prim setLoopEn) s

/-- `adc_loop_en <- 0`, `irq_pending <- 0` (R273). -/
def clearLoop (s : State) : State := { s with adc := { s.adc with loopEn := false, irqPending := false } }

/-- The handler of `ADC_STOP`: the enable and the pending event, in one critical section (R273). -/
def stopLoop (s : State) : State := critical clearLoop s

/-- 0x19 `ADC_STOP` (R273). -/
def execAdcStop (s : State) : Host.Outcome State Fault Refusal := command .writeOnly none stopLoop s

/-- The handler of `ADC_RDAVG` (R274). -/
def reportAverage (ch : BitVec 4) (s : State) : State :=
  let r := readAvgAndMaybeReset ch s.params.rstOnAvgRead s
  respondBig (avg16 r.1) r.2

/-- 0x1A `ADC_RDAVG` (R274). -/
def execAdcRdavg (ch : BitVec 4) (s : State) : Host.Outcome State Fault Refusal :=
  command .writeThenRead none (reportAverage ch) s

/-- 0x1B `ADC_RDALL`: recognised, reserved, does nothing (R275). -/
def execAdcRdall (s : State) : Host.Outcome State Fault Refusal := command .writeOnly none id s

/-- One channel of `ADC_RECOFF`: the full average becomes the offset, in one critical section with which
the section of the read merges (R276). -/
def recordOffset (s : State) (ch : BitVec 4) : State :=
  critical (fun s =>
    let r := readAvgAndMaybeReset ch s.params.rstOnOffsetRecord s
    setAcc ch { accOf r.2 ch with offset := r.1 } r.2) s

/-- `offset_valid <- 1` (R46). -/
def setOffsetValid (s : State) : State := { s with hv := { s.hv with offsetValid := true } }

/-- The handler of `ADC_RECOFF`: the 16 channels in order, then the flag (R276). -/
def recordOffsets (s : State) : State :=
  critical setOffsetValid (allChannels.foldl recordOffset s)

/-- 0x1C `ADC_RECOFF` (R276). -/
def execAdcRecoff (s : State) : Host.Outcome State Fault Refusal :=
  command .writeOnly none recordOffsets s

/-- The handler of `ADC_RDOFF` (R278). -/
def reportOffset (ch : BitVec 4) (s : State) : State :=
  let r := criticalGet (fun s => ((accOf s ch).offset, s)) s
  respondBig (avg16 r.1) r.2

/-- 0x1D `ADC_RDOFF` (R278). -/
def execAdcRdoff (ch : BitVec 4) (s : State) : Host.Outcome State Fault Refusal :=
  command .writeThenRead none (reportOffset ch) s

end Sys2Proof.Machine
end

