-- ==== Sys2Proof/Machine/DeviceControl.lean ====
section
/-! DEFINITION. The device-control commands (41_device_control.md): 0x01 to 0x09 and 0x25. -/

namespace Sys2Proof.Machine

/-- 0x01 `RESET`: every state element to its reset value; the block ends in the reset state (R150). -/
def execReset (s : State) : Host.Outcome State Fault Refusal := .next (resetBlock (beginDispatch s))

/-- 0x02 `LED_ON` (R151). -/
def execLedOn (s : State) : Host.Outcome State Fault Refusal :=
  command .writeOnly none (gpioWrite .led true) s

/-- 0x03 `LED_OFF` (R152). -/
def execLedOff (s : State) : Host.Outcome State Fault Refusal :=
  command .writeOnly none (gpioWrite .led false) s

/-- 0x04 `P3V3_ON` (R153). -/
def execP3v3On (s : State) : Host.Outcome State Fault Refusal :=
  command .writeOnly none (gpioWrite .en3v3 true) s

/-- 0x05 `P3V3_OFF` (R154). -/
def execP3v3Off (s : State) : Host.Outcome State Fault Refusal :=
  command .writeOnly none (gpioWrite .en3v3 false) s

/-- 0x06 `P5V_ON` (R155). -/
def execP5vOn (s : State) : Host.Outcome State Fault Refusal :=
  command .writeOnly none (gpioWrite .en5v true) s

/-- 0x07 `P5V_OFF` (R156). -/
def execP5vOff (s : State) : Host.Outcome State Fault Refusal :=
  command .writeOnly none (gpioWrite .en5v false) s

/-- 0x08 `PALL_ON`: 3V3 first (R157). -/
def execPallOn (s : State) : Host.Outcome State Fault Refusal :=
  command .writeOnly none (fun s => gpioWrite .en5v true (gpioWrite .en3v3 true s)) s

/-- 0x09 `PALL_OFF`: 3V3 first (R158). -/
def execPallOff (s : State) : Host.Outcome State Fault Refusal :=
  command .writeOnly none (fun s => gpioWrite .en5v false (gpioWrite .en3v3 false s)) s

/-- The serial-number length byte, `EE[0]` (R78, R166). -/
def serialLength (s : State) : Byte := eeRead 0 s

/-- A serial length the region holds, or the erased value (R166). -/
def serialLengthKnown (s : State) : Bool :=
  serialLength s == Config.erased || decide ((serialLength s).toNat < Config.serialRegion)

/-- `tx[k] <- EeRead(k)` for `k = i + 1` (R166). -/
def copySerialByte (s : State) (i : Nat) : State :=
  let r := eeReadStep (i + 1) s
  prim (putTx (i + 1) r.1) r.2

/-- The response of `DEV_ID` for a serial number of length `l` (R166). -/
def reportSerial (l : Byte) (s : State) : State :=
  prim (setTxLen (1 + l.toNat)) ((List.range l.toNat).foldl copySerialByte (prim (putTx 0 l) s))

/-- The handler of `DEV_ID`: an erased device is zero-filled and reported as length 0 (R166, R321). -/
def reportDeviceId (s : State) : State :=
  let l := eeReadStep 0 s
  if l.1 = Config.erased then reportSerial 0x00#8 (eeEraseRegion 0 Config.serialRegion l.2)
  else reportSerial l.1 l.2

/-- 0x25 `DEV_ID` (R166). -/
def execDevId (s : State) : Host.Outcome State Fault Refusal :=
  command .writeThenRead (refuseUnless (serialLengthKnown s) .serialTooLong) reportDeviceId s

end Sys2Proof.Machine
end

