-- ==== Sys2Proof/Machine/Eeprom.lean ====
section
/-! DEFINITION. The EEPROM passthrough commands (43_eeprom_passthrough.md): 0x0C to 0x0F. -/

namespace Sys2Proof.Machine

/-- The handler of `EE_RDB` (R180). -/
def reportByte (a : Nat) (s : State) : State :=
  let r := eeReadStep a s
  respond [r.1, 0x00#8] r.2

/-- The handler of `EE_RDW` (R181). -/
def reportWord (a : Nat) (s : State) : State :=
  let r := eeReadWord a s
  respondLittle r.1 r.2

/-- 0x0C `EE_RDB`: the response is the byte, then 0x00 (R180). -/
def execEeRdb (a : Word16) (s : State) : Host.Outcome State Fault Refusal :=
  command .writeThenRead (eeStop [address16 a] s)
    (reportByte (address16 a)) s

/-- 0x0D `EE_RDW`: the word is big-endian in EEPROM and little-endian in the response (R181). -/
def execEeRdw (a8 : Byte) (s : State) : Host.Outcome State Fault Refusal :=
  command .writeThenRead (eeStop [address8 a8, address8 a8 + 1] s)
    (reportWord (address8 a8)) s

/-- 0x0E `EE_WRB` (R182). -/
def execEeWrb (a : Word16) (v : Byte) (s : State) : Host.Outcome State Fault Refusal :=
  command .writeOnly (eeStop [address16 a] s) (eeWriteIfChanged (address16 a) v) s

/-- 0x0F `EE_WRW` (R183). -/
def execEeWrw (a8 hi lo : Byte) (s : State) : Host.Outcome State Fault Refusal :=
  command .writeOnly (eeStop [address8 a8, address8 a8 + 1] s)
    (eeWriteWordIfChanged (address8 a8) hi lo) s

end Sys2Proof.Machine
end

