-- ==== Sys2Proof/Machine/HvControl.lean ====
section
/-! DEFINITION. The HV safety commands (48_hv_safety.md): 0x1E to 0x22. -/

namespace Sys2Proof.Machine

/-- The handler of `HV_ON`: no interlock; the later write of `HV_EN` wins (R290). -/
def hvOn (s : State) : State := gpioWrite .hvEn true (zeroAllIf s.params.rstOnHvOn s)

/-- 0x1E `HV_ON` (R290). -/
def execHvOn (s : State) : Host.Outcome State Fault Refusal := command .writeOnly none hvOn s

/-- 0x1F `HV_OFF` (R291). -/
def execHvOff (s : State) : Host.Outcome State Fault Refusal :=
  command .writeOnly none (gpioWrite .hvEn false) s

/-- `hv_safety_en <- 1` (R45). -/
def setSafetyEn (s : State) : State := { s with hv := { s.hv with safetyEn := true } }

/-- The handler of `HVSAFE_EN` (R292). -/
def enableSafety (s : State) : State :=
  critical setSafetyEn (zeroAllIf s.params.rstOnSafetyEn s)

/-- 0x20 `HVSAFE_EN` (R292). -/
def execHvsafeEn (s : State) : Host.Outcome State Fault Refusal := command .writeOnly none enableSafety s

/-- The handler of `HV_STAT`: the latch, read in one step, as a byte, then 0x00 (R293). -/
def reportHv (s : State) : State := respond [(BitVec.ofBool s.gpio.hvEn).zeroExtend 8, 0x00#8] (prim id s)

/-- 0x21 `HV_STAT` (R293). -/
def execHvStat (s : State) : Host.Outcome State Fault Refusal := command .writeThenRead none reportHv s

/-- `hv_max_uA <- uA`, `hv_max_delta <- DeltaOf(uA)` (R294). -/
def putMaxCurrent (uA : Word16) (s : State) : State :=
  { s with hv := { s.hv with maxUA := uA, maxDelta := deltaOf uA } }

/-- The handler of `HV_SETMAX`: the current and the threshold, in one critical section (R294). -/
def setMaxCurrent (uA : Word16) (s : State) : State := critical (putMaxCurrent uA) s

/-- 0x22 `HV_SETMAX` (R294). -/
def execHvSetmax (uA : Word16) (s : State) : Host.Outcome State Fault Refusal :=
  command .writeOnly none (setMaxCurrent uA) s

end Sys2Proof.Machine
end

