-- ==== Sys2Proof/Machine/Bitbang.lean ====
section
/-! DEFINITION. The MUSIC SPI controller (44_spi_controller.md): the pin-level byte transfer (R203), the
byte-level transfer (R204), and the transactions (R208 to R210) with the clock-mode switch (R211) and the
settle delays (R207). -/

namespace Sys2Proof.Machine

/-- `CPHA(m)`: the two modes have opposite clock phase (R30, R202). -/
def clockPhase (p : Params) : SpiMode → Bool
  | .addr => p.spiAddrCpha
  | .data => !p.spiAddrCpha

/-- The pin activity of one bit (R203): with phase 0 the data is set up before the leading edge and
sampled on it; with phase 1 it changes on the leading edge and is sampled on the trailing edge. -/
def bitActivity (cpol cpha outBit inBit : Bool) : List Event :=
  if cpha then [.sclk (!cpol), .mosi outBit, .sclk cpol, .sample inBit]
  else [.mosi outBit, .sclk (!cpol), .sample inBit, .sclk cpol]

/-- The bit positions of a byte, most significant first (R203). -/
def bitOrder : List Nat := [7, 6, 5, 4, 3, 2, 1, 0]

/-- `SpiXferPins(m, out)` as the sequence of its pin events, with the bits the ASIC answers (R203). -/
def byteActivity (cpol cpha : Bool) (out answer : Byte) : List Event :=
  bitOrder.flatMap (fun i => bitActivity cpol cpha (out.getLsbD i) (answer.getLsbD i))

/-- What a pin event leaves in the latches (R32). -/
def latchPin (spi : Spi) : Event → Spi
  | .csN c b => { spi with csN := spi.csN.put c b }
  | .sclk b => { spi with sclk := b }
  | .mosi b => { spi with mosi := b }
  | .setMode m => { spi with mode := m }
  | _ => spi

/-- One write of an SPI pin or of the mode register, or one sample of `MISO` (R203). -/
def pinStep (e : Event) (s : State) : State := emit [e] { s with spi := latchPin s.spi e }

/-- Drive SPI pins and the mode register through a sequence of events, each a primitive step (R203). -/
def drive (evs : List Event) (s : State) : State := evs.foldl (fun s e => prim (pinStep e) s) s

/-- Shift one sampled bit into a byte, most significant first (R203). -/
def shiftSample (b : Byte) : Event → Byte
  | .sample x => (b <<< 1) ||| (BitVec.ofBool x).zeroExtend 8
  | _ => b

/-- The byte assembled from the sampled bits, most significant first (R203). -/
def sampledByte (evs : List Event) : Byte := evs.foldl shiftSample 0#8

/-- An event the ASICs see on the SPI pins the block drives (R201). -/
def onPins : Event → Bool
  | .csN _ _ | .sclk _ | .mosi _ => true
  | _ => false

/-- Everything the block has put on the SPI pins so far (R204). -/
def pinHistory (s : State) : List Event := s.env.trace.filter onPins

/-- The ASIC's answer to a transfer, an input of the environment (R204). -/
def asicAnswer (c : Chip) (m : SpiMode) (out : Byte) (s : State) : Byte × State :=
  let r := s.env.miso.take (fun _ => Config.asicAnswer c (pinHistory s) m out)
  (r.1, { s with env := { s.env with miso := r.2 } })

/-- `SpiXfer(m, out)` to the selected chip `c` (R204), through the pins (R203). The record notes the whole transfer
behind its last pin event. -/
def spiXfer (c : Chip) (m : SpiMode) (out : Byte) (s : State) : Byte × State :=
  let r := asicAnswer c m out s
  let pins := byteActivity s.params.spiCpol (clockPhase s.params m) out r.1
  (sampledByte pins, emit [.xfer m out (sampledByte pins)] (drive pins r.2))

/-- `CS_N[c] <- b` (R201). -/
def chipSelect (c : Chip) (high : Bool) (s : State) : State := drive [.csN c high] s

/-- `spi_mode <- m` (R211). -/
def setSpiMode (m : SpiMode) (s : State) : State := drive [.setMode m] s

/-- `DelayUs(SPI_SETTLE_US)` (R207). -/
def settle (s : State) : State := delayUs Config.spiSettleUs s

/-- `SpiWrite(c, addr, data)` (R208). -/
def spiWrite (c : Chip) (addr : Byte) (data : Word16) (s : State) : State :=
  let s := chipSelect c false s
  let s := (spiXfer c .addr (addrByte false addr) s).2
  let s := setSpiMode .data s
  let s := settle s
  let s := (spiXfer c .data (hiByte data) s).2
  let s := settle s
  let s := (spiXfer c .data (loByte data) s).2
  let s := chipSelect c true s
  setSpiMode .addr s

/-- `SpiRead(c, addr)` (R209). -/
def spiRead (c : Chip) (addr : Byte) (s : State) : Word16 × State :=
  let s := chipSelect c false s
  let s := (spiXfer c .addr (addrByte true addr) s).2
  let s := settle s
  let hi := spiXfer c .addr 0x00#8 s
  let s := settle hi.2
  let lo := spiXfer c .addr 0x00#8 s
  (joinBytes hi.1 lo.1, chipSelect c true lo.2)

/-- `spi_mismatch <- 1` (R33). -/
def setMismatch (s : State) : State := { s with spi := { s.spi with mismatch := true } }

/-- The report of a verified write: the sticky flag and the log on a mismatch, nothing otherwise (R210,
R312). -/
def reportMismatch (c : Chip) (addr : Byte) (data readBack : Word16) (s : State) : State :=
  if readBackDiffers data readBack then
    debugLog (.debugMismatch c addr data readBack) (prim setMismatch s)
  else s

/-- `SpiWriteVerified(c, addr, data)` (R210). -/
def spiWriteVerified (c : Chip) (addr : Byte) (data : Word16) (s : State) : State :=
  let r := spiRead c addr (spiWrite c addr data s)
  reportMismatch c addr data r.1 r.2

/-- The preconditions of the transactions of a command (R213): SPI initialised, then bit 7 of every
address clear. -/
def spiStop (addrs : List Byte) (s : State) : Option Stop :=
  (refuseUnless s.spi.inited .spiNotInitialised).or (refuseUnless (addrs.all spiAddrClear) .spiAddrBit7)

end Sys2Proof.Machine
end

