-- ==== Sys2Proof/Machine/Music.lean ====
section
/-! DEFINITION. The MUSIC lifecycle commands (45_music_commands.md): 0x10 to 0x15. -/

namespace Sys2Proof.Machine

/-- `spi_inited <- 1` (R31). -/
def setSpiInited (s : State) : State := { s with spi := { s.spi with inited := true } }

/-- The handler of `MUSIC_SPI_INIT`: pins and mode idle, transactions allowed (R230). -/
def spiInit (s : State) : State :=
  prim setSpiInited
    (drive [.csN .bottom true, .csN .top true, .sclk s.params.spiCpol, .mosi false, .setMode .addr] s)

/-- 0x10 `MUSIC_SPI_INIT` (R230). -/
def execMusicSpiInit (s : State) : Host.Outcome State Fault Refusal :=
  command .writeOnly none spiInit s

/-- A write to entry `i` of a chip's map (R25). -/
def putEntry (c : Chip) (i : Fin Config.nMap) (e : MapEntry) (s : State) : State :=
  { s with disp := { s.disp with map := s.disp.map.put c ((s.disp.map.get c).set i e) } }

/-- Entry `i` of a chip's map (R25). -/
def entryOf (c : Chip) (i : Fin Config.nMap) (s : State) : MapEntry := (s.disp.map.get c).get i

/-- `map[c][i].addr <- a` (R25). -/
def putEntryAddr (c : Chip) (i : Fin Config.nMap) (a : Byte) (s : State) : State :=
  putEntry c i { entryOf c i s with addr := a } s

/-- `map[c][i].data <- d` (R25). -/
def putEntryData (c : Chip) (i : Fin Config.nMap) (d : Word16) (s : State) : State :=
  putEntry c i { entryOf c i s with data := d } s

/-- One entry from EEPROM into RAM: address, then data high and data low (R231). -/
def loadEntry (c : Chip) (s : State) (i : Fin Config.nMap) : State :=
  let a := eeReadStep (mapEntryAddress c i 0) s
  let d := eeReadWord (mapEntryAddress c i 1) (prim (putEntryAddr c i a.1) a.2)
  prim (putEntryData c i d.1) d.2

/-- `map_loaded[c] <- 1` (R25). -/
def markLoaded (c : Chip) (s : State) : State :=
  { s with disp := { s.disp with mapLoaded := s.disp.mapLoaded.put c true } }

/-- The handler of `MUSIC_LOAD`: the 23 entries from EEPROM into RAM (R231). -/
def loadMap (c : Chip) (s : State) : State :=
  prim (markLoaded c) ((List.finRange Config.nMap).foldl (loadEntry c) s)

/-- 0x11 `MUSIC_LOAD` (R231). Every address it reads lies below 203, inside every EEPROM (R71, R78). -/
def execMusicLoad (chip : BitVec 2) (s : State) : Host.Outcome State Fault Refusal :=
  onChip .writeOnly chip s (fun c => command .writeOnly none (loadMap c) s)

/-- The entries of a chip's map, in map order (R25). -/
def mapEntries (c : Chip) (s : State) : List MapEntry := (s.disp.map.get c).toList

/-- The check of R233 and R234: the map was loaded since reset. -/
def mapStop (c : Chip) (s : State) : Option Stop := refuseUnless (s.disp.mapLoaded.get c) .mapNotLoaded

/-- The handler of `MUSIC_PRINT` (R233). -/
def printMap (c : Chip) (s : State) : State := debugLog (.debugMap c (mapEntries c s)) s

/-- 0x12 `MUSIC_PRINT`: one debug event, no state change (R233). -/
def execMusicPrint (chip : BitVec 2) (s : State) : Host.Outcome State Fault Refusal :=
  onChip .writeOnly chip s (fun c =>
    command .writeOnly (mapStop c s) (printMap c) s)

/-- The handler of `MUSIC_APPLY`: a verified write of every entry, in map order (R234). -/
def applyMap (c : Chip) (s : State) : State :=
  (mapEntries c s).foldl (fun s e => spiWriteVerified c e.addr e.data s) s

/-- 0x13 `MUSIC_APPLY` (R234). -/
def execMusicApply (chip : BitVec 2) (s : State) : Host.Outcome State Fault Refusal :=
  onChip .writeOnly chip s (fun c =>
    command .writeOnly ((mapStop c s).or (spiStop ((mapEntries c s).map MapEntry.addr) s)) (applyMap c) s)

/-- The handler of `MUSIC_RD`: the register the ASIC answers, high byte first (R235). -/
def reportRegister (c : Chip) (addr : Byte) (s : State) : State :=
  let r := spiRead c addr s
  respondBig r.1 r.2

/-- 0x14 `MUSIC_RD` (R235). -/
def execMusicRd (chip : BitVec 2) (addr : Byte) (s : State) : Host.Outcome State Fault Refusal :=
  onChip .writeThenRead chip s (fun c =>
    command .writeThenRead (spiStop [addr] s) (reportRegister c addr) s)

/-- 0x15 `MUSIC_WR` (R236). -/
def execMusicWr (chip : BitVec 2) (addr : Byte) (data : Word16) (s : State) :
    Host.Outcome State Fault Refusal :=
  onChip .writeOnly chip s (fun c =>
    command .writeOnly (spiStop [addr] s) (spiWriteVerified c addr data) s)

end Sys2Proof.Machine
end

