-- ==== Sys2Proof/Machine/Sensing.lean ====
section
/-! DEFINITION. The sensing commands (42_sensing.md): 0x0A and 0x0B. -/

namespace Sys2Proof.Machine

/-- One conversion, its raw count returned low byte first (R170 to R172). -/
def reportAnalog (src : AnalogSource) (s : State) : State :=
  let r := adcSingleShot src s
  respondLittle r.1 r.2

/-- 0x0A `TEMP_SIPM` (R171). -/
def execTempSipm (s : State) : Host.Outcome State Fault Refusal :=
  command .writeThenRead none (reportAnalog .sipmTherm) s

/-- 0x0B `TEMP_UC` (R172). -/
def execTempUc (s : State) : Host.Outcome State Fault Refusal :=
  command .writeThenRead none (reportAnalog .ucTemp) s

end Sys2Proof.Machine
end

