-- ==== Sys2Proof/Machine/Dispatch.lean ====
section
/-! DEFINITION. One arm per command of the opcode map (30_encoding.md R105), each one call of its meaning. -/

namespace Sys2Proof.Machine

def exec (i : Instr) (s : State) : Host.Outcome State Fault Refusal :=
  match i with
  | .reset => Sys2Proof.Machine.execReset s
  | .ledOn => Sys2Proof.Machine.execLedOn s
  | .ledOff => Sys2Proof.Machine.execLedOff s
  | .p3v3On => Sys2Proof.Machine.execP3v3On s
  | .p3v3Off => Sys2Proof.Machine.execP3v3Off s
  | .p5vOn => Sys2Proof.Machine.execP5vOn s
  | .p5vOff => Sys2Proof.Machine.execP5vOff s
  | .pallOn => Sys2Proof.Machine.execPallOn s
  | .pallOff => Sys2Proof.Machine.execPallOff s
  | .tempSipm => Sys2Proof.Machine.execTempSipm s
  | .tempUc => Sys2Proof.Machine.execTempUc s
  | .eeRdb a => Sys2Proof.Machine.execEeRdb a s
  | .eeRdw a8 => Sys2Proof.Machine.execEeRdw a8 s
  | .eeWrb a v => Sys2Proof.Machine.execEeWrb a v s
  | .eeWrw a8 hi lo => Sys2Proof.Machine.execEeWrw a8 hi lo s
  | .musicSpiInit => Sys2Proof.Machine.execMusicSpiInit s
  | .musicLoad chip => Sys2Proof.Machine.execMusicLoad chip s
  | .musicPrint chip => Sys2Proof.Machine.execMusicPrint chip s
  | .musicApply chip => Sys2Proof.Machine.execMusicApply chip s
  | .musicRd chip addr => Sys2Proof.Machine.execMusicRd chip addr s
  | .musicWr chip addr data => Sys2Proof.Machine.execMusicWr chip addr data s
  | .adcRate code => Sys2Proof.Machine.execAdcRate code s
  | .adcInit => Sys2Proof.Machine.execAdcInit s
  | .adcStart => Sys2Proof.Machine.execAdcStart s
  | .adcStop => Sys2Proof.Machine.execAdcStop s
  | .adcRdavg ch => Sys2Proof.Machine.execAdcRdavg ch s
  | .adcRdall => Sys2Proof.Machine.execAdcRdall s
  | .adcRecoff => Sys2Proof.Machine.execAdcRecoff s
  | .adcRdoff ch => Sys2Proof.Machine.execAdcRdoff ch s
  | .hvOn => Sys2Proof.Machine.execHvOn s
  | .hvOff => Sys2Proof.Machine.execHvOff s
  | .hvsafeEn => Sys2Proof.Machine.execHvsafeEn s
  | .hvStat => Sys2Proof.Machine.execHvStat s
  | .hvSetmax uA => Sys2Proof.Machine.execHvSetmax uA s
  | .devId => Sys2Proof.Machine.execDevId s

end Sys2Proof.Machine
end

