-- ==== Sys2Proof/Machine/Step.lean ====
section
/-! DEFINITION. One step of the machine (40_dispatcher_session.md R132, R138): a delivered frame is
dispatched; otherwise the environment makes its next move. -/

namespace Sys2Proof.Machine

/-- `Dispatch` on a fetched frame (R132): run the command of a known opcode, raise `UnknownOpcode` for any
other. -/
def dispatchFrame (f : Frame) (s : State) : Host.Outcome State Fault Refusal :=
  match decode f with
  | .ok i => exec i s
  | .error (.unknownOpcode _) => .next (raiseUnknownOpcode s)

/-- One step (R138). -/
def step (s : State) : Host.Outcome State Fault Refusal :=
  match s.disp.session with
  | .writeRequested => dispatchFrame (fetchFrame s).1 (fetchFrame s).2
  | .idle => envStep s
  | .writeReadRequested => envStep s
  | .error => .next (leaveError s)

/-- The state in which the transport has just delivered the five bytes of this table word (R131), so that
the next step dispatches them. -/
def State.withFetchWord (s : State) (nbits w : Nat) : State :=
  { s with disp := { s.disp with
      rx := overlay (tableFrame nbits w).bytes s.disp.rx, rxLen := Config.rxBufSize,
      session := .writeRequested } }

end Sys2Proof.Machine
end

