-- ==== Sys2Proof/Safety.lean ====
section
/-! DEFINITION. The terms the claims use: what interrupts may change, the invariant of the machine, the
projections of the event record, and the mock ASIC of 95_test_vectors.md section 3. -/

namespace Sys2Proof.Machine

/-! ## Interrupts -/

/-- No interrupt can be served and no conversion can become pending (R250). -/
def Quiet (s : State) : Prop := s.adc.loopEn = false ∧ s.adc.irqPending = false

/-- The comparator can cut (R255). -/
def Armed (s : State) : Prop := s.hv.safetyEn = true ∧ s.hv.offsetValid = true

/-- The moves that the next `n` interrupt windows of a line hold, and the line after them (R317). -/
def takeWindows : Nat → Feed (List IrqMove) → List IrqMove × Feed (List IrqMove)
  | 0, line => ([], line)
  | n + 1, line =>
    let r := line.take Config.irqWindow
    let q := takeWindows n r.2
    (r.1 ++ q.1, q.2)

/-- `s` after these interrupt moves, with the line of moves where it then stands. -/
def afterMoves (moves : List IrqMove) (line : Feed (List IrqMove)) (s : State) : State :=
  let t := moves.foldl irqMove s
  { t with env := { t.env with irq := line } }

/-- `u` is what interrupt moves alone make of `s` (R9, R317): the next windows are taken from the line, and their
moves made in order, but for those that the mask of a critical section leaves without effect (R316). In a quiet
state nothing happens. -/
def Interrupts (s u : State) : Prop :=
  (Quiet s → u = s) ∧
  ∃ n moves, moves.Sublist (takeWindows n s.env.irq).1 ∧ u = afterMoves moves (takeWindows n s.env.irq).2 s

/-- `t` is what these foreground steps make of `s`, in this order, with interrupts before, between and behind them
and none inside one (R9, R86). -/
def Interleaved : List (State → State) → State → State → Prop
  | [], s, t => Interrupts s t
  | f :: steps, s, t => ∃ u, Interrupts s u ∧ Interleaved steps (f u) t

/-- What the foreground alone writes (R318, R323): the interrupt leaves it as it is. -/
structure ForegroundPart where
  disp : Dispatcher
  spi : Spi
  params : Params
  led : Bool
  en3v3 : Bool
  en5v : Bool
  inited : Bool
  rateCode : BitVec 3
  ee : Memory
  bus : Feed EnvEvent
  miso : Feed Byte
  analog : Feed Word16
  draws : Nat
deriving DecidableEq, Repr

/-- What the interrupt writes or reads, and the line of its moves (R252). -/
structure InterruptPart where
  acc : Vector Acc Config.nCh
  irqPending : Bool
  loopEn : Bool
  hv : HvSafety
  irqMasked : Bool
  params : Params
  hvEn : Bool
  adcWord : Word32
  irq : Feed (List IrqMove)
  events : List Event
deriving DecidableEq, Repr

/-- An access of the `ISR`. -/
def byInterrupt : Event → Bool
  | .isrReadWord _ | .isrCutoff => true
  | _ => false

/-- The accesses of the foreground, in order. -/
def foreground (evs : List Event) : List Event := evs.filter (fun e => !byInterrupt e)

/-- The accesses of the `ISR`, in order. -/
def interrupt (evs : List Event) : List Event := evs.filter byInterrupt

/-- The foreground's part of a state. -/
def foregroundPart (s : State) : ForegroundPart where
  disp := s.disp
  spi := s.spi
  params := s.params
  led := s.gpio.led
  en3v3 := s.gpio.en3v3
  en5v := s.gpio.en5v
  inited := s.adc.inited
  rateCode := s.adc.rateCode
  ee := s.env.ee
  bus := s.env.bus
  miso := s.env.miso
  analog := s.env.analog
  draws := s.env.draws

/-- The interrupt's part of a state. -/
def interruptPart (s : State) : InterruptPart where
  acc := s.adc.acc
  irqPending := s.adc.irqPending
  loopEn := s.adc.loopEn
  hv := s.hv
  irqMasked := s.irqMasked
  params := s.params
  hvEn := s.gpio.hvEn
  adcWord := s.env.adcWord
  irq := s.env.irq
  events := interrupt s.env.trace

/-- The events a step added to the record. -/
def newEvents (s t : State) : List Event := t.env.trace.drop s.env.trace.length

/-- The interrupt was taken between `s` and `t` (R251, R252). -/
def InterruptTaken (s t : State) : Prop := ∃ w, .isrReadWord w ∈ newEvents s t

/-! ## Runs -/

/-- `s` with these inputs of the environment in line: what it brings next is its free choice (R50, R130, R317). -/
def withInputs (bus : Feed EnvEvent) (irq : Feed (List IrqMove)) (s : State) : State :=
  { s with env := { s.env with bus := bus, irq := irq } }

/-- The states of an endless run, whatever moves the environment makes (R138). -/
def Run (σ : Nat → State) : Prop := ∀ n, ∃ bus irq, step (withInputs bus irq (σ n)) = .next (σ (n + 1))

/-- `t` is reached from `s` in this many steps (R138). -/
def Steps : Nat → State → State → Prop
  | 0, s, t => t = s
  | n + 1, s, t => ∃ u, step s = .next u ∧ Steps n u t

/-- The interrupt may be taken (R250). -/
def InterruptEnabled (s : State) : Prop := s.adc.irqPending = true ∧ s.irqMasked = false

/-- Weak fairness (R258, R317): an interrupt that may be taken from some state on is taken at some later step. -/
def WeaklyFair (σ : Nat → State) : Prop :=
  ∀ n, (∀ m, n ≤ m → InterruptEnabled (σ m)) → ∃ m, n ≤ m ∧ InterruptTaken (σ m) (σ (m + 1))

/-! ## How a command ends -/

/-- `u` with the session a command ends in (R133, R134). -/
def endIn (ended : Session) (u : State) : State := { u with disp := { u.disp with session := ended } }

/-- `t` is `u` with a response written and waiting to be read (R109, R134): the first bytes of `tx` are the
response, the others are as they were, and of the dispatcher nothing else changed. -/
def AnswersWith (bytes : List Byte) (u t : State) : Prop :=
  t.disp = { u.disp with
    tx := t.disp.tx, txLen := bytes.length, session := .writeReadRequested } ∧
  ∀ (i : Nat) (h : i < Config.txBufSize), t.disp.tx[i] = bytes.getD i u.disp.tx[i]

/-- What a command does that works beside the interrupt (R318): `u` is what interrupts alone make of `s` with the
response cleared, the foreground makes these accesses in this order, and the `ISR` those that lead to `u`. How the
foreground's part of `t` differs from that of `u` is said beside this. -/
def WorksBeside (accesses : List Event) (s u t : State) : Prop :=
  Interrupts (clearResponse s) u ∧ foreground (newEvents s t) = accesses ∧
    interrupt (newEvents s t) = newEvents s u

/-- The same state, but for how the accesses of the `ISR` lie among those of the foreground in the record. -/
def SameButOrder (a b : State) : Prop :=
  foregroundPart a = foregroundPart b ∧ interruptPart a = interruptPart b ∧
    foreground a.env.trace = foreground b.env.trace

/-- The average of a channel (R277): the floor of `sum / count`, a free value if there are no samples. -/
def averageOf (u : State) (ch : BitVec 4) : Word32 :=
  if (accOf u ch).count = 0#16 then Config.undefinedAverage u.env.draws
  else BitVec.ofNat 32 ((accOf u ch).sum.toNat / (accOf u ch).count.toNat)

/-- `u` with channel `ch` read (R277): `sum` and `count` zeroed if `rst`, and a free value counted if the channel
has no samples. -/
def channelRead (rst : Bool) (ch : BitVec 4) (u : State) : State :=
  setAcc ch { accOf u ch with
      sum := (if rst then 0#32 else (accOf u ch).sum), count := (if rst then 0#16 else (accOf u ch).count) }
    { u with env := { u.env with draws := (if (accOf u ch).count = 0#16 then u.env.draws + 1 else u.env.draws) } }

/-- `u` with the average of channel `ch` recorded as its offset (R276). -/
def channelRecorded (ch : BitVec 4) (u : State) : State :=
  setAcc ch { accOf (channelRead u.params.rstOnOffsetRecord ch u) ch with offset := averageOf u ch }
    (channelRead u.params.rstOnOffsetRecord ch u)

/-- What becomes of a command the spec refuses: no successor state, or, with the treatment `noEffect`,
nothing but the end its kind has (93_implementation_defined.md section 1). -/
def notSourced (reason : Stop) (ended : Session) (s : State) : Host.Outcome State Fault Refusal :=
  if s.params.unsourced = .refuse then
    match reason with
    | .fault r => .fault r
    | .refusal r => .refused r
  else .next { s with disp := { s.disp with txLen := 0, session := ended } }

/-! ## The invariant -/

/-- The SPI pins and the mode register idle (R212). -/
def SpiIdle (s : State) : Prop :=
  s.spi.csN = ⟨true, true⟩ ∧ s.spi.sclk = s.params.spiCpol ∧ s.spi.mode = .addr

/-- What holds between the steps of the machine. -/
structure Inv (s : State) : Prop where
  /-- The EEPROM contents are in canonical form. -/
  eeCanonical : Memory.wf s.env.ee = true
  /-- Every listed EEPROM address exists (R71). -/
  eeInRange : ∀ c ∈ s.env.ee, c.1 < s.params.eepromSize
  /-- `rx_len ≤ RX_BUF_SIZE` (R20). -/
  rxLen : s.disp.rxLen ≤ Config.rxBufSize
  /-- `tx_len ≤ TX_BUF_SIZE` (R20). -/
  txLen : s.disp.txLen ≤ Config.txBufSize
  /-- `Error` is never observable between commands (R23). -/
  session : s.disp.session ≠ .error
  /-- A frame waiting for dispatch has at least its opcode (R131). -/
  frame : s.disp.session = .writeRequested → 1 ≤ s.disp.rxLen
  /-- The SPI lines are idle whenever no transaction is in progress (R212). -/
  spiIdle : SpiIdle s
  /-- No critical section is open (R316). -/
  unmasked : s.irqMasked = false
  /-- An event can be pending only while the loop is enabled (R250, R273). -/
  pending : s.adc.irqPending = true → s.adc.loopEn = true
  /-- `adc_rate_code` is 0 to 6 (R38). -/
  rate : s.adc.rateCode ≤ 6#3
  /-- `hv_max_delta` is the conversion of `hv_max_uA` (R48). -/
  delta : s.hv.maxDelta = deltaOf s.hv.maxUA

/-! ## The environment's lines -/

/-- These inputs were taken from a line, in order, and this is the line after them: those that stood in line come first,
and inputs beyond the line are the environment's free choice (R50). -/
def TakenFrom {α : Type} (line : Feed α) (got : List α) (after : Feed α) : Prop :=
  line.queued.take got.length <+: got ∧ after = ⟨line.queued.drop got.length, line.taken + got.length⟩

/-! ## The event record -/

/-- An event of the byte level of the SPI controller (R200): not a clock edge, a data line or a sample. -/
def byteLevel : Event → Bool
  | .sclk _ | .mosi _ | .sample _ => false
  | _ => true

/-- The bytes sent on the SPI lines, in order. -/
def sentBytes (evs : List Event) : List Byte :=
  evs.filterMap (fun e => match e with
    | .xfer _ out _ => some out
    | _ => none)

/-- How many physical EEPROM byte writes there were, the count of the mock EEPROM (R73). -/
def programCount (evs : List Event) : Nat :=
  evs.countP (fun e => match e with
    | .eeProgram _ _ => true
    | _ => false)

/-- How often the clock line was driven to a level. -/
def clockWrites (level : Bool) (evs : List Event) : Nat := evs.count (.sclk level)

/-- The byte-level events of `SpiWrite(c, addr, data)` with the bytes the ASIC answered (R208). -/
def writeEvents (c : Chip) (addr : Byte) (data : Word16) (x y z : Byte) : List Event :=
  [.csN c false, .xfer .addr addr x, .setMode .data, .delay 100, .xfer .data (hiByte data) y,
    .delay 100, .xfer .data (loByte data) z, .csN c true, .setMode .addr]

/-- The byte-level events of `SpiRead(c, addr)` with the bytes the ASIC answered (R209). -/
def readEvents (c : Chip) (addr : Byte) (x hi lo : Byte) : List Event :=
  [.csN c false, .xfer .addr (0x80#8 ||| addr) x, .delay 100, .xfer .addr 0x00#8 hi, .delay 100,
    .xfer .addr 0x00#8 lo, .csN c true]

/-- The bytes an ASIC answers during one verified write: three to the write, three to the read-back. -/
structure VerifyAnswers where
  w1 : Byte
  w2 : Byte
  w3 : Byte
  r1 : Byte
  hi : Byte
  lo : Byte

/-- The bytes in the order they are received. -/
def VerifyAnswers.bytes (b : VerifyAnswers) : List Byte := [b.w1, b.w2, b.w3, b.r1, b.hi, b.lo]

/-- The value read back. -/
def VerifyAnswers.readBack (b : VerifyAnswers) : Word16 := b.hi ++ b.lo

/-- The byte-level events of `SpiWriteVerified(c, addr, data)` with the bytes the ASIC answered: the write, the
read-back, and the report of a read-back that differs (R210). -/
def verifiedEvents (c : Chip) (addr : Byte) (data : Word16) (b : VerifyAnswers) : List Event :=
  writeEvents c addr data b.w1 b.w2 b.w3 ++ readEvents c addr b.r1 b.hi b.lo ++
    (if b.readBack = data then [] else [.debugMismatch c addr data b.readBack])

/-- The frame with the bits the decoder ignores cleared: bits 7:2 of a chip byte (R103), bits 7:4 of a
channel byte (R104). -/
def meaningfulFrame (f : Frame) : Frame :=
  if 0x11#8 ≤ f.op ∧ f.op ≤ 0x15#8 then { f with p1 := f.p1 &&& 0x03#8 }
  else if f.op = 0x1A#8 ∨ f.op = 0x1D#8 then { f with p1 := f.p1 &&& 0x0F#8 }
  else f

/-- A conversion arrives and is served (R250, R252). -/
def serveWord (s : State) (w : Word32) : State := irqMove (irqMove s (.convReady w)) .serve

/-! ## The mock ASIC of 95_test_vectors.md section 3 -/

/-- The mock ASIC: 128 registers of 16 bits and the position in the transaction. -/
structure MockAsic where
  reg : BitVec 7 → Word16
  selected : Bool
  pos : Nat
  rd : Bool
  a : BitVec 7
  hi : Byte
  ok : Bool

/-- What the mock answers to the byte now transferred. -/
def MockAsic.answer (k : MockAsic) : Byte :=
  if k.rd && k.pos == 1 then hiByte (k.reg k.a)
  else if k.rd && k.pos == 2 then loByte (k.reg k.a)
  else 0x00#8

/-- The mock takes one byte: address, first data byte, second data byte. Data clocked in the wrong mode
leaves `junk` in the register ("silently corrupts writes"). -/
def MockAsic.take (junk : Word16) (k : MockAsic) (m : SpiMode) (out : Byte) : MockAsic :=
  let phase : SpiMode := if k.rd then .addr else .data
  match k.pos with
  | 0 => { k with pos := 1, rd := out.msb, a := out.extractLsb' 0 7, ok := m == .addr }
  | 1 => { k with pos := 2, hi := out, ok := k.ok && m == phase }
  | 2 =>
    if k.rd then { k with pos := 3 }
    else
      { k with
        pos := 3
        reg := fun r =>
          if r = k.a then (if k.ok && m == phase then joinBytes k.hi out else junk) else k.reg r }
  | n => { k with pos := n + 1 }

/-- The mock of chip `c` sees one event. -/
def MockAsic.onEvent (junk : Word16) (c : Chip) (k : MockAsic) : Event → MockAsic
  | .csN d false => if d = c then { k with selected := true, pos := 0 } else k
  | .csN d true => if d = c then { k with selected := false } else k
  | .xfer m out _ => if k.selected then k.take junk m out else k
  | _ => k

/-- Every byte received while chip `c` was selected is what the mock answers. -/
def MockAsic.agrees (junk : Word16) (c : Chip) : MockAsic → List Event → Bool
  | _, [] => true
  | k, e :: rest =>
    (match e with
      | .xfer _ _ got => !k.selected || got == k.answer
      | _ => true) && MockAsic.agrees junk c (k.onEvent junk c e) rest

/-- The mock after a sequence of events. -/
def MockAsic.after (junk : Word16) (c : Chip) (k : MockAsic) (evs : List Event) : MockAsic :=
  evs.foldl (MockAsic.onEvent junk c) k

end Sys2Proof.Machine
end

