-- ==== Sys2Proof/Certificates/Slice0/Obligations.lean ====
section
/-! DEFINITION. The statements for the provers, from the numbered rules of spec/. A rule the spec marks as its
own decision or derivation is named in the docstring with the decision's number. Interrupts may come between any
two primitive steps of a command (R9). A statement says so in one of three forms: `Interleaved` lists the steps of
the command, with interrupts before, between and behind them; `WorksBeside` gives the state `u` that the same
interrupts alone lead to, and the accesses the command makes beside them; `Interrupts` names a single state that
interrupts lead to. In a quiet machine each of them is the command alone. That interrupts do run there is the last
statement. The lines of inputs the statements name are the model's form of the environment's free choice
(notes/assumptions/6.md). -/

open Sys2Proof Sys2Proof.Machine

/-! ## Encoding -/

/-- Decoding the frame of any command gives the command back, whatever the bytes after the frame hold
(R100, R101, R102; layouts by decisions D9 and D10). -/
def Obligations.DecodeInvertsEncode : Prop :=
  ∀ (i : Instr) (rest : Frame), decode (Frame.ofBytes (encode i) rest) = .ok i

/-- The decoder rejects exactly the 221 unassigned opcodes, and names the opcode (R106, R311). -/
def Obligations.DecodeRejectsExactlyUnassignedOpcodes : Prop :=
  ∀ f : Frame,
    (decode f = .error (.unknownOpcode f.op) ↔
      f.op = 0x00#8 ∨ f.op = 0x23#8 ∨ f.op = 0x24#8 ∨ 0x26#8 ≤ f.op) ∧
    (∀ op, decode f = .error (.unknownOpcode op) → op = f.op)

/-- Each frame has one meaning: the frame of the decoded command is the frame received, cut to its format's
length, with the ignored bits of a chip or channel byte cleared (R103, R104, R106, R107). -/
def Obligations.EncodeOfDecodedIsMeaningfulFrame : Prop :=
  ∀ (f : Frame) (i : Instr), decode f = .ok i →
    encode i = (meaningfulFrame f).bytes.take (frameLength f.op) ∧ (encode i).length = frameLength f.op

/-- Frames written out in the spec decode to the commands they stand for (R102, R108, 95_test_vectors.md). -/
def Obligations.DecodeReadsTheFramesOfTheSpec : Prop :=
  ∀ rest : Frame,
    decode (Frame.ofBytes [0x04#8] rest) = .ok .p3v3On ∧
    decode (Frame.ofBytes [0x0C#8, 0x10#8, 0x00#8] rest) = .ok (.eeRdb 0x1000#16) ∧
    decode (Frame.ofBytes [0x22#8, 0x01#8, 0x90#8] rest) = .ok (.hvSetmax 400#16) ∧
    decode (Frame.ofBytes [0x15#8, 0x00#8, 0x08#8, 0x01#8, 0xFF#8] rest) =
      .ok (.musicWr 0#2 0x08#8 0x01FF#16) ∧
    decode (Frame.ofBytes [0x0F#8, 0x42#8, 0x01#8, 0xFF#8] rest) = .ok (.eeWrw 0x42#8 0x01#8 0xFF#8) ∧
    decode (Frame.ofBytes [0x11#8, 0xFD#8] rest) = .ok (.musicLoad 1#2) ∧
    decode (Frame.ofBytes [0x1D#8, 0xF0#8] rest) = .ok (.adcRdoff 0#4)

/-! ## The step, the session and the transport -/

/-- While a frame waits, the step is the decoded command, run on the state itself, or with one free value
counted if the frame was shorter than its format (R132, R136). The bytes decoded are the bytes in `rx` that
were delivered, and a byte of the frame that was not delivered does not depend on what `rx` holds there: no byte of an
earlier frame is read (R136). -/
def Obligations.StepRunsTheDecodedCommand : Prop :=
  ∀ (s : State) (i : Instr), s.disp.session = .writeRequested → decode (frameOf s) = .ok i →
    step s = exec i (if s.disp.rxLen < frameLength (frameOf s).op then countDraw s else s) ∧
    (∀ (k : Nat) (h : k < Config.rxBufSize), k < s.disp.rxLen →
      (frameOf s).bytes[k]? = some s.disp.rx[k]) ∧
    ∀ rx' : Vector Byte Config.rxBufSize,
      (∀ (k : Nat) (h : k < Config.rxBufSize), k < s.disp.rxLen → rx'[k] = s.disp.rx[k]) →
      frameOf { s with disp := { s.disp with rx := rx' } } = frameOf s

/-- A delivered frame fills the first bytes of `rx`, leaves the others, sets `rx_len` and makes the frame wait;
an empty write phase changes nothing; a write phase over five bytes is refused, or has no effect where the
parameters say so, which is the model's choice (notes/assumptions/2.md) (R131, decisions D4 and D7). -/
def Obligations.FrameDeliveryFillsTheReceiveBuffer : Prop :=
  ∀ (s : State) (bytes : List Byte) (rest : List EnvEvent),
    s.disp.session = .idle ∨ s.disp.session = .writeReadRequested →
    s.env.bus.queued = .frameDelivered bytes :: rest →
    let later : State := { s with env := { s.env with bus := ⟨rest, s.env.bus.taken + 1⟩ } }
    if bytes.length = 0 then step s = .next later
    else if bytes.length ≤ 5 then
      ∃ t, step s = .next t ∧
        t = { later with disp := { s.disp with
          rx := t.disp.rx, rxLen := bytes.length, session := .writeRequested } } ∧
        ∀ (k : Nat) (h : k < Config.rxBufSize), t.disp.rx[k] = bytes.getD k s.disp.rx[k]
    else
      step s = if s.params.unsourced = .refuse then .refused .frameTooLong else .next later

/-- A read phase returns the response to the master, cut to what the master reads, and ends the transaction;
bytes beyond the response are only as many as the master reads; with no response pending it is refused, or has
no effect where the parameters say so, which is the model's choice (notes/assumptions/2.md) (R135, decision
D5). -/
def Obligations.ReadPhaseReturnsTheResponse : Prop :=
  ∀ (s : State) (n : Nat) (rest : List EnvEvent), s.env.bus.queued = .readPhase n :: rest →
    let later : State := { s with env := { s.env with bus := ⟨rest, s.env.bus.taken + 1⟩ } }
    (s.disp.session = .writeReadRequested → s.disp.txLen ≤ Config.txBufSize →
      ∃ surplus, surplus.length = n - s.disp.txLen ∧
        step s = .next { later with
          disp := { s.disp with session := .idle }
          env := { later.env with
            draws := s.env.draws + 1
            trace := s.env.trace ++
              [.response ((s.disp.tx.toList.take s.disp.txLen).take n ++ surplus)] } }) ∧
    (s.disp.session = .idle →
      step s = if s.params.unsourced = .refuse then .refused .readWithoutResponse else .next later)

/-- The protocol error `UnknownOpcode`: dispatching a frame whose opcode is not in the opcode map sets `err`, leaves
no response, returns the session to `Idle` and executes nothing of the frame, interrupts apart; and no other step
sets `err` (R132, R137, R311; decisions D3 and D8). -/
def Obligations.UnknownOpcodeIsTheOnlyFaultThatSetsErr : Prop :=
  ∀ s : State,
    let unknown : Byte → Prop := fun op => op = 0x00#8 ∨ op = 0x23#8 ∨ op = 0x24#8 ∨ 0x26#8 ≤ op
    (s.disp.session = .writeRequested → 1 ≤ s.disp.rxLen → unknown s.disp.rx[0] →
      ∃ u, Interrupts (clearResponse s) u ∧
        step s = .next { u with disp := { s.disp with err := true, txLen := 0, session := .idle } }) ∧
    (∀ t, step s = .next t → t.disp.err = true →
      s.disp.err = true ∨ (s.disp.session = .writeRequested ∧ unknown (frameOf s).op))

/-- `err` is sticky: of the commands only `RESET` clears it, and of the environment's moves only the external
clear and power-on (R24, decisions D3 and D40). -/
def Obligations.ErrIsClearedOnlyByClearErrorOrReset : Prop :=
  ∀ s t : State, step s = .next t → s.disp.err = true → t.disp.err = false →
    (s.disp.session = .writeRequested ∧ decode (frameOf s) = .ok .reset) ∨
      ((s.disp.session = .idle ∨ s.disp.session = .writeReadRequested) ∧
        ((s.env.bus.take Config.envEvent).1 = .clearError ∨ (s.env.bus.take Config.envEvent).1 = .powerOn))

/-- The external clear does `err <- 0` and nothing else (R314, decision D40). -/
def Obligations.ClearErrorOnlyClearsErr : Prop :=
  ∀ (s : State) (rest : List EnvEvent),
    s.disp.session = .idle ∨ s.disp.session = .writeReadRequested →
    s.env.bus.queued = .clearError :: rest →
    step s = .next { s with
      disp := { s.disp with err := false }
      env := { s.env with bus := ⟨rest, s.env.bus.taken + 1⟩ } }

/-- A write-only command that goes on ends with no response and the session `Idle` (R133). -/
def Obligations.WriteOnlyCommandsEndIdle : Prop :=
  ∀ (i : Instr) (s t : State), i.kind = .writeOnly → exec i s = .next t →
    t.disp.txLen = 0 ∧ t.disp.session = .idle

/-- A write-then-read command that goes on ends in `WriteReadRequested` with a response of two bytes, of 1 to 65
for `DEV_ID` (R105, R109, R134; decision D8), or of none where the spec refuses it, so that the treatment `refuse`
gives it no next state, and the parameters let it have no effect (the model's choice, notes/assumptions/2.md). -/
def Obligations.WriteThenReadCommandsLeaveAResponse : Prop :=
  ∀ (i : Instr) (s t : State), i.kind = .writeThenRead → exec i s = .next t →
    t.disp.session = .writeReadRequested ∧
      ((i ≠ .devId ∧ t.disp.txLen = 2) ∨ (i = .devId ∧ 1 ≤ t.disp.txLen ∧ t.disp.txLen ≤ 65) ∨
        (s.params.unsourced = .noEffect ∧ t.disp.txLen = 0 ∧
          ∀ r, exec i { s with params := { s.params with unsourced := .refuse } } ≠ .next r))

/-! ## Reset, the invariant, the parameters -/

/-- `RESET` puts every state element at its reset value and keeps the EEPROM, the parameters and the rest of the
environment, what interrupts take and show while the command runs apart; power-on does the same, and a step makes it
when it is the environment's next move (R150, R340, R341, R342; decisions D15 and D37; the bytes of `rx` and `tx` and the
map entries are the model's choice, notes/assumptions/3.md, and are not stated; that reset itself adds nothing to the record is the model's choice,
notes/assumptions/19.md). -/
def Obligations.ResetCommandRestoresTheResetState : Prop :=
  ∀ s : State, encode .reset = [0x01#8] ∧ ∃ u t, Interrupts (clearResponse s) u ∧ exec .reset s = .next t ∧
    t.env = u.env ∧ envMove s .powerOn = .next { t with env := s.env } ∧
    (∀ rest, s.disp.session = .idle ∨ s.disp.session = .writeReadRequested → s.env.bus.queued = .powerOn :: rest →
      step s = .next { t with env := { s.env with bus := ⟨rest, s.env.bus.taken + 1⟩ } }) ∧
    t.params = s.params ∧
    t.disp.session = .idle ∧ t.disp.err = false ∧ t.disp.rxLen = 0 ∧ t.disp.txLen = 0 ∧
    t.disp.mapLoaded = ⟨false, false⟩ ∧
    t.spi = ⟨.addr, false, ⟨true, true⟩, s.params.spiCpol, false, false⟩ ∧
    (∀ ch, accOf t ch = ⟨0#32, 0#16, 0#32, 0#32⟩) ∧
    t.adc.loopEn = false ∧ t.adc.inited = false ∧ t.adc.rateCode = 0#3 ∧ t.adc.irqPending = false ∧
    t.irqMasked = false ∧ t.gpio = ⟨false, false, false, false⟩ ∧ t.hv = ⟨false, false, 0#16, 0#32⟩

/-- After power-on the session is `Idle`, the rails, the LED and the HV are off, and the HV protection is unarmed
(R60, R342; all but the session by decision D37). -/
def Obligations.PowerOnLeavesHvOffAndUnarmed : Prop :=
  State.reset.disp.session = .idle ∧ State.reset.gpio = ⟨false, false, false, false⟩ ∧
    State.reset.hv = ⟨false, false, 0#16, 0#32⟩ ∧ State.reset.adc.loopEn = false ∧
    State.reset.spi.inited = false ∧ State.reset.disp.err = false

/-- The invariant holds after power-on. -/
def Obligations.PowerOnMeetsTheInvariant : Prop := Inv State.reset

/-- Every step keeps the invariant: the EEPROM's canonical form and range, the buffer lengths, the session
legal, the SPI lines idle between transactions (R212), the interrupt unmasked between steps, no event pending
while the loop is off, a legal rate code, and the threshold the conversion of the current (R48). -/
def Obligations.StepKeepsTheInvariant : Prop :=
  ∀ s t : State, Inv s → step s = .next t → Inv t

/-- No step changes the parameters (R7). -/
def Obligations.StepKeepsTheParameters : Prop :=
  ∀ s t : State, step s = .next t → t.params = s.params

/-! ## Device control -/

/-- `P3V3_ON` sets the 3V3 latch, yields no response, and changes nothing else; interrupts apart (R153). -/
def Obligations.P3v3OnSetsTheLatchHigh : Prop :=
  ∀ s : State, encode .p3v3On = [0x04#8] ∧
    ∃ v, Interleaved [fun u => emit [.gpio .en3v3 true] { u with gpio := { u.gpio with en3v3 := true } }]
        (clearResponse s) v ∧
      exec .p3v3On s = .next (endIn .idle v) ∧ v.gpio.en3v3 = true ∧ v.disp.txLen = 0

/-- The other single-latch commands write their own latch and nothing else, interrupts apart (R151, R152, R154
to R156, R291; decision D14). -/
def Obligations.LatchCommandsWriteTheirOwnLatch : Prop :=
  ∀ s : State,
    (∃ v, Interleaved [fun u => emit [.gpio .led true] { u with gpio := { u.gpio with led := true } }]
        (clearResponse s) v ∧ exec .ledOn s = .next (endIn .idle v) ∧ v.gpio.led = true) ∧
    (∃ v, Interleaved [fun u => emit [.gpio .led false] { u with gpio := { u.gpio with led := false } }]
        (clearResponse s) v ∧ exec .ledOff s = .next (endIn .idle v) ∧ v.gpio.led = false) ∧
    (∃ v, Interleaved [fun u => emit [.gpio .en3v3 false] { u with gpio := { u.gpio with en3v3 := false } }]
        (clearResponse s) v ∧ exec .p3v3Off s = .next (endIn .idle v) ∧ v.gpio.en3v3 = false) ∧
    (∃ v, Interleaved [fun u => emit [.gpio .en5v true] { u with gpio := { u.gpio with en5v := true } }]
        (clearResponse s) v ∧ exec .p5vOn s = .next (endIn .idle v) ∧ v.gpio.en5v = true) ∧
    (∃ v, Interleaved [fun u => emit [.gpio .en5v false] { u with gpio := { u.gpio with en5v := false } }]
        (clearResponse s) v ∧ exec .p5vOff s = .next (endIn .idle v) ∧ v.gpio.en5v = false) ∧
    (∃ v, Interleaved [fun u => emit [.gpio .hvEn false] { u with gpio := { u.gpio with hvEn := false } }]
        (clearResponse s) v ∧ exec .hvOff s = .next (endIn .idle v) ∧ v.gpio.hvEn = false)

/-- The combined rail commands write both rail latches, 3V3 first, and nothing else, interrupts apart, also between
the two writes (R157, R158; decision D14). -/
def Obligations.CombinedRailCommandsWrite3v3First : Prop :=
  ∀ s : State,
    (∃ v, Interleaved
        [fun u => emit [.gpio .en3v3 true] { u with gpio := { u.gpio with en3v3 := true } },
          fun u => emit [.gpio .en5v true] { u with gpio := { u.gpio with en5v := true } }]
        (clearResponse s) v ∧
      exec .pallOn s = .next (endIn .idle v) ∧ v.gpio.en3v3 = true ∧ v.gpio.en5v = true) ∧
    (∃ v, Interleaved
        [fun u => emit [.gpio .en3v3 false] { u with gpio := { u.gpio with en3v3 := false } },
          fun u => emit [.gpio .en5v false] { u with gpio := { u.gpio with en5v := false } }]
        (clearResponse s) v ∧
      exec .pallOff s = .next (endIn .idle v) ∧ v.gpio.en3v3 = false ∧ v.gpio.en5v = false)

/-- `DEV_ID` on a device with a serial number reads its length and its bytes and answers them, and changes nothing
else, interrupts apart (R166, decision D36). -/
def Obligations.DevIdAnswersLengthAndSerial : Prop :=
  ∀ s : State, (eeRead 0 s).toNat ≤ 64 →
    let bytes := (List.range (1 + (eeRead 0 s).toNat)).map (fun a => eeRead a s)
    ∃ u t, WorksBeside ((List.range (1 + (eeRead 0 s).toNat)).map (fun a => .eeRead a (eeRead a s))) s u t ∧
      exec .devId s = .next t ∧ AnswersWith bytes u t ∧
      { t with disp := u.disp, env := { t.env with trace := u.env.trace } } = u

/-- `DEV_ID` on an erased device zero-fills addresses 0 to 64, one physical write for each byte that is not zero
already, answers length 0, and leaves every other address; nothing else changes, interrupts apart (R77, R166, R321;
decisions D35 and D36). -/
def Obligations.DevIdErasesAVirginDevice : Prop :=
  ∀ s : State, eeRead 0 s = 0xFF#8 →
    ∃ u t accesses, WorksBeside accesses s u t ∧ exec .devId s = .next t ∧
      AnswersWith [0x00#8] u t ∧
      { t with disp := u.disp, env := { t.env with ee := u.env.ee, trace := u.env.trace } } = u ∧
      (∀ a, eeRead a t = if a < 65 then 0x00#8 else eeRead a s) ∧
      accesses = .eeRead 0 0xFF#8 :: (List.range 65).flatMap (fun a =>
        .eeRead a (eeRead a s) :: if eeRead a s = 0x00#8 then [] else [.eeProgram a 0x00#8]) ∧
      programCount (newEvents s t) = (List.range 65).countP (fun a => eeRead a s != 0x00#8)

/-- `DEV_ID` with a serial length of 65 to 254 is refused (R166, decision D36; the treatment is the model's
choice, notes/assumptions/2.md). -/
def Obligations.DevIdRefusesALengthBeyondTheRegion : Prop :=
  ∀ s : State, 65 ≤ (eeRead 0 s).toNat → (eeRead 0 s).toNat ≤ 254 →
    exec .devId s = notSourced (.refusal .serialTooLong) .writeReadRequested s

/-! ## Sensing -/

/-- The temperature commands answer one conversion of their source, low byte first, and change nothing else but
that the input is taken, interrupts apart (R171, R172). -/
def Obligations.TemperatureCommandsAnswerLowByteFirst : Prop :=
  ∀ s : State, encode .tempSipm = [0x0A#8] ∧ encode .tempUc = [0x0B#8] ∧
      (∃ u t v, v = (s.env.analog.take (Config.analogReading .sipmTherm)).1 ∧
        WorksBeside [.singleShot .sipmTherm v] s u t ∧ exec .tempSipm s = .next t ∧
        AnswersWith [v.extractLsb' 0 8, v.extractLsb' 8 8] u t ∧
        { t with disp := u.disp, env := { t.env with analog := u.env.analog, trace := u.env.trace } } = u ∧
        t.env.analog = (s.env.analog.take (Config.analogReading .sipmTherm)).2) ∧
      (∃ u t v, v = (s.env.analog.take (Config.analogReading .ucTemp)).1 ∧
        WorksBeside [.singleShot .ucTemp v] s u t ∧ exec .tempUc s = .next t ∧
        AnswersWith [v.extractLsb' 0 8, v.extractLsb' 8 8] u t ∧
        { t with disp := u.disp, env := { t.env with analog := u.env.analog, trace := u.env.trace } } = u ∧
        t.env.analog = (s.env.analog.take (Config.analogReading .ucTemp)).2)

/-! ## EEPROM -/

/-- `EE_RDB` answers the byte at its address, then zero, and changes nothing else, interrupts apart; an address
outside the EEPROM is refused, where the parameters refuse at all (R180). -/
def Obligations.EeRdbAnswersTheByteThenZero : Prop :=
  ∀ (s : State) (a : Word16), encode (.eeRdb a) = [0x0C#8, a.extractLsb' 8 8, a.extractLsb' 0 8] ∧
    if a.toNat < s.params.eepromSize then
      ∃ u t, WorksBeside [.eeRead a.toNat (eeRead a.toNat s)] s u t ∧ exec (.eeRdb a) s = .next t ∧
        AnswersWith [eeRead a.toNat s, 0x00#8] u t ∧
        { t with disp := u.disp, env := { t.env with trace := u.env.trace } } = u
    else s.params.unsourced = .refuse → exec (.eeRdb a) s = .fault (.eeOutOfRange a.toNat)

/-- `EE_RDB` outside the EEPROM does nothing but complete, where the parameters give what the spec refuses no
effect: the model's choice (notes/assumptions/2.md), allowed by 93_implementation_defined.md section 1 (R71). -/
def Obligations.EeRdbOutsideTheEepromHasNoEffect : Prop :=
  ∀ (s : State) (a : Word16), s.params.eepromSize ≤ a.toNat → s.params.unsourced = .noEffect →
    exec (.eeRdb a) s =
      .next { s with disp := { s.disp with txLen := 0, session := .writeReadRequested } }

/-- `EE_RDW` reads the two bytes at its 8-bit address, high byte first, and answers them swapped, low byte first,
without wrap at 0xFF, and changes nothing else, interrupts apart; outside the EEPROM it is refused, and the fault names
a missing one of its two addresses, the treatment (notes/assumptions/2.md) and which of two missing addresses it names
(notes/assumptions/10.md) being the model's choices (R71, R75, R181; decisions D9 and D35). -/
def Obligations.EeRdwAnswersTheWordLowByteFirst : Prop :=
  ∀ (s : State) (a8 : Byte),
    let hi := eeRead a8.toNat s
    let lo := eeRead (a8.toNat + 1) s
    if a8.toNat + 1 < s.params.eepromSize then
      ∃ u t, WorksBeside [.eeRead a8.toNat hi, .eeRead (a8.toNat + 1) lo] s u t ∧
        exec (.eeRdw a8) s = .next t ∧ AnswersWith [lo, hi] u t ∧
        { t with disp := u.disp, env := { t.env with trace := u.env.trace } } = u
    else
      ∃ a, (a = a8.toNat ∨ a = a8.toNat + 1) ∧ s.params.eepromSize ≤ a ∧
        exec (.eeRdw a8) s = notSourced (.fault (.eeOutOfRange a)) .writeReadRequested s

/-- `EE_WRB` reads its byte, leaves its value at its address and every other byte as it was, with one physical write
if the byte differed and none if not; nothing else changes, interrupts apart; outside the EEPROM it is refused, the
treatment being the model's choice (notes/assumptions/2.md) (R71, R74, R182; decision D9). -/
def Obligations.EeWrbWritesOneByteIfChanged : Prop :=
  ∀ (s : State) (a : Word16) (v : Byte),
    let old := eeRead a.toNat s
    if a.toNat < s.params.eepromSize then
      ∃ u t, WorksBeside (.eeRead a.toNat old :: if old = v then [] else [.eeProgram a.toNat v]) s u t ∧
        exec (.eeWrb a v) s = .next t ∧
        { t with env := { t.env with ee := u.env.ee, trace := u.env.trace } } = endIn .idle u ∧
        (∀ x, eeRead x t = if x = a.toNat then v else eeRead x s)
    else exec (.eeWrb a v) s = notSourced (.fault (.eeOutOfRange a.toNat)) .idle s

/-- `EE_WRW` leaves its two bytes at its 8-bit address and the next one, and every other byte as it was, with a
physical write for each byte that differed; nothing else changes, interrupts apart; outside the EEPROM it is refused,
and the fault names a missing one of its two addresses, the treatment (notes/assumptions/2.md) and which of two missing
addresses it names (notes/assumptions/10.md) being the model's choices (R71, R76, R183; decisions D9 and D41). -/
def Obligations.EeWrwWritesTwoBytesIfChanged : Prop :=
  ∀ (s : State) (a8 hi lo : Byte),
    let a := a8.toNat
    let oldHi := eeRead a s
    let oldLo := eeRead (a + 1) s
    if a + 1 < s.params.eepromSize then
      ∃ u t, WorksBeside
          ((.eeRead a oldHi :: if oldHi = hi then [] else [.eeProgram a hi]) ++
            (.eeRead (a + 1) oldLo :: if oldLo = lo then [] else [.eeProgram (a + 1) lo])) s u t ∧
        exec (.eeWrw a8 hi lo) s = .next t ∧
        { t with env := { t.env with ee := u.env.ee, trace := u.env.trace } } = endIn .idle u ∧
        (∀ x, eeRead x t = if x = a then hi else if x = a + 1 then lo else eeRead x s)
    else
      ∃ b, (b = a ∨ b = a + 1) ∧ s.params.eepromSize ≤ b ∧
        exec (.eeWrw a8 hi lo) s = notSourced (.fault (.eeOutOfRange b)) .idle s

/-- A word written by `EE_WRW` is answered by `EE_RDW` at the same address, and writing it again performs no
physical write (R183, the property S5 of 95_test_vectors.md). -/
def Obligations.WordWriteReadsBackAndSecondWriteProgramsNothing : Prop :=
  ∀ (s : State) (a8 hi lo : Byte), a8.toNat + 1 < s.params.eepromSize →
    ∃ t, exec (.eeWrw a8 hi lo) s = .next t ∧
      (∃ r, exec (.eeRdw a8) t = .next r ∧ responseBytes r = [lo, hi]) ∧
      (∃ r, exec (.eeWrw a8 hi lo) t = .next r ∧ programCount (newEvents t r) = 0 ∧ r.env.ee = t.env.ee)

/-- Of all steps only the commands `EE_WRB`, `EE_WRW` and `DEV_ID` change the EEPROM; it survives every reset
(R71, R342; 20_memory.md section 2). -/
def Obligations.EepromIsChangedOnlyByItsThreeCommands : Prop :=
  ∀ s t : State, step s = .next t → t.env.ee ≠ s.env.ee →
    s.disp.session = .writeRequested ∧
      ((∃ a v, decode (frameOf s) = .ok (.eeWrb a v)) ∨
        (∃ a8 hi lo, decode (frameOf s) = .ok (.eeWrw a8 hi lo)) ∨ decode (frameOf s) = .ok .devId)

/-! ## MUSIC and the SPI controller -/

/-- `MUSIC_SPI_INIT` puts the pins and the mode in their idle state and allows transactions; the mismatch flag
and everything else stay; it sends nothing to an ASIC; interrupts may come between its writes (R230, decision D23). -/
def Obligations.SpiInitIdlesThePins : Prop :=
  ∀ s : State, ∃ u t, WorksBeside
      [.csN .bottom true, .csN .top true, .sclk s.params.spiCpol, .mosi false, .setMode .addr] s u t ∧
    exec .musicSpiInit s = .next t ∧
    t.spi = ⟨.addr, true, ⟨true, true⟩, s.params.spiCpol, false, s.spi.mismatch⟩ ∧
    { t with spi := u.spi, env := { t.env with trace := u.env.trace } } = endIn .idle u

/-- `MUSIC_LOAD` reads the 69 EEPROM bytes at 65 or 134 in rising order, fills the map of its chip from them, three to
an entry, and marks it loaded; the other chip's map, the SPI lines and everything else stay, interrupts apart (R78,
R231; decisions D9, D10, D22). -/
def Obligations.MusicLoadFillsTheMapFromEeprom : Prop :=
  ∀ (s : State) (f : BitVec 2) (c : Chip), chipOf f = some c →
    let start : Nat := match c with | .bottom => 65 | .top => 134
    ∃ u t, WorksBeside ((List.range' start 69).map (fun a => .eeRead a (eeRead a s))) s u t ∧
      exec (.musicLoad f) s = .next t ∧
      { t with
        disp := { t.disp with map := u.disp.map, mapLoaded := u.disp.mapLoaded }
        env := { t.env with trace := u.env.trace } } = endIn .idle u ∧
      t.disp.mapLoaded.get c = true ∧
      (∀ d, d ≠ c → t.disp.map.get d = s.disp.map.get d ∧ t.disp.mapLoaded.get d = s.disp.mapLoaded.get d) ∧
      ∀ (i : Nat) (h : i < Config.nMap),
        (t.disp.map.get c)[i] =
          ⟨eeRead (start + 3 * i) s, eeRead (start + 3 * i + 1) s ++ eeRead (start + 3 * i + 2) s⟩

/-- `MUSIC_PRINT` of a loaded map logs the map and changes nothing else, interrupts apart (R233, decision D13). -/
def Obligations.MusicPrintOnlyLogs : Prop :=
  ∀ (s : State) (f : BitVec 2) (c : Chip), chipOf f = some c → s.disp.mapLoaded.get c = true →
    ∃ v, Interleaved [emit [.debugMap c (s.disp.map.get c).toList]] (clearResponse s) v ∧
      exec (.musicPrint f) s = .next (endIn .idle v)

/-- `MUSIC_APPLY` of a loaded map makes a verified write of every entry, in map order: for each a write and a
read-back on its own chip, with their select windows, clock modes and delays, and a log exactly where the value read
back differs from the entry's data. The sticky flag is raised exactly if one of them differs; the map and the idle SPI
lines stay as they were, and nothing else changes, interrupts apart; the bytes received are the next ones of the
ASICs' line (R204, R208 to R210, R234; decisions D9, D17, D19,
D21). -/
def Obligations.MusicApplySendsEveryEntryVerified : Prop :=
  ∀ (s : State) (f : BitVec 2) (c : Chip), chipOf f = some c → s.disp.mapLoaded.get c = true →
    s.spi.inited = true → (∀ e ∈ (s.disp.map.get c).toList, e.addr.msb = false) →
    ∃ (u t : State) (accesses : List Event) (answers : List VerifyAnswers),
      exec (.musicApply f) s = .next t ∧ WorksBeside accesses s u t ∧
      { t with spi := u.spi, env := { t.env with miso := u.env.miso, trace := u.env.trace } } =
        endIn .idle u ∧
      answers.length = 23 ∧ TakenFrom s.env.miso (answers.flatMap VerifyAnswers.bytes) t.env.miso ∧
      accesses.filter byteLevel =
        ((s.disp.map.get c).toList.zip answers).flatMap (fun p => verifiedEvents c p.1.addr p.1.data p.2) ∧
      t.spi.inited = true ∧ (SpiIdle s → SpiIdle t) ∧
      t.spi.mismatch = (s.spi.mismatch ||
        ((s.disp.map.get c).toList.zip answers).any (fun p => decide (p.2.readBack ≠ p.1.data)))

/-- `MUSIC_RD` runs one read transaction on its chip, all of it in `MODE_ADDR`, and answers what the ASIC
answered, high byte first: the second and third of the next three bytes of the ASICs' line, which are taken from it.
Nothing else changes, interrupts apart (R204, R209, R235; decisions D9 to D11, D17, D18). -/
def Obligations.MusicRdAnswersTheRegisterHighByteFirst : Prop :=
  ∀ (s : State) (f : BitVec 2) (c : Chip) (a : Byte), chipOf f = some c → s.spi.inited = true →
    a.msb = false →
    ∃ u t accesses x hi lo, exec (.musicRd f a) s = .next t ∧ WorksBeside accesses s u t ∧
      AnswersWith [hi, lo] u t ∧
      { t with disp := u.disp, spi := u.spi, env := { t.env with miso := u.env.miso, trace := u.env.trace } }
        = u ∧
      accesses.filter byteLevel = readEvents c a x hi lo ∧ TakenFrom s.env.miso [x, hi, lo] t.env.miso ∧
      (∀ x' hi' lo' rest, s.env.miso.queued = x' :: hi' :: lo' :: rest →
        responseBytes t = [hi', lo'] ∧ t.env.miso = ⟨rest, s.env.miso.taken + 3⟩) ∧
      t.spi = { s.spi with csN := s.spi.csN.put c true, sclk := s.params.spiCpol, mosi := false }

/-- `MUSIC_WR` runs a write and a read-back on its chip, switching the clock mode only for the data bytes of the
write; a read-back that differs raises the sticky flag and is logged, and nothing else tells of it; the RAM map
is not updated; the bytes received are the next six of the ASICs' line; nothing else changes, interrupts apart (R204,
R208, R210, R236; decisions D9, D10, D17, D19, D21, D22). -/
def Obligations.MusicWrWritesAndVerifies : Prop :=
  ∀ (s : State) (f : BitVec 2) (c : Chip) (a : Byte) (d : Word16), chipOf f = some c →
    s.spi.inited = true → a.msb = false →
    ∃ u t accesses x y z x' hi lo, exec (.musicWr f a d) s = .next t ∧ WorksBeside accesses s u t ∧
      { t with spi := u.spi, env := { t.env with miso := u.env.miso, trace := u.env.trace } } =
        endIn .idle u ∧
      accesses.filter byteLevel = writeEvents c a d x y z ++ readEvents c a x' hi lo ++
        (if (hi ++ lo : Word16) = d then [] else [.debugMismatch c a d (hi ++ lo)]) ∧
      TakenFrom s.env.miso [x, y, z, x', hi, lo] t.env.miso ∧
      t.spi = { s.spi with
        mode := .addr, csN := s.spi.csN.put c true, sclk := s.params.spiCpol, mosi := false,
        mismatch := s.spi.mismatch || decide ((hi ++ lo : Word16) ≠ d) }

/-- Chip code 0 is the bottom ASIC and code 1 the top one, and the MUSIC commands the spec refuses are: those with chip
code 2 or 3; of a map not loaded; with the SPI not initialised; with a register address that has bit 7 set (R103,
R213, R233, R234; decisions D10, D20, D22, D23). The treatment is the model's choice (notes/assumptions/2.md), and so is which refusal is named where several apply, and that `MUSIC_APPLY` is
refused before any entry is sent (notes/assumptions/10.md). -/
def Obligations.MusicCommandsStopWithoutTheirPreconditions : Prop :=
  chipOf 0#2 = some .bottom ∧ chipOf 1#2 = some .top ∧
  ∀ (s : State) (f : BitVec 2) (a : Byte) (d : Word16),
    (f = 2#2 ∨ f = 3#2 →
      exec (.musicLoad f) s = notSourced (.refusal .badChipId) .idle s ∧
      exec (.musicPrint f) s = notSourced (.refusal .badChipId) .idle s ∧
      exec (.musicApply f) s = notSourced (.refusal .badChipId) .idle s ∧
      exec (.musicRd f a) s = notSourced (.refusal .badChipId) .writeReadRequested s ∧
      exec (.musicWr f a d) s = notSourced (.refusal .badChipId) .idle s) ∧
    ∀ c, chipOf f = some c →
      (s.disp.mapLoaded.get c = false →
        exec (.musicPrint f) s = notSourced (.refusal .mapNotLoaded) .idle s ∧
        exec (.musicApply f) s = notSourced (.refusal .mapNotLoaded) .idle s) ∧
      (s.spi.inited = false →
        exec (.musicRd f a) s = notSourced (.refusal .spiNotInitialised) .writeReadRequested s ∧
        exec (.musicWr f a d) s = notSourced (.refusal .spiNotInitialised) .idle s ∧
        (s.disp.mapLoaded.get c = true →
          exec (.musicApply f) s = notSourced (.refusal .spiNotInitialised) .idle s)) ∧
      (s.spi.inited = true → a.msb = true →
        exec (.musicRd f a) s = notSourced (.refusal .spiAddrBit7) .writeReadRequested s ∧
        exec (.musicWr f a d) s = notSourced (.refusal .spiAddrBit7) .idle s) ∧
      (s.spi.inited = true → s.disp.mapLoaded.get c = true →
        (∃ e ∈ (s.disp.map.get c).toList, e.addr.msb = true) →
        exec (.musicApply f) s = notSourced (.refusal .spiAddrBit7) .idle s)

/-- One byte on the pins: the bits go out and come in most significant first, in the order of the mode's clock
phase, with eight leading and eight trailing edges; the clock idles afterwards, `MOSI` holds bit 0, the selects and
the mode stay, the byte received is the next of the ASICs' line, which is taken from it, or past its end the
environment's free choice, and nothing else changes; interrupts may come between the
pin events (R202, R203, R204; decision D16). -/
def Obligations.ByteTransferClocksEightBitsMostSignificantFirst : Prop :=
  ∀ (s : State) (c : Chip) (m : SpiMode) (out : Byte),
    let next := s.env.miso.take (fun _ => Config.asicAnswer c (s.env.trace.filter onPins) m out)
    let answer := next.1
    let t := (spiXfer c m out s).2
    let idle := s.params.spiCpol
    (spiXfer c m out s).1 = answer ∧ t.env.miso = next.2 ∧
    foreground (newEvents s t) = ([7, 6, 5, 4, 3, 2, 1, 0].flatMap (fun i =>
      if (m == .data) != s.params.spiAddrCpha then
        [.sclk (!idle), .mosi (out.getLsbD i), .sclk idle, .sample (answer.getLsbD i)]
      else [.mosi (out.getLsbD i), .sclk (!idle), .sample (answer.getLsbD i), .sclk idle])) ++
      [.xfer m out answer] ∧
    clockWrites (!idle) (newEvents s t) = 8 ∧ clockWrites idle (newEvents s t) = 8 ∧
    t.spi = { s.spi with sclk := idle, mosi := out.getLsbD 0 } ∧
    ∃ u, Interrupts s u ∧
      { t with spi := u.spi, env := { t.env with miso := u.env.miso, trace := u.env.trace } } = u ∧
      interrupt (newEvents s t) = newEvents s u

/-- On the mock ASIC of 95_test_vectors.md section 3, which corrupts a register whose data it is given in the wrong
clock mode, `MUSIC_WR` followed by `MUSIC_RD` at the same address answers the written value (R215). -/
def Obligations.WriteThenReadOnTheMockAsicReturnsTheData : Prop :=
  ∀ (s : State) (f : BitVec 2) (c : Chip) (a : Byte) (d junk : Word16) (k : MockAsic),
    chipOf f = some c → s.spi.inited = true → a.msb = false →
    ∃ t r, exec (.musicWr f a d) s = .next t ∧ exec (.musicRd f a) t = .next r ∧
      (k.after junk c (newEvents s t)).reg (a.extractLsb' 0 7) = d ∧
      (∀ x, x ≠ a.extractLsb' 0 7 → (k.after junk c (newEvents s t)).reg x = k.reg x) ∧
      (MockAsic.agrees junk c k (newEvents s r) = true →
        responseBytes r = [d.extractLsb' 8 8, d.extractLsb' 0 8] ∧
        r.spi.mismatch = s.spi.mismatch)

/-! ## The ADC commands -/

/-- `ADC_RATE` with a code of 1 to 6 stores the code and hands it to the ADC device; any other code is ignored
without an error; nothing else changes, interrupts apart (R270, decisions D9 and D31). -/
def Obligations.AdcRateStoresCodesOneToSix : Prop :=
  ∀ (s : State) (code : Byte), ∃ v,
    Interleaved
      (if 1 ≤ code.toNat ∧ code.toNat ≤ 6 then
        [fun u => { u with adc := { u.adc with rateCode := BitVec.ofNat 3 code.toNat } },
          emit [.adcSetRate code]]
      else []) (clearResponse s) v ∧
    exec (.adcRate code) s = .next (endIn .idle v)

/-- `ADC_INIT` tells the device and records that it ran, `ADC_START` sets the loop enable, `ADC_RDALL` does nothing;
none changes anything else, interrupts apart (R271, R272, R275; decisions D12, D32, D33). -/
def Obligations.AdcInitStartAndReadAllTouchOnlyTheirFlag : Prop :=
  ∀ s : State,
    (∃ v, Interleaved [emit [.adcInit], fun u => { u with adc := { u.adc with inited := true } }]
        (clearResponse s) v ∧ exec .adcInit s = .next (endIn .idle v)) ∧
    (∃ v, Interleaved [fun u => { u with adc := { u.adc with loopEn := true } }] (clearResponse s) v ∧
        exec .adcStart s = .next (endIn .idle v) ∧ v.adc.loopEn = true) ∧
    (∃ v, Interrupts (clearResponse s) v ∧ exec .adcRdall s = .next (endIn .idle v))

/-- `ADC_STOP` clears the loop enable and a pending event as one step, after which the machine is quiet; accumulators,
offsets and safety flags stay as the interrupts before it left them (R273, decision D33). -/
def Obligations.AdcStopClearsEnableAndPending : Prop :=
  ∀ s : State, ∃ u t, Interrupts (clearResponse s) u ∧ exec .adcStop s = .next t ∧
    t = endIn .idle { u with adc := { u.adc with loopEn := false, irqPending := false } } ∧ Quiet t

/-- `ADC_RDAVG` answers bits 19 to 4 of the floor of `sum / count`, high byte first; with no samples the average is
a free value; `sum` and `count` are zeroed, in one step with their reading, if the parameter says so, and nothing else
changes, interrupts before and behind that step apart (R274, R277, R279; decisions D9, D11, D27, D28). -/
def Obligations.AdcRdavgAnswersTheMiddleOfTheAverage : Prop :=
  ∀ (s : State) (ch : BitVec 4), ∃ u u' w t, Interrupts (clearResponse s) u ∧ Interrupts u' w ∧
    exec (.adcRdavg ch) s = .next t ∧
    (let a := accOf u ch
     let v : Word32 := if a.count = 0#16 then Config.undefinedAverage s.env.draws
       else BitVec.ofNat 32 (a.sum.toNat / a.count.toNat)
     AnswersWith [v.extractLsb' 12 8, v.extractLsb' 4 8] w t) ∧
    { u' with adc := { u'.adc with acc := u.adc.acc }, env := { u'.env with draws := u.env.draws } } = u ∧
    accOf u' ch = (if s.params.rstOnAvgRead then { accOf u ch with sum := 0#32, count := 0#16 } else accOf u ch) ∧
    (∀ d, d ≠ ch → accOf u' d = accOf u d) ∧
    { t with disp := w.disp } = w

/-- `ADC_RDOFF` answers bits 19 to 4 of the recorded offset, high byte first, and changes nothing, interrupts apart
(R278; decisions D9, D11, D43). -/
def Obligations.AdcRdoffAnswersTheMiddleOfTheOffset : Prop :=
  ∀ (s : State) (ch : BitVec 4), ∃ u t, Interrupts (clearResponse s) u ∧
    exec (.adcRdoff ch) s = .next t ∧
    AnswersWith [(accOf s ch).offset.extractLsb' 12 8, (accOf s ch).offset.extractLsb' 4 8] u t ∧
    { t with disp := u.disp } = u

/-- `ADC_RECOFF` takes the 16 channels in rising order: reading the average, zeroing the accumulator if the parameter
says so, and writing the full average as the offset are one step, with interrupts only before, between and behind
these steps; it then sets `offset_valid` and changes nothing else. In a quiet machine every channel with samples gets
the floor of `sum / count` as its offset, keeps `last`, and keeps or loses `sum` and `count` as the parameter says
(R276, R277; decisions D26 and D28; that each channel is one section of its own is rule R276's). -/
def Obligations.AdcRecoffRecordsEveryAverage : Prop :=
  ∀ s : State, ∃ t, exec .adcRecoff s = .next (endIn .idle t) ∧
    Interleaved ((List.range 16).map (fun n => channelRecorded (BitVec.ofNat 4 n)) ++
      [fun u => { u with hv := { u.hv with offsetValid := true } }]) (clearResponse s) t ∧
    t.hv = { s.hv with offsetValid := true } ∧ foreground (newEvents s t) = [] ∧
    (Quiet s →
      t.gpio = s.gpio ∧ Quiet t ∧ newEvents s t = [] ∧
      ∀ ch,
        ((accOf s ch).count ≠ 0#16 →
          (accOf t ch).offset = BitVec.ofNat 32 ((accOf s ch).sum.toNat / (accOf s ch).count.toNat)) ∧
        (accOf t ch).last = (accOf s ch).last ∧
        (accOf t ch).sum = (if s.params.rstOnOffsetRecord then 0#32 else (accOf s ch).sum) ∧
        (accOf t ch).count = (if s.params.rstOnOffsetRecord then 0#16 else (accOf s ch).count))

/-! ## HV safety -/

/-- `HV_ON` writes `HV_EN` high, whatever the safety state; before that it zeroes `sum` and `count` of the 16 channels
in rising order, one step each, where the parameter asks for it, and it does nothing else, interrupts before, between
and behind these steps apart. With the comparator unarmed `HV_EN` ends high; a quiet machine ends with every `sum` and
`count` zero, `last` and `offset` kept (R290; decisions D14, D28, D45). -/
def Obligations.HvOnRaisesHvEnUnconditionally : Prop :=
  ∀ s : State, ∃ t, exec .hvOn s = .next (endIn .idle t) ∧
    Interleaved ((if s.params.rstOnHvOn then
        (List.range 16).map (fun n => channelRead true (BitVec.ofNat 4 n)) else []) ++
      [fun u => emit [.gpio .hvEn true] { u with gpio := { u.gpio with hvEn := true } }]) (clearResponse s) t ∧
    foreground (newEvents s t) = [.gpio .hvEn true] ∧ t.hv = s.hv ∧
    (∀ ch, (accOf t ch).offset = (accOf s ch).offset) ∧
    (¬ Armed s → t.gpio = { s.gpio with hvEn := true }) ∧
    (Quiet s → t.gpio = { s.gpio with hvEn := true } ∧ newEvents s t = [.gpio .hvEn true] ∧
      ∀ ch, accOf t ch = if s.params.rstOnHvOn then { accOf s ch with sum := 0#32, count := 0#16 } else accOf s ch)

/-- `HVSAFE_EN` sets the enable of the controller and leaves `HV_EN` to the interrupt alone; zeroing as for `HV_ON`
(R292; decisions D28 and D30). -/
def Obligations.HvsafeEnArmsTheController : Prop :=
  ∀ s : State, ∃ t, exec .hvsafeEn s = .next (endIn .idle t) ∧
    Interleaved ((if s.params.rstOnSafetyEn then
        (List.range 16).map (fun n => channelRead true (BitVec.ofNat 4 n)) else []) ++
      [fun u => { u with hv := { u.hv with safetyEn := true } }]) (clearResponse s) t ∧
    t.hv = { s.hv with safetyEn := true } ∧ foreground (newEvents s t) = [] ∧
    (t.gpio.hvEn = true → s.gpio.hvEn = true) ∧
    (∀ ch, (accOf t ch).offset = (accOf s ch).offset) ∧
    (Quiet s → t.gpio = s.gpio ∧ newEvents s t = [] ∧
      ∀ ch, accOf t ch =
        if s.params.rstOnSafetyEn then { accOf s ch with sum := 0#32, count := 0#16 } else accOf s ch)

/-- `HV_STAT` answers the `HV_EN` latch, read in one step, as a byte, then zero, and changes nothing, interrupts before
and behind that step apart (R293; decisions D11 and D44). -/
def Obligations.HvStatAnswersTheLatch : Prop :=
  ∀ s : State, ∃ u w t, Interrupts (clearResponse s) u ∧ Interrupts u w ∧ exec .hvStat s = .next t ∧
    AnswersWith [if u.gpio.hvEn then 0x01#8 else 0x00#8, 0x00#8] w t ∧ { t with disp := w.disp } = w

/-- `HV_SETMAX` stores the current and the threshold `floor(uA × 38.8)`, which never overflows, in one step, and
changes nothing else, interrupts before and behind that step apart (R294, R296; decision D29). -/
def Obligations.HvSetmaxStoresTheConvertedThreshold : Prop :=
  ∀ (s : State) (uA : Word16), ∃ delta v, delta.toNat = uA.toNat * 194 / 5 ∧ delta.toNat ≤ 2542758 ∧
    Interleaved [fun u => { u with hv := { u.hv with maxUA := uA, maxDelta := delta } }] (clearResponse s) v ∧
    exec (.hvSetmax uA) s = .next (endIn .idle v) ∧
    v.hv = { s.hv with maxUA := uA, maxDelta := delta }

/-- No step but the command `HV_ON` raises `HV_EN` (R40, R290; decisions D30 and D45). -/
def Obligations.HvEnIsRaisedOnlyByHvOn : Prop :=
  ∀ s t : State, step s = .next t → s.gpio.hvEn = false → t.gpio.hvEn = true →
    s.disp.session = .writeRequested ∧ decode (frameOf s) = .ok .hvOn

/-- `hv_safety_en` and `offset_valid` are set by their own command alone and cleared by reset alone (R45, R46;
decisions D26 and D30). -/
def Obligations.SafetyFlagsAreSetByTheirCommandAndClearedByReset : Prop :=
  ∀ s t : State, step s = .next t →
    (t.hv.safetyEn ≠ s.hv.safetyEn →
      (t.hv.safetyEn = true ∧ s.disp.session = .writeRequested ∧ decode (frameOf s) = .ok .hvsafeEn) ∨
      (t.hv.safetyEn = false ∧ t = resetBlock { s with env := t.env })) ∧
    (t.hv.offsetValid ≠ s.hv.offsetValid →
      (t.hv.offsetValid = true ∧ s.disp.session = .writeRequested ∧ decode (frameOf s) = .ok .adcRecoff) ∨
      (t.hv.offsetValid = false ∧ t = resetBlock { s with env := t.env }))

/-! ## The interrupt -/

/-- A word with an error bit is dropped: of the block's state only `irq_pending` changes, and the one access of the
`ISR` is its reading of the word (R253, R313). -/
def Obligations.InterruptDropsAWordWithAnErrorBit : Prop :=
  ∀ s : State, s.env.adcWord &&& s.params.adcErrMask ≠ 0#32 →
    takeInterrupt s = { s with
      adc := { s.adc with irqPending := false }
      env := { s.env with trace := s.env.trace ++ [.isrReadWord s.env.adcWord] } }

/-- A word without error bits is accumulated in its channel, and `HV_EN` is written low, an access that takes its place
in the record, exactly if the controller is enabled, the offset is valid and the sample is above `offset + delta`;
nothing else changes (R86, R252, R254, R255, R256; decisions D24 to D26). -/
def Obligations.InterruptComparesThenAccumulates : Prop :=
  ∀ s : State, s.env.adcWord &&& s.params.adcErrMask = 0#32 →
    (let w := s.env.adcWord
     let ch : BitVec 4 := w.extractLsb' 0 4
     let x : Word32 := w >>> 8
     let a := accOf s ch
     let cut : Prop := s.hv.safetyEn = true ∧ s.hv.offsetValid = true ∧ a.offset + s.hv.maxDelta < x
     let t := takeInterrupt s
     t = { s with
        gpio := { s.gpio with hvEn := t.gpio.hvEn }
        adc := { s.adc with irqPending := false, acc := t.adc.acc }
        env := { s.env with trace := t.env.trace } } ∧
     accOf t ch = ⟨a.sum + x, a.count + 1#16, x, a.offset⟩ ∧
     (∀ d, d ≠ ch → accOf t d = accOf s d) ∧
     (t.gpio.hvEn = true ↔ s.gpio.hvEn = true ∧ ¬ cut) ∧
     (cut → newEvents s t = [.isrReadWord w, .isrCutoff]) ∧ (¬ cut → newEvents s t = [.isrReadWord w]))

/-- Over any stream of served conversions `HV_EN` stays up as long as no accepted sample is above its channel's
threshold, falls at the first that is, and stays down; each channel's `sum` and `count` grow by its accepted
samples. When the environment brings such a stream between commands, the steps of the machine serve it (R252,
R256, R257; decisions D24 to D26, reading of conflict C7). -/
def Obligations.CutoffHappensAtTheFirstExceedingSample : Prop :=
  ∀ (s : State) (ws : List Word32), s.adc.loopEn = true → s.irqMasked = false →
    (let accepted := ws.filter (fun w => w &&& s.params.adcErrMask == 0#32)
     let t := ws.foldl serveWord s
     (t.gpio.hvEn = true ↔ s.gpio.hvEn = true ∧
       ¬ (Armed s ∧ ∃ w ∈ accepted,
           (accOf s (w.extractLsb' 0 4)).offset + s.hv.maxDelta < w >>> 8)) ∧
     ∀ ch : BitVec 4,
       let mine := accepted.filter (fun w => w.extractLsb' 0 4 == ch)
       (accOf t ch).sum = mine.foldl (fun (x w : Word32) => x + w >>> 8) (accOf s ch).sum ∧
       (accOf t ch).count = (accOf s ch).count + BitVec.ofNat 16 mine.length ∧
       (accOf t ch).offset = (accOf s ch).offset) ∧
    (∀ rest, s.disp.session = .idle ∨ s.disp.session = .writeReadRequested →
      s.env.bus.queued = ws.flatMap (fun w => [.irq (.convReady w), .irq .serve]) ++ rest →
      let t := ws.foldl serveWord s
      Steps (2 * ws.length) s
        { t with env := { t.env with bus := ⟨rest, s.env.bus.taken + 2 * ws.length⟩ } })

/-- A conversion is ignored while the loop is disabled; while enabled it becomes pending with its word, a second one
replaces the first, and it is served only if not masked. When it is the environment's next move between commands, a
step makes it (R250, R315 to R317; decision D33). -/
def Obligations.ConversionIsGatedPendsAndWaitsForTheMask : Prop :=
  ∀ (s : State) (w w' : Word32),
    (s.adc.loopEn = false → irqMove s (.convReady w) = s) ∧
    (s.adc.loopEn = true →
      irqMove s (.convReady w) =
        { s with adc := { s.adc with irqPending := true }, env := { s.env with adcWord := w } } ∧
      irqMove (irqMove s (.convReady w)) (.convReady w') = irqMove s (.convReady w')) ∧
    (s.irqMasked = true ∨ s.adc.irqPending = false → irqMove s .serve = s) ∧
    (s.irqMasked = false → s.adc.irqPending = true →
      irqMove s .serve = takeInterrupt s ∧ (irqMove s .serve).adc.irqPending = false) ∧
    (∀ m rest, s.disp.session = .idle ∨ s.disp.session = .writeReadRequested → s.env.bus.queued = .irq m :: rest →
      step s = .next (irqMove { s with env := { s.env with bus := ⟨rest, s.env.bus.taken + 1⟩ } } m))

/-- The interrupt commutes with every primitive step of a command on the SPI controller and its lines, the EEPROM, the
latches but `HV_EN`, the analog inputs, the maps, the response, the session, the error flag, the rate code and
`adc_inited`, and with every access that is recorded alone, but for the place of its own accesses in the record; the byte
an ASIC answers and the count a conversion yields are the same. So a command resumes exactly where it was (R214, R318;
decision D2). -/
def Obligations.InterruptCommutesWithForegroundDeviceAccesses : Prop :=
  ∀ (s : State) (c : Chip) (m : SpiMode) (a : Nat) (v : Byte) (e : Event) (l : Latch) (b : Bool)
    (src : AnalogSource) (i : Fin Config.nMap) (entry : MapEntry) (d : Word16) (ended : Session),
    (byInterrupt e = false → SameButOrder (takeInterrupt (pinStep e s)) (pinStep e (takeInterrupt s)) ∧
      SameButOrder (takeInterrupt (emit [e] s)) (emit [e] (takeInterrupt s))) ∧
    (asicAnswer c m v (takeInterrupt s)).1 = (asicAnswer c m v s).1 ∧
    takeInterrupt (asicAnswer c m v s).2 = (asicAnswer c m v (takeInterrupt s)).2 ∧
    eeRead a (takeInterrupt s) = eeRead a s ∧
    SameButOrder (takeInterrupt (programByte a v s)) (programByte a v (takeInterrupt s)) ∧
    (l ≠ .hvEn → SameButOrder (takeInterrupt (latchWrite l b s)) (latchWrite l b (takeInterrupt s))) ∧
    (adcSingleShot src (takeInterrupt s)).1 = (adcSingleShot src s).1 ∧
    SameButOrder (takeInterrupt (takeReading src s)) (takeReading src (takeInterrupt s)) ∧
    takeInterrupt (putEntry c i entry s) = putEntry c i entry (takeInterrupt s) ∧
    takeInterrupt (putEntryAddr c i v s) = putEntryAddr c i v (takeInterrupt s) ∧
    takeInterrupt (putEntryData c i d s) = putEntryData c i d (takeInterrupt s) ∧
    takeInterrupt (markLoaded c s) = markLoaded c (takeInterrupt s) ∧
    takeInterrupt (putTx a v s) = putTx a v (takeInterrupt s) ∧
    takeInterrupt (setTxLen a s) = setTxLen a (takeInterrupt s) ∧
    takeInterrupt (clearResponse s) = clearResponse (takeInterrupt s) ∧
    takeInterrupt (setSpiInited s) = setSpiInited (takeInterrupt s) ∧
    takeInterrupt (setMismatch s) = setMismatch (takeInterrupt s) ∧
    takeInterrupt (setSession ended s) = setSession ended (takeInterrupt s) ∧
    takeInterrupt (setErr s) = setErr (takeInterrupt s) ∧
    takeInterrupt (setRateCode v s) = setRateCode v (takeInterrupt s) ∧
    takeInterrupt (setAdcInited s) = setAdcInited (takeInterrupt s)

/-- What a command does with the devices, the buffers, the maps, the rails and the session does not depend on the
interrupt's part of the state nor on when interrupts come: two states with the same foreground part and the same
foreground record lead to the same foreground part and the same foreground accesses. It is said of every command but
the six that look at accumulators or at `HV_EN` (R214, R318, R319; decision D2). -/
def Obligations.InterruptsDoNotReachTheForegroundOfACommand : Prop :=
  ∀ (i : Instr) (s s' t : State),
    (match i with
      | .adcRdavg _ | .adcRdoff _ | .adcRecoff | .hvOn | .hvsafeEn | .hvStat => False
      | _ => True) →
    foregroundPart s = foregroundPart s' → foreground s.env.trace = foreground s'.env.trace →
    exec i s = .next t →
    ∃ t', exec i s' = .next t' ∧ foregroundPart t = foregroundPart t' ∧
      foreground (newEvents s t) = foreground (newEvents s' t')

/-- In a run whose environment is weakly fair to the interrupt (R258 (c), R317), an interrupt that is pending between
two commands is taken, unless the loop is disabled first, which drops the event (R273, R340). The mask does not hold it
up: no critical section is open between commands (R316). That `ADC_STOP` and reset drop the event is decisions D33 and
D37. -/
def Obligations.FairRunsServeEveryPendingInterrupt : Prop :=
  ∀ σ : Nat → State, Run σ → WeaklyFair σ → Inv (σ 0) →
    ∀ n, (σ n).adc.irqPending = true →
      ∃ m, n ≤ m ∧ (InterruptTaken (σ m) (σ (m + 1)) ∨ (σ (m + 1)).adc.loopEn = false)

/-- The interrupt runs between the primitive steps of a command (R9, R86, R317; decision D2): with the loop enabled, the
moves of each window are made where the window stands. Between the two rail writes of `PALL_ON` the moves of the third
window are made; in `HV_SETMAX` a serve in the window inside the critical section waits, while conversions arrive (R316),
and the window behind the section comes after the new threshold. Behind any primitive step with the loop enabled the next
window is taken from the line, or past its end freely. That two windows come before the handler is the model's reading of
R132 (notes/assumptions/7.md). -/
def Obligations.InterruptsRunBetweenTheStepsOfACommand : Prop :=
  ∀ (s : State) (w0 w1 w2 w3 : List IrqMove) (rest : List (List IrqMove)),
    s.adc.loopEn = true → s.env.irq.queued = w0 :: w1 :: w2 :: w3 :: rest →
    let moves : List IrqMove → State → State := fun ms u => ms.foldl irqMove u
    let line : Feed (List IrqMove) := ⟨rest, s.env.irq.taken + 4⟩
    let begun := moves w1 (clearResponse (moves w0 s))
    let rail3v3 : State → State := fun u => emit [.gpio .en3v3 true] { u with gpio := { u.gpio with en3v3 := true } }
    let rail5v : State → State := fun u => emit [.gpio .en5v true] { u with gpio := { u.gpio with en5v := true } }
    exec .pallOn s = .next (endIn .idle (afterMoves w3 line (rail5v (moves w2 (rail3v3 begun))))) ∧
    (∀ uA, s.irqMasked = false →
      let threshold : State → State := fun u => { u with hv := { u.hv with maxUA := uA, maxDelta := deltaOf uA } }
      exec (.hvSetmax uA) s =
        .next (endIn .idle (afterMoves w3 line (threshold (moves (w2.filter (fun m => m != .serve)) begun))))) ∧
    (∀ f : State → State, (f s).adc.loopEn = true →
      let r := (f s).env.irq.take Config.irqWindow
      prim f s = afterMoves r.1 r.2 (f s))
end

