-- ==== Sys2Proof/Laws/Bytes.lean ====
section
/-! SUPPORT. Splitting and joining the fields of a frame. -/

namespace Sys2Proof

/-- High byte and low byte make the word they came from (R82). -/
@[simp] theorem joinBytes_hiByte_loByte (w : Word16) : joinBytes (hiByte w) (loByte w) = w := by
  apply BitVec.eq_of_getLsbD_eq
  intro i hi
  simp only [joinBytes, hiByte, loByte, BitVec.getLsbD_append, BitVec.getLsbD_extractLsb']
  by_cases h : i < 8
  · simp [h]
  · have h1 : 8 + (i - 8) = i := by omega
    have h2 : i - 8 < 8 := by omega
    simp [h, h1, h2]

@[simp] theorem hiByte_joinBytes (hi lo : Byte) : hiByte (joinBytes hi lo) = hi := by
  unfold joinBytes hiByte
  ext i h
  simp
  grind

@[simp] theorem loByte_joinBytes (hi lo : Byte) : loByte (joinBytes hi lo) = lo := by
  unfold joinBytes loByte
  ext i h
  simp
  grind

/-- A chip field survives the chip byte the encoder makes of it (R103). -/
@[simp] theorem chipField_zeroExtend (c : BitVec 2) : chipField (c.zeroExtend 8) = c := by revert c; decide

/-- A channel field survives the channel byte the encoder makes of it (R104). -/
@[simp] theorem channelField_zeroExtend (c : BitVec 4) : channelField (c.zeroExtend 8) = c := by
  revert c; decide

end Sys2Proof
end

