-- ==== Sys2Proof/Laws/State.lean ====
section
/-! SUPPORT. One lemma for each field and each update of the state, true by `rfl`, so that no proof
unfolds a record update. -/

namespace Sys2Proof.Machine

@[simp] theorem emit_disp (evs : List Event) (s : State) : (emit evs s).disp = s.disp := rfl
@[simp] theorem emit_spi (evs : List Event) (s : State) : (emit evs s).spi = s.spi := rfl
@[simp] theorem emit_adc (evs : List Event) (s : State) : (emit evs s).adc = s.adc := rfl
@[simp] theorem emit_gpio (evs : List Event) (s : State) : (emit evs s).gpio = s.gpio := rfl
@[simp] theorem emit_hv (evs : List Event) (s : State) : (emit evs s).hv = s.hv := rfl
@[simp] theorem emit_irqMasked (evs : List Event) (s : State) : (emit evs s).irqMasked = s.irqMasked := rfl
@[simp] theorem emit_params (evs : List Event) (s : State) : (emit evs s).params = s.params := rfl
@[simp] theorem emit_env_ee (evs : List Event) (s : State) : (emit evs s).env.ee = s.env.ee := rfl
@[simp] theorem emit_env_adcWord (evs : List Event) (s : State) :
    (emit evs s).env.adcWord = s.env.adcWord := rfl
@[simp] theorem emit_env_bus (evs : List Event) (s : State) : (emit evs s).env.bus = s.env.bus := rfl
@[simp] theorem emit_env_irq (evs : List Event) (s : State) : (emit evs s).env.irq = s.env.irq := rfl
@[simp] theorem emit_env_miso (evs : List Event) (s : State) : (emit evs s).env.miso = s.env.miso := rfl
@[simp] theorem emit_env_analog (evs : List Event) (s : State) :
    (emit evs s).env.analog = s.env.analog := rfl
@[simp] theorem emit_env_draws (evs : List Event) (s : State) : (emit evs s).env.draws = s.env.draws := rfl
@[simp] theorem emit_env_trace (evs : List Event) (s : State) :
    (emit evs s).env.trace = s.env.trace ++ evs := rfl

@[simp] theorem latchWrite_disp (l : Latch) (b : Bool) (s : State) : (latchWrite l b s).disp = s.disp := rfl
@[simp] theorem latchWrite_spi (l : Latch) (b : Bool) (s : State) : (latchWrite l b s).spi = s.spi := rfl
@[simp] theorem latchWrite_adc (l : Latch) (b : Bool) (s : State) : (latchWrite l b s).adc = s.adc := rfl
@[simp] theorem latchWrite_gpio (l : Latch) (b : Bool) (s : State) :
    (latchWrite l b s).gpio = setLatch l b s.gpio := rfl
@[simp] theorem latchWrite_hv (l : Latch) (b : Bool) (s : State) : (latchWrite l b s).hv = s.hv := rfl
@[simp] theorem latchWrite_irqMasked (l : Latch) (b : Bool) (s : State) :
    (latchWrite l b s).irqMasked = s.irqMasked := rfl
@[simp] theorem latchWrite_params (l : Latch) (b : Bool) (s : State) :
    (latchWrite l b s).params = s.params := rfl
@[simp] theorem latchWrite_env_ee (l : Latch) (b : Bool) (s : State) :
    (latchWrite l b s).env.ee = s.env.ee := rfl
@[simp] theorem latchWrite_env_adcWord (l : Latch) (b : Bool) (s : State) :
    (latchWrite l b s).env.adcWord = s.env.adcWord := rfl
@[simp] theorem latchWrite_env_bus (l : Latch) (b : Bool) (s : State) :
    (latchWrite l b s).env.bus = s.env.bus := rfl
@[simp] theorem latchWrite_env_irq (l : Latch) (b : Bool) (s : State) :
    (latchWrite l b s).env.irq = s.env.irq := rfl
@[simp] theorem latchWrite_env_miso (l : Latch) (b : Bool) (s : State) :
    (latchWrite l b s).env.miso = s.env.miso := rfl
@[simp] theorem latchWrite_env_analog (l : Latch) (b : Bool) (s : State) :
    (latchWrite l b s).env.analog = s.env.analog := rfl
@[simp] theorem latchWrite_env_draws (l : Latch) (b : Bool) (s : State) :
    (latchWrite l b s).env.draws = s.env.draws := rfl
@[simp] theorem latchWrite_env_trace (l : Latch) (b : Bool) (s : State) :
    (latchWrite l b s).env.trace = s.env.trace ++ [.gpio l b] := rfl

@[simp] theorem cutoff_disp (s : State) : (cutoff s).disp = s.disp := rfl
@[simp] theorem cutoff_spi (s : State) : (cutoff s).spi = s.spi := rfl
@[simp] theorem cutoff_adc (s : State) : (cutoff s).adc = s.adc := rfl
@[simp] theorem cutoff_gpio (s : State) : (cutoff s).gpio = { s.gpio with hvEn := false } := rfl
@[simp] theorem cutoff_hv (s : State) : (cutoff s).hv = s.hv := rfl
@[simp] theorem cutoff_irqMasked (s : State) : (cutoff s).irqMasked = s.irqMasked := rfl
@[simp] theorem cutoff_params (s : State) : (cutoff s).params = s.params := rfl
@[simp] theorem cutoff_env_ee (s : State) : (cutoff s).env.ee = s.env.ee := rfl
@[simp] theorem cutoff_env_adcWord (s : State) : (cutoff s).env.adcWord = s.env.adcWord := rfl
@[simp] theorem cutoff_env_bus (s : State) : (cutoff s).env.bus = s.env.bus := rfl
@[simp] theorem cutoff_env_irq (s : State) : (cutoff s).env.irq = s.env.irq := rfl
@[simp] theorem cutoff_env_miso (s : State) : (cutoff s).env.miso = s.env.miso := rfl
@[simp] theorem cutoff_env_analog (s : State) : (cutoff s).env.analog = s.env.analog := rfl
@[simp] theorem cutoff_env_draws (s : State) : (cutoff s).env.draws = s.env.draws := rfl
@[simp] theorem cutoff_env_trace (s : State) : (cutoff s).env.trace = s.env.trace ++ [.isrCutoff] := rfl

@[simp] theorem setAcc_disp (ch : BitVec 4) (a : Acc) (s : State) : (setAcc ch a s).disp = s.disp := rfl
@[simp] theorem setAcc_spi (ch : BitVec 4) (a : Acc) (s : State) : (setAcc ch a s).spi = s.spi := rfl
@[simp] theorem setAcc_adc (ch : BitVec 4) (a : Acc) (s : State) :
    (setAcc ch a s).adc = { s.adc with acc := s.adc.acc.set (channelIndex ch) a } := rfl
@[simp] theorem setAcc_gpio (ch : BitVec 4) (a : Acc) (s : State) : (setAcc ch a s).gpio = s.gpio := rfl
@[simp] theorem setAcc_hv (ch : BitVec 4) (a : Acc) (s : State) : (setAcc ch a s).hv = s.hv := rfl
@[simp] theorem setAcc_irqMasked (ch : BitVec 4) (a : Acc) (s : State) :
    (setAcc ch a s).irqMasked = s.irqMasked := rfl
@[simp] theorem setAcc_params (ch : BitVec 4) (a : Acc) (s : State) :
    (setAcc ch a s).params = s.params := rfl
@[simp] theorem setAcc_env_ee (ch : BitVec 4) (a : Acc) (s : State) :
    (setAcc ch a s).env.ee = s.env.ee := rfl
@[simp] theorem setAcc_env_adcWord (ch : BitVec 4) (a : Acc) (s : State) :
    (setAcc ch a s).env.adcWord = s.env.adcWord := rfl
@[simp] theorem setAcc_env_bus (ch : BitVec 4) (a : Acc) (s : State) :
    (setAcc ch a s).env.bus = s.env.bus := rfl
@[simp] theorem setAcc_env_irq (ch : BitVec 4) (a : Acc) (s : State) :
    (setAcc ch a s).env.irq = s.env.irq := rfl
@[simp] theorem setAcc_env_miso (ch : BitVec 4) (a : Acc) (s : State) :
    (setAcc ch a s).env.miso = s.env.miso := rfl
@[simp] theorem setAcc_env_analog (ch : BitVec 4) (a : Acc) (s : State) :
    (setAcc ch a s).env.analog = s.env.analog := rfl
@[simp] theorem setAcc_env_draws (ch : BitVec 4) (a : Acc) (s : State) :
    (setAcc ch a s).env.draws = s.env.draws := rfl
@[simp] theorem setAcc_env_trace (ch : BitVec 4) (a : Acc) (s : State) :
    (setAcc ch a s).env.trace = s.env.trace := rfl

@[simp] theorem clearPending_disp (s : State) : (clearPending s).disp = s.disp := rfl
@[simp] theorem clearPending_spi (s : State) : (clearPending s).spi = s.spi := rfl
@[simp] theorem clearPending_adc (s : State) :
    (clearPending s).adc = { s.adc with irqPending := false } := rfl
@[simp] theorem clearPending_gpio (s : State) : (clearPending s).gpio = s.gpio := rfl
@[simp] theorem clearPending_hv (s : State) : (clearPending s).hv = s.hv := rfl
@[simp] theorem clearPending_irqMasked (s : State) : (clearPending s).irqMasked = s.irqMasked := rfl
@[simp] theorem clearPending_params (s : State) : (clearPending s).params = s.params := rfl
@[simp] theorem clearPending_env_ee (s : State) : (clearPending s).env.ee = s.env.ee := rfl
@[simp] theorem clearPending_env_adcWord (s : State) : (clearPending s).env.adcWord = s.env.adcWord := rfl
@[simp] theorem clearPending_env_bus (s : State) : (clearPending s).env.bus = s.env.bus := rfl
@[simp] theorem clearPending_env_irq (s : State) : (clearPending s).env.irq = s.env.irq := rfl
@[simp] theorem clearPending_env_miso (s : State) : (clearPending s).env.miso = s.env.miso := rfl
@[simp] theorem clearPending_env_analog (s : State) : (clearPending s).env.analog = s.env.analog := rfl
@[simp] theorem clearPending_env_draws (s : State) : (clearPending s).env.draws = s.env.draws := rfl
@[simp] theorem clearPending_env_trace (s : State) : (clearPending s).env.trace = s.env.trace := rfl

@[simp] theorem setMask_disp (b : Bool) (s : State) : (setMask b s).disp = s.disp := rfl
@[simp] theorem setMask_spi (b : Bool) (s : State) : (setMask b s).spi = s.spi := rfl
@[simp] theorem setMask_adc (b : Bool) (s : State) : (setMask b s).adc = s.adc := rfl
@[simp] theorem setMask_gpio (b : Bool) (s : State) : (setMask b s).gpio = s.gpio := rfl
@[simp] theorem setMask_hv (b : Bool) (s : State) : (setMask b s).hv = s.hv := rfl
@[simp] theorem setMask_irqMasked (b : Bool) (s : State) : (setMask b s).irqMasked = b := rfl
@[simp] theorem setMask_params (b : Bool) (s : State) : (setMask b s).params = s.params := rfl
@[simp] theorem setMask_env_ee (b : Bool) (s : State) : (setMask b s).env.ee = s.env.ee := rfl
@[simp] theorem setMask_env_adcWord (b : Bool) (s : State) :
    (setMask b s).env.adcWord = s.env.adcWord := rfl
@[simp] theorem setMask_env_bus (b : Bool) (s : State) : (setMask b s).env.bus = s.env.bus := rfl
@[simp] theorem setMask_env_irq (b : Bool) (s : State) : (setMask b s).env.irq = s.env.irq := rfl
@[simp] theorem setMask_env_miso (b : Bool) (s : State) : (setMask b s).env.miso = s.env.miso := rfl
@[simp] theorem setMask_env_analog (b : Bool) (s : State) : (setMask b s).env.analog = s.env.analog := rfl
@[simp] theorem setMask_env_draws (b : Bool) (s : State) : (setMask b s).env.draws = s.env.draws := rfl
@[simp] theorem setMask_env_trace (b : Bool) (s : State) : (setMask b s).env.trace = s.env.trace := rfl

@[simp] theorem countDraw_disp (s : State) : (countDraw s).disp = s.disp := rfl
@[simp] theorem countDraw_spi (s : State) : (countDraw s).spi = s.spi := rfl
@[simp] theorem countDraw_adc (s : State) : (countDraw s).adc = s.adc := rfl
@[simp] theorem countDraw_gpio (s : State) : (countDraw s).gpio = s.gpio := rfl
@[simp] theorem countDraw_hv (s : State) : (countDraw s).hv = s.hv := rfl
@[simp] theorem countDraw_irqMasked (s : State) : (countDraw s).irqMasked = s.irqMasked := rfl
@[simp] theorem countDraw_params (s : State) : (countDraw s).params = s.params := rfl
@[simp] theorem countDraw_env_ee (s : State) : (countDraw s).env.ee = s.env.ee := rfl
@[simp] theorem countDraw_env_adcWord (s : State) : (countDraw s).env.adcWord = s.env.adcWord := rfl
@[simp] theorem countDraw_env_bus (s : State) : (countDraw s).env.bus = s.env.bus := rfl
@[simp] theorem countDraw_env_irq (s : State) : (countDraw s).env.irq = s.env.irq := rfl
@[simp] theorem countDraw_env_miso (s : State) : (countDraw s).env.miso = s.env.miso := rfl
@[simp] theorem countDraw_env_analog (s : State) : (countDraw s).env.analog = s.env.analog := rfl
@[simp] theorem countDraw_env_draws (s : State) : (countDraw s).env.draws = s.env.draws + 1 := rfl
@[simp] theorem countDraw_env_trace (s : State) : (countDraw s).env.trace = s.env.trace := rfl

@[simp] theorem programByte_disp (a : Nat) (v : Byte) (s : State) : (programByte a v s).disp = s.disp := rfl
@[simp] theorem programByte_spi (a : Nat) (v : Byte) (s : State) : (programByte a v s).spi = s.spi := rfl
@[simp] theorem programByte_adc (a : Nat) (v : Byte) (s : State) : (programByte a v s).adc = s.adc := rfl
@[simp] theorem programByte_gpio (a : Nat) (v : Byte) (s : State) : (programByte a v s).gpio = s.gpio := rfl
@[simp] theorem programByte_hv (a : Nat) (v : Byte) (s : State) : (programByte a v s).hv = s.hv := rfl
@[simp] theorem programByte_irqMasked (a : Nat) (v : Byte) (s : State) :
    (programByte a v s).irqMasked = s.irqMasked := rfl
@[simp] theorem programByte_params (a : Nat) (v : Byte) (s : State) :
    (programByte a v s).params = s.params := rfl
@[simp] theorem programByte_env_ee (a : Nat) (v : Byte) (s : State) :
    (programByte a v s).env.ee = s.env.ee.write a v := rfl
@[simp] theorem programByte_env_adcWord (a : Nat) (v : Byte) (s : State) :
    (programByte a v s).env.adcWord = s.env.adcWord := rfl
@[simp] theorem programByte_env_bus (a : Nat) (v : Byte) (s : State) :
    (programByte a v s).env.bus = s.env.bus := rfl
@[simp] theorem programByte_env_irq (a : Nat) (v : Byte) (s : State) :
    (programByte a v s).env.irq = s.env.irq := rfl
@[simp] theorem programByte_env_miso (a : Nat) (v : Byte) (s : State) :
    (programByte a v s).env.miso = s.env.miso := rfl
@[simp] theorem programByte_env_analog (a : Nat) (v : Byte) (s : State) :
    (programByte a v s).env.analog = s.env.analog := rfl
@[simp] theorem programByte_env_draws (a : Nat) (v : Byte) (s : State) :
    (programByte a v s).env.draws = s.env.draws := rfl
@[simp] theorem programByte_env_trace (a : Nat) (v : Byte) (s : State) :
    (programByte a v s).env.trace = s.env.trace ++ [.eeProgram a v] := rfl

@[simp] theorem takeReading_disp (src : AnalogSource) (s : State) : (takeReading src s).disp = s.disp := rfl
@[simp] theorem takeReading_spi (src : AnalogSource) (s : State) : (takeReading src s).spi = s.spi := rfl
@[simp] theorem takeReading_adc (src : AnalogSource) (s : State) : (takeReading src s).adc = s.adc := rfl
@[simp] theorem takeReading_gpio (src : AnalogSource) (s : State) : (takeReading src s).gpio = s.gpio := rfl
@[simp] theorem takeReading_hv (src : AnalogSource) (s : State) : (takeReading src s).hv = s.hv := rfl
@[simp] theorem takeReading_irqMasked (src : AnalogSource) (s : State) :
    (takeReading src s).irqMasked = s.irqMasked := rfl
@[simp] theorem takeReading_params (src : AnalogSource) (s : State) :
    (takeReading src s).params = s.params := rfl
@[simp] theorem takeReading_env_ee (src : AnalogSource) (s : State) :
    (takeReading src s).env.ee = s.env.ee := rfl
@[simp] theorem takeReading_env_adcWord (src : AnalogSource) (s : State) :
    (takeReading src s).env.adcWord = s.env.adcWord := rfl
@[simp] theorem takeReading_env_bus (src : AnalogSource) (s : State) :
    (takeReading src s).env.bus = s.env.bus := rfl
@[simp] theorem takeReading_env_irq (src : AnalogSource) (s : State) :
    (takeReading src s).env.irq = s.env.irq := rfl
@[simp] theorem takeReading_env_miso (src : AnalogSource) (s : State) :
    (takeReading src s).env.miso = s.env.miso := rfl
@[simp] theorem takeReading_env_analog (src : AnalogSource) (s : State) :
    (takeReading src s).env.analog = (s.env.analog.take (Config.analogReading src)).2 := rfl
@[simp] theorem takeReading_env_draws (src : AnalogSource) (s : State) :
    (takeReading src s).env.draws = s.env.draws := rfl
@[simp] theorem takeReading_env_trace (src : AnalogSource) (s : State) :
    (takeReading src s).env.trace = s.env.trace ++ [.singleShot src (s.env.analog.take (Config.analogReading src)).1] := rfl

@[simp] theorem putTx_disp (k : Nat) (b : Byte) (s : State) :
    (putTx k b s).disp = { s.disp with tx := s.disp.tx.setIfInBounds k b } := rfl
@[simp] theorem putTx_spi (k : Nat) (b : Byte) (s : State) : (putTx k b s).spi = s.spi := rfl
@[simp] theorem putTx_adc (k : Nat) (b : Byte) (s : State) : (putTx k b s).adc = s.adc := rfl
@[simp] theorem putTx_gpio (k : Nat) (b : Byte) (s : State) : (putTx k b s).gpio = s.gpio := rfl
@[simp] theorem putTx_hv (k : Nat) (b : Byte) (s : State) : (putTx k b s).hv = s.hv := rfl
@[simp] theorem putTx_irqMasked (k : Nat) (b : Byte) (s : State) :
    (putTx k b s).irqMasked = s.irqMasked := rfl
@[simp] theorem putTx_params (k : Nat) (b : Byte) (s : State) : (putTx k b s).params = s.params := rfl
@[simp] theorem putTx_env_ee (k : Nat) (b : Byte) (s : State) : (putTx k b s).env.ee = s.env.ee := rfl
@[simp] theorem putTx_env_adcWord (k : Nat) (b : Byte) (s : State) :
    (putTx k b s).env.adcWord = s.env.adcWord := rfl
@[simp] theorem putTx_env_bus (k : Nat) (b : Byte) (s : State) : (putTx k b s).env.bus = s.env.bus := rfl
@[simp] theorem putTx_env_irq (k : Nat) (b : Byte) (s : State) : (putTx k b s).env.irq = s.env.irq := rfl
@[simp] theorem putTx_env_miso (k : Nat) (b : Byte) (s : State) : (putTx k b s).env.miso = s.env.miso := rfl
@[simp] theorem putTx_env_analog (k : Nat) (b : Byte) (s : State) :
    (putTx k b s).env.analog = s.env.analog := rfl
@[simp] theorem putTx_env_draws (k : Nat) (b : Byte) (s : State) :
    (putTx k b s).env.draws = s.env.draws := rfl
@[simp] theorem putTx_env_trace (k : Nat) (b : Byte) (s : State) :
    (putTx k b s).env.trace = s.env.trace := rfl

@[simp] theorem setTxLen_disp (n : Nat) (s : State) :
    (setTxLen n s).disp = { s.disp with txLen := n } := rfl
@[simp] theorem setTxLen_spi (n : Nat) (s : State) : (setTxLen n s).spi = s.spi := rfl
@[simp] theorem setTxLen_adc (n : Nat) (s : State) : (setTxLen n s).adc = s.adc := rfl
@[simp] theorem setTxLen_gpio (n : Nat) (s : State) : (setTxLen n s).gpio = s.gpio := rfl
@[simp] theorem setTxLen_hv (n : Nat) (s : State) : (setTxLen n s).hv = s.hv := rfl
@[simp] theorem setTxLen_irqMasked (n : Nat) (s : State) : (setTxLen n s).irqMasked = s.irqMasked := rfl
@[simp] theorem setTxLen_params (n : Nat) (s : State) : (setTxLen n s).params = s.params := rfl
@[simp] theorem setTxLen_env_ee (n : Nat) (s : State) : (setTxLen n s).env.ee = s.env.ee := rfl
@[simp] theorem setTxLen_env_adcWord (n : Nat) (s : State) :
    (setTxLen n s).env.adcWord = s.env.adcWord := rfl
@[simp] theorem setTxLen_env_bus (n : Nat) (s : State) : (setTxLen n s).env.bus = s.env.bus := rfl
@[simp] theorem setTxLen_env_irq (n : Nat) (s : State) : (setTxLen n s).env.irq = s.env.irq := rfl
@[simp] theorem setTxLen_env_miso (n : Nat) (s : State) : (setTxLen n s).env.miso = s.env.miso := rfl
@[simp] theorem setTxLen_env_analog (n : Nat) (s : State) : (setTxLen n s).env.analog = s.env.analog := rfl
@[simp] theorem setTxLen_env_draws (n : Nat) (s : State) : (setTxLen n s).env.draws = s.env.draws := rfl
@[simp] theorem setTxLen_env_trace (n : Nat) (s : State) : (setTxLen n s).env.trace = s.env.trace := rfl

@[simp] theorem clearResponse_disp (s : State) : (clearResponse s).disp = { s.disp with txLen := 0 } := rfl
@[simp] theorem clearResponse_spi (s : State) : (clearResponse s).spi = s.spi := rfl
@[simp] theorem clearResponse_adc (s : State) : (clearResponse s).adc = s.adc := rfl
@[simp] theorem clearResponse_gpio (s : State) : (clearResponse s).gpio = s.gpio := rfl
@[simp] theorem clearResponse_hv (s : State) : (clearResponse s).hv = s.hv := rfl
@[simp] theorem clearResponse_irqMasked (s : State) : (clearResponse s).irqMasked = s.irqMasked := rfl
@[simp] theorem clearResponse_params (s : State) : (clearResponse s).params = s.params := rfl
@[simp] theorem clearResponse_env_ee (s : State) : (clearResponse s).env.ee = s.env.ee := rfl
@[simp] theorem clearResponse_env_adcWord (s : State) : (clearResponse s).env.adcWord = s.env.adcWord := rfl
@[simp] theorem clearResponse_env_bus (s : State) : (clearResponse s).env.bus = s.env.bus := rfl
@[simp] theorem clearResponse_env_irq (s : State) : (clearResponse s).env.irq = s.env.irq := rfl
@[simp] theorem clearResponse_env_miso (s : State) : (clearResponse s).env.miso = s.env.miso := rfl
@[simp] theorem clearResponse_env_analog (s : State) : (clearResponse s).env.analog = s.env.analog := rfl
@[simp] theorem clearResponse_env_draws (s : State) : (clearResponse s).env.draws = s.env.draws := rfl
@[simp] theorem clearResponse_env_trace (s : State) : (clearResponse s).env.trace = s.env.trace := rfl

@[simp] theorem setSession_disp (k : Session) (s : State) :
    (setSession k s).disp = { s.disp with session := k } := rfl
@[simp] theorem setSession_spi (k : Session) (s : State) : (setSession k s).spi = s.spi := rfl
@[simp] theorem setSession_adc (k : Session) (s : State) : (setSession k s).adc = s.adc := rfl
@[simp] theorem setSession_gpio (k : Session) (s : State) : (setSession k s).gpio = s.gpio := rfl
@[simp] theorem setSession_hv (k : Session) (s : State) : (setSession k s).hv = s.hv := rfl
@[simp] theorem setSession_irqMasked (k : Session) (s : State) :
    (setSession k s).irqMasked = s.irqMasked := rfl
@[simp] theorem setSession_params (k : Session) (s : State) : (setSession k s).params = s.params := rfl
@[simp] theorem setSession_env_ee (k : Session) (s : State) : (setSession k s).env.ee = s.env.ee := rfl
@[simp] theorem setSession_env_adcWord (k : Session) (s : State) :
    (setSession k s).env.adcWord = s.env.adcWord := rfl
@[simp] theorem setSession_env_bus (k : Session) (s : State) : (setSession k s).env.bus = s.env.bus := rfl
@[simp] theorem setSession_env_irq (k : Session) (s : State) : (setSession k s).env.irq = s.env.irq := rfl
@[simp] theorem setSession_env_miso (k : Session) (s : State) :
    (setSession k s).env.miso = s.env.miso := rfl
@[simp] theorem setSession_env_analog (k : Session) (s : State) :
    (setSession k s).env.analog = s.env.analog := rfl
@[simp] theorem setSession_env_draws (k : Session) (s : State) :
    (setSession k s).env.draws = s.env.draws := rfl
@[simp] theorem setSession_env_trace (k : Session) (s : State) :
    (setSession k s).env.trace = s.env.trace := rfl

@[simp] theorem setErr_disp (s : State) : (setErr s).disp = { s.disp with err := true } := rfl
@[simp] theorem setErr_spi (s : State) : (setErr s).spi = s.spi := rfl
@[simp] theorem setErr_adc (s : State) : (setErr s).adc = s.adc := rfl
@[simp] theorem setErr_gpio (s : State) : (setErr s).gpio = s.gpio := rfl
@[simp] theorem setErr_hv (s : State) : (setErr s).hv = s.hv := rfl
@[simp] theorem setErr_irqMasked (s : State) : (setErr s).irqMasked = s.irqMasked := rfl
@[simp] theorem setErr_params (s : State) : (setErr s).params = s.params := rfl
@[simp] theorem setErr_env_ee (s : State) : (setErr s).env.ee = s.env.ee := rfl
@[simp] theorem setErr_env_adcWord (s : State) : (setErr s).env.adcWord = s.env.adcWord := rfl
@[simp] theorem setErr_env_bus (s : State) : (setErr s).env.bus = s.env.bus := rfl
@[simp] theorem setErr_env_irq (s : State) : (setErr s).env.irq = s.env.irq := rfl
@[simp] theorem setErr_env_miso (s : State) : (setErr s).env.miso = s.env.miso := rfl
@[simp] theorem setErr_env_analog (s : State) : (setErr s).env.analog = s.env.analog := rfl
@[simp] theorem setErr_env_draws (s : State) : (setErr s).env.draws = s.env.draws := rfl
@[simp] theorem setErr_env_trace (s : State) : (setErr s).env.trace = s.env.trace := rfl

@[simp] theorem complete_disp (k : Kind) (s : State) :
    (complete k s).disp = { s.disp with session := sessionAfter k } := rfl
@[simp] theorem complete_spi (k : Kind) (s : State) : (complete k s).spi = s.spi := rfl
@[simp] theorem complete_adc (k : Kind) (s : State) : (complete k s).adc = s.adc := rfl
@[simp] theorem complete_gpio (k : Kind) (s : State) : (complete k s).gpio = s.gpio := rfl
@[simp] theorem complete_hv (k : Kind) (s : State) : (complete k s).hv = s.hv := rfl
@[simp] theorem complete_irqMasked (k : Kind) (s : State) : (complete k s).irqMasked = s.irqMasked := rfl
@[simp] theorem complete_params (k : Kind) (s : State) : (complete k s).params = s.params := rfl
@[simp] theorem complete_env_ee (k : Kind) (s : State) : (complete k s).env.ee = s.env.ee := rfl
@[simp] theorem complete_env_adcWord (k : Kind) (s : State) :
    (complete k s).env.adcWord = s.env.adcWord := rfl
@[simp] theorem complete_env_bus (k : Kind) (s : State) : (complete k s).env.bus = s.env.bus := rfl
@[simp] theorem complete_env_irq (k : Kind) (s : State) : (complete k s).env.irq = s.env.irq := rfl
@[simp] theorem complete_env_miso (k : Kind) (s : State) : (complete k s).env.miso = s.env.miso := rfl
@[simp] theorem complete_env_analog (k : Kind) (s : State) : (complete k s).env.analog = s.env.analog := rfl
@[simp] theorem complete_env_draws (k : Kind) (s : State) : (complete k s).env.draws = s.env.draws := rfl
@[simp] theorem complete_env_trace (k : Kind) (s : State) : (complete k s).env.trace = s.env.trace := rfl

@[simp] theorem pinStep_disp (e : Event) (s : State) : (pinStep e s).disp = s.disp := rfl
@[simp] theorem pinStep_spi (e : Event) (s : State) : (pinStep e s).spi = latchPin s.spi e := rfl
@[simp] theorem pinStep_adc (e : Event) (s : State) : (pinStep e s).adc = s.adc := rfl
@[simp] theorem pinStep_gpio (e : Event) (s : State) : (pinStep e s).gpio = s.gpio := rfl
@[simp] theorem pinStep_hv (e : Event) (s : State) : (pinStep e s).hv = s.hv := rfl
@[simp] theorem pinStep_irqMasked (e : Event) (s : State) : (pinStep e s).irqMasked = s.irqMasked := rfl
@[simp] theorem pinStep_params (e : Event) (s : State) : (pinStep e s).params = s.params := rfl
@[simp] theorem pinStep_env_ee (e : Event) (s : State) : (pinStep e s).env.ee = s.env.ee := rfl
@[simp] theorem pinStep_env_adcWord (e : Event) (s : State) :
    (pinStep e s).env.adcWord = s.env.adcWord := rfl
@[simp] theorem pinStep_env_bus (e : Event) (s : State) : (pinStep e s).env.bus = s.env.bus := rfl
@[simp] theorem pinStep_env_irq (e : Event) (s : State) : (pinStep e s).env.irq = s.env.irq := rfl
@[simp] theorem pinStep_env_miso (e : Event) (s : State) : (pinStep e s).env.miso = s.env.miso := rfl
@[simp] theorem pinStep_env_analog (e : Event) (s : State) : (pinStep e s).env.analog = s.env.analog := rfl
@[simp] theorem pinStep_env_draws (e : Event) (s : State) : (pinStep e s).env.draws = s.env.draws := rfl
@[simp] theorem pinStep_env_trace (e : Event) (s : State) :
    (pinStep e s).env.trace = s.env.trace ++ [e] := rfl

@[simp] theorem setSpiInited_disp (s : State) : (setSpiInited s).disp = s.disp := rfl
@[simp] theorem setSpiInited_spi (s : State) : (setSpiInited s).spi = { s.spi with inited := true } := rfl
@[simp] theorem setSpiInited_adc (s : State) : (setSpiInited s).adc = s.adc := rfl
@[simp] theorem setSpiInited_gpio (s : State) : (setSpiInited s).gpio = s.gpio := rfl
@[simp] theorem setSpiInited_hv (s : State) : (setSpiInited s).hv = s.hv := rfl
@[simp] theorem setSpiInited_irqMasked (s : State) : (setSpiInited s).irqMasked = s.irqMasked := rfl
@[simp] theorem setSpiInited_params (s : State) : (setSpiInited s).params = s.params := rfl
@[simp] theorem setSpiInited_env_ee (s : State) : (setSpiInited s).env.ee = s.env.ee := rfl
@[simp] theorem setSpiInited_env_adcWord (s : State) : (setSpiInited s).env.adcWord = s.env.adcWord := rfl
@[simp] theorem setSpiInited_env_bus (s : State) : (setSpiInited s).env.bus = s.env.bus := rfl
@[simp] theorem setSpiInited_env_irq (s : State) : (setSpiInited s).env.irq = s.env.irq := rfl
@[simp] theorem setSpiInited_env_miso (s : State) : (setSpiInited s).env.miso = s.env.miso := rfl
@[simp] theorem setSpiInited_env_analog (s : State) : (setSpiInited s).env.analog = s.env.analog := rfl
@[simp] theorem setSpiInited_env_draws (s : State) : (setSpiInited s).env.draws = s.env.draws := rfl
@[simp] theorem setSpiInited_env_trace (s : State) : (setSpiInited s).env.trace = s.env.trace := rfl

@[simp] theorem setMismatch_disp (s : State) : (setMismatch s).disp = s.disp := rfl
@[simp] theorem setMismatch_spi (s : State) : (setMismatch s).spi = { s.spi with mismatch := true } := rfl
@[simp] theorem setMismatch_adc (s : State) : (setMismatch s).adc = s.adc := rfl
@[simp] theorem setMismatch_gpio (s : State) : (setMismatch s).gpio = s.gpio := rfl
@[simp] theorem setMismatch_hv (s : State) : (setMismatch s).hv = s.hv := rfl
@[simp] theorem setMismatch_irqMasked (s : State) : (setMismatch s).irqMasked = s.irqMasked := rfl
@[simp] theorem setMismatch_params (s : State) : (setMismatch s).params = s.params := rfl
@[simp] theorem setMismatch_env_ee (s : State) : (setMismatch s).env.ee = s.env.ee := rfl
@[simp] theorem setMismatch_env_adcWord (s : State) : (setMismatch s).env.adcWord = s.env.adcWord := rfl
@[simp] theorem setMismatch_env_bus (s : State) : (setMismatch s).env.bus = s.env.bus := rfl
@[simp] theorem setMismatch_env_irq (s : State) : (setMismatch s).env.irq = s.env.irq := rfl
@[simp] theorem setMismatch_env_miso (s : State) : (setMismatch s).env.miso = s.env.miso := rfl
@[simp] theorem setMismatch_env_analog (s : State) : (setMismatch s).env.analog = s.env.analog := rfl
@[simp] theorem setMismatch_env_draws (s : State) : (setMismatch s).env.draws = s.env.draws := rfl
@[simp] theorem setMismatch_env_trace (s : State) : (setMismatch s).env.trace = s.env.trace := rfl

@[simp] theorem asicAnswer_disp (c : Chip) (m : SpiMode) (out : Byte) (s : State) :
    ((asicAnswer c m out s).2).disp = s.disp := rfl
@[simp] theorem asicAnswer_spi (c : Chip) (m : SpiMode) (out : Byte) (s : State) :
    ((asicAnswer c m out s).2).spi = s.spi := rfl
@[simp] theorem asicAnswer_adc (c : Chip) (m : SpiMode) (out : Byte) (s : State) :
    ((asicAnswer c m out s).2).adc = s.adc := rfl
@[simp] theorem asicAnswer_gpio (c : Chip) (m : SpiMode) (out : Byte) (s : State) :
    ((asicAnswer c m out s).2).gpio = s.gpio := rfl
@[simp] theorem asicAnswer_hv (c : Chip) (m : SpiMode) (out : Byte) (s : State) :
    ((asicAnswer c m out s).2).hv = s.hv := rfl
@[simp] theorem asicAnswer_irqMasked (c : Chip) (m : SpiMode) (out : Byte) (s : State) :
    ((asicAnswer c m out s).2).irqMasked = s.irqMasked := rfl
@[simp] theorem asicAnswer_params (c : Chip) (m : SpiMode) (out : Byte) (s : State) :
    ((asicAnswer c m out s).2).params = s.params := rfl
@[simp] theorem asicAnswer_env_ee (c : Chip) (m : SpiMode) (out : Byte) (s : State) :
    ((asicAnswer c m out s).2).env.ee = s.env.ee := rfl
@[simp] theorem asicAnswer_env_adcWord (c : Chip) (m : SpiMode) (out : Byte) (s : State) :
    ((asicAnswer c m out s).2).env.adcWord = s.env.adcWord := rfl
@[simp] theorem asicAnswer_env_bus (c : Chip) (m : SpiMode) (out : Byte) (s : State) :
    ((asicAnswer c m out s).2).env.bus = s.env.bus := rfl
@[simp] theorem asicAnswer_env_irq (c : Chip) (m : SpiMode) (out : Byte) (s : State) :
    ((asicAnswer c m out s).2).env.irq = s.env.irq := rfl
@[simp] theorem asicAnswer_env_miso (c : Chip) (m : SpiMode) (out : Byte) (s : State) :
    ((asicAnswer c m out s).2).env.miso = (s.env.miso.take (fun _ => Config.asicAnswer c (pinHistory s) m out)).2 := rfl
@[simp] theorem asicAnswer_env_analog (c : Chip) (m : SpiMode) (out : Byte) (s : State) :
    ((asicAnswer c m out s).2).env.analog = s.env.analog := rfl
@[simp] theorem asicAnswer_env_draws (c : Chip) (m : SpiMode) (out : Byte) (s : State) :
    ((asicAnswer c m out s).2).env.draws = s.env.draws := rfl
@[simp] theorem asicAnswer_env_trace (c : Chip) (m : SpiMode) (out : Byte) (s : State) :
    ((asicAnswer c m out s).2).env.trace = s.env.trace := rfl

@[simp] theorem putEntry_disp (c : Chip) (i : Fin Config.nMap) (e : MapEntry) (s : State) :
    (putEntry c i e s).disp = { s.disp with map := s.disp.map.put c ((s.disp.map.get c).set i e) } := rfl
@[simp] theorem putEntry_spi (c : Chip) (i : Fin Config.nMap) (e : MapEntry) (s : State) :
    (putEntry c i e s).spi = s.spi := rfl
@[simp] theorem putEntry_adc (c : Chip) (i : Fin Config.nMap) (e : MapEntry) (s : State) :
    (putEntry c i e s).adc = s.adc := rfl
@[simp] theorem putEntry_gpio (c : Chip) (i : Fin Config.nMap) (e : MapEntry) (s : State) :
    (putEntry c i e s).gpio = s.gpio := rfl
@[simp] theorem putEntry_hv (c : Chip) (i : Fin Config.nMap) (e : MapEntry) (s : State) :
    (putEntry c i e s).hv = s.hv := rfl
@[simp] theorem putEntry_irqMasked (c : Chip) (i : Fin Config.nMap) (e : MapEntry) (s : State) :
    (putEntry c i e s).irqMasked = s.irqMasked := rfl
@[simp] theorem putEntry_params (c : Chip) (i : Fin Config.nMap) (e : MapEntry) (s : State) :
    (putEntry c i e s).params = s.params := rfl
@[simp] theorem putEntry_env_ee (c : Chip) (i : Fin Config.nMap) (e : MapEntry) (s : State) :
    (putEntry c i e s).env.ee = s.env.ee := rfl
@[simp] theorem putEntry_env_adcWord (c : Chip) (i : Fin Config.nMap) (e : MapEntry) (s : State) :
    (putEntry c i e s).env.adcWord = s.env.adcWord := rfl
@[simp] theorem putEntry_env_bus (c : Chip) (i : Fin Config.nMap) (e : MapEntry) (s : State) :
    (putEntry c i e s).env.bus = s.env.bus := rfl
@[simp] theorem putEntry_env_irq (c : Chip) (i : Fin Config.nMap) (e : MapEntry) (s : State) :
    (putEntry c i e s).env.irq = s.env.irq := rfl
@[simp] theorem putEntry_env_miso (c : Chip) (i : Fin Config.nMap) (e : MapEntry) (s : State) :
    (putEntry c i e s).env.miso = s.env.miso := rfl
@[simp] theorem putEntry_env_analog (c : Chip) (i : Fin Config.nMap) (e : MapEntry) (s : State) :
    (putEntry c i e s).env.analog = s.env.analog := rfl
@[simp] theorem putEntry_env_draws (c : Chip) (i : Fin Config.nMap) (e : MapEntry) (s : State) :
    (putEntry c i e s).env.draws = s.env.draws := rfl
@[simp] theorem putEntry_env_trace (c : Chip) (i : Fin Config.nMap) (e : MapEntry) (s : State) :
    (putEntry c i e s).env.trace = s.env.trace := rfl

@[simp] theorem markLoaded_disp (c : Chip) (s : State) :
    (markLoaded c s).disp = { s.disp with mapLoaded := s.disp.mapLoaded.put c true } := rfl
@[simp] theorem markLoaded_spi (c : Chip) (s : State) : (markLoaded c s).spi = s.spi := rfl
@[simp] theorem markLoaded_adc (c : Chip) (s : State) : (markLoaded c s).adc = s.adc := rfl
@[simp] theorem markLoaded_gpio (c : Chip) (s : State) : (markLoaded c s).gpio = s.gpio := rfl
@[simp] theorem markLoaded_hv (c : Chip) (s : State) : (markLoaded c s).hv = s.hv := rfl
@[simp] theorem markLoaded_irqMasked (c : Chip) (s : State) :
    (markLoaded c s).irqMasked = s.irqMasked := rfl
@[simp] theorem markLoaded_params (c : Chip) (s : State) : (markLoaded c s).params = s.params := rfl
@[simp] theorem markLoaded_env_ee (c : Chip) (s : State) : (markLoaded c s).env.ee = s.env.ee := rfl
@[simp] theorem markLoaded_env_adcWord (c : Chip) (s : State) :
    (markLoaded c s).env.adcWord = s.env.adcWord := rfl
@[simp] theorem markLoaded_env_bus (c : Chip) (s : State) : (markLoaded c s).env.bus = s.env.bus := rfl
@[simp] theorem markLoaded_env_irq (c : Chip) (s : State) : (markLoaded c s).env.irq = s.env.irq := rfl
@[simp] theorem markLoaded_env_miso (c : Chip) (s : State) : (markLoaded c s).env.miso = s.env.miso := rfl
@[simp] theorem markLoaded_env_analog (c : Chip) (s : State) :
    (markLoaded c s).env.analog = s.env.analog := rfl
@[simp] theorem markLoaded_env_draws (c : Chip) (s : State) :
    (markLoaded c s).env.draws = s.env.draws := rfl
@[simp] theorem markLoaded_env_trace (c : Chip) (s : State) :
    (markLoaded c s).env.trace = s.env.trace := rfl

@[simp] theorem setRateCode_disp (code : Byte) (s : State) : (setRateCode code s).disp = s.disp := rfl
@[simp] theorem setRateCode_spi (code : Byte) (s : State) : (setRateCode code s).spi = s.spi := rfl
@[simp] theorem setRateCode_adc (code : Byte) (s : State) :
    (setRateCode code s).adc = { s.adc with rateCode := code.extractLsb' 0 3 } := rfl
@[simp] theorem setRateCode_gpio (code : Byte) (s : State) : (setRateCode code s).gpio = s.gpio := rfl
@[simp] theorem setRateCode_hv (code : Byte) (s : State) : (setRateCode code s).hv = s.hv := rfl
@[simp] theorem setRateCode_irqMasked (code : Byte) (s : State) :
    (setRateCode code s).irqMasked = s.irqMasked := rfl
@[simp] theorem setRateCode_params (code : Byte) (s : State) : (setRateCode code s).params = s.params := rfl
@[simp] theorem setRateCode_env_ee (code : Byte) (s : State) : (setRateCode code s).env.ee = s.env.ee := rfl
@[simp] theorem setRateCode_env_adcWord (code : Byte) (s : State) :
    (setRateCode code s).env.adcWord = s.env.adcWord := rfl
@[simp] theorem setRateCode_env_bus (code : Byte) (s : State) :
    (setRateCode code s).env.bus = s.env.bus := rfl
@[simp] theorem setRateCode_env_irq (code : Byte) (s : State) :
    (setRateCode code s).env.irq = s.env.irq := rfl
@[simp] theorem setRateCode_env_miso (code : Byte) (s : State) :
    (setRateCode code s).env.miso = s.env.miso := rfl
@[simp] theorem setRateCode_env_analog (code : Byte) (s : State) :
    (setRateCode code s).env.analog = s.env.analog := rfl
@[simp] theorem setRateCode_env_draws (code : Byte) (s : State) :
    (setRateCode code s).env.draws = s.env.draws := rfl
@[simp] theorem setRateCode_env_trace (code : Byte) (s : State) :
    (setRateCode code s).env.trace = s.env.trace := rfl

@[simp] theorem setAdcInited_disp (s : State) : (setAdcInited s).disp = s.disp := rfl
@[simp] theorem setAdcInited_spi (s : State) : (setAdcInited s).spi = s.spi := rfl
@[simp] theorem setAdcInited_adc (s : State) : (setAdcInited s).adc = { s.adc with inited := true } := rfl
@[simp] theorem setAdcInited_gpio (s : State) : (setAdcInited s).gpio = s.gpio := rfl
@[simp] theorem setAdcInited_hv (s : State) : (setAdcInited s).hv = s.hv := rfl
@[simp] theorem setAdcInited_irqMasked (s : State) : (setAdcInited s).irqMasked = s.irqMasked := rfl
@[simp] theorem setAdcInited_params (s : State) : (setAdcInited s).params = s.params := rfl
@[simp] theorem setAdcInited_env_ee (s : State) : (setAdcInited s).env.ee = s.env.ee := rfl
@[simp] theorem setAdcInited_env_adcWord (s : State) : (setAdcInited s).env.adcWord = s.env.adcWord := rfl
@[simp] theorem setAdcInited_env_bus (s : State) : (setAdcInited s).env.bus = s.env.bus := rfl
@[simp] theorem setAdcInited_env_irq (s : State) : (setAdcInited s).env.irq = s.env.irq := rfl
@[simp] theorem setAdcInited_env_miso (s : State) : (setAdcInited s).env.miso = s.env.miso := rfl
@[simp] theorem setAdcInited_env_analog (s : State) : (setAdcInited s).env.analog = s.env.analog := rfl
@[simp] theorem setAdcInited_env_draws (s : State) : (setAdcInited s).env.draws = s.env.draws := rfl
@[simp] theorem setAdcInited_env_trace (s : State) : (setAdcInited s).env.trace = s.env.trace := rfl

@[simp] theorem setLoopEn_disp (s : State) : (setLoopEn s).disp = s.disp := rfl
@[simp] theorem setLoopEn_spi (s : State) : (setLoopEn s).spi = s.spi := rfl
@[simp] theorem setLoopEn_adc (s : State) : (setLoopEn s).adc = { s.adc with loopEn := true } := rfl
@[simp] theorem setLoopEn_gpio (s : State) : (setLoopEn s).gpio = s.gpio := rfl
@[simp] theorem setLoopEn_hv (s : State) : (setLoopEn s).hv = s.hv := rfl
@[simp] theorem setLoopEn_irqMasked (s : State) : (setLoopEn s).irqMasked = s.irqMasked := rfl
@[simp] theorem setLoopEn_params (s : State) : (setLoopEn s).params = s.params := rfl
@[simp] theorem setLoopEn_env_ee (s : State) : (setLoopEn s).env.ee = s.env.ee := rfl
@[simp] theorem setLoopEn_env_adcWord (s : State) : (setLoopEn s).env.adcWord = s.env.adcWord := rfl
@[simp] theorem setLoopEn_env_bus (s : State) : (setLoopEn s).env.bus = s.env.bus := rfl
@[simp] theorem setLoopEn_env_irq (s : State) : (setLoopEn s).env.irq = s.env.irq := rfl
@[simp] theorem setLoopEn_env_miso (s : State) : (setLoopEn s).env.miso = s.env.miso := rfl
@[simp] theorem setLoopEn_env_analog (s : State) : (setLoopEn s).env.analog = s.env.analog := rfl
@[simp] theorem setLoopEn_env_draws (s : State) : (setLoopEn s).env.draws = s.env.draws := rfl
@[simp] theorem setLoopEn_env_trace (s : State) : (setLoopEn s).env.trace = s.env.trace := rfl

@[simp] theorem clearLoop_disp (s : State) : (clearLoop s).disp = s.disp := rfl
@[simp] theorem clearLoop_spi (s : State) : (clearLoop s).spi = s.spi := rfl
@[simp] theorem clearLoop_adc (s : State) :
    (clearLoop s).adc = { s.adc with loopEn := false, irqPending := false } := rfl
@[simp] theorem clearLoop_gpio (s : State) : (clearLoop s).gpio = s.gpio := rfl
@[simp] theorem clearLoop_hv (s : State) : (clearLoop s).hv = s.hv := rfl
@[simp] theorem clearLoop_irqMasked (s : State) : (clearLoop s).irqMasked = s.irqMasked := rfl
@[simp] theorem clearLoop_params (s : State) : (clearLoop s).params = s.params := rfl
@[simp] theorem clearLoop_env_ee (s : State) : (clearLoop s).env.ee = s.env.ee := rfl
@[simp] theorem clearLoop_env_adcWord (s : State) : (clearLoop s).env.adcWord = s.env.adcWord := rfl
@[simp] theorem clearLoop_env_bus (s : State) : (clearLoop s).env.bus = s.env.bus := rfl
@[simp] theorem clearLoop_env_irq (s : State) : (clearLoop s).env.irq = s.env.irq := rfl
@[simp] theorem clearLoop_env_miso (s : State) : (clearLoop s).env.miso = s.env.miso := rfl
@[simp] theorem clearLoop_env_analog (s : State) : (clearLoop s).env.analog = s.env.analog := rfl
@[simp] theorem clearLoop_env_draws (s : State) : (clearLoop s).env.draws = s.env.draws := rfl
@[simp] theorem clearLoop_env_trace (s : State) : (clearLoop s).env.trace = s.env.trace := rfl

@[simp] theorem setOffsetValid_disp (s : State) : (setOffsetValid s).disp = s.disp := rfl
@[simp] theorem setOffsetValid_spi (s : State) : (setOffsetValid s).spi = s.spi := rfl
@[simp] theorem setOffsetValid_adc (s : State) : (setOffsetValid s).adc = s.adc := rfl
@[simp] theorem setOffsetValid_gpio (s : State) : (setOffsetValid s).gpio = s.gpio := rfl
@[simp] theorem setOffsetValid_hv (s : State) :
    (setOffsetValid s).hv = { s.hv with offsetValid := true } := rfl
@[simp] theorem setOffsetValid_irqMasked (s : State) : (setOffsetValid s).irqMasked = s.irqMasked := rfl
@[simp] theorem setOffsetValid_params (s : State) : (setOffsetValid s).params = s.params := rfl
@[simp] theorem setOffsetValid_env_ee (s : State) : (setOffsetValid s).env.ee = s.env.ee := rfl
@[simp] theorem setOffsetValid_env_adcWord (s : State) :
    (setOffsetValid s).env.adcWord = s.env.adcWord := rfl
@[simp] theorem setOffsetValid_env_bus (s : State) : (setOffsetValid s).env.bus = s.env.bus := rfl
@[simp] theorem setOffsetValid_env_irq (s : State) : (setOffsetValid s).env.irq = s.env.irq := rfl
@[simp] theorem setOffsetValid_env_miso (s : State) : (setOffsetValid s).env.miso = s.env.miso := rfl
@[simp] theorem setOffsetValid_env_analog (s : State) : (setOffsetValid s).env.analog = s.env.analog := rfl
@[simp] theorem setOffsetValid_env_draws (s : State) : (setOffsetValid s).env.draws = s.env.draws := rfl
@[simp] theorem setOffsetValid_env_trace (s : State) : (setOffsetValid s).env.trace = s.env.trace := rfl

@[simp] theorem setSafetyEn_disp (s : State) : (setSafetyEn s).disp = s.disp := rfl
@[simp] theorem setSafetyEn_spi (s : State) : (setSafetyEn s).spi = s.spi := rfl
@[simp] theorem setSafetyEn_adc (s : State) : (setSafetyEn s).adc = s.adc := rfl
@[simp] theorem setSafetyEn_gpio (s : State) : (setSafetyEn s).gpio = s.gpio := rfl
@[simp] theorem setSafetyEn_hv (s : State) : (setSafetyEn s).hv = { s.hv with safetyEn := true } := rfl
@[simp] theorem setSafetyEn_irqMasked (s : State) : (setSafetyEn s).irqMasked = s.irqMasked := rfl
@[simp] theorem setSafetyEn_params (s : State) : (setSafetyEn s).params = s.params := rfl
@[simp] theorem setSafetyEn_env_ee (s : State) : (setSafetyEn s).env.ee = s.env.ee := rfl
@[simp] theorem setSafetyEn_env_adcWord (s : State) : (setSafetyEn s).env.adcWord = s.env.adcWord := rfl
@[simp] theorem setSafetyEn_env_bus (s : State) : (setSafetyEn s).env.bus = s.env.bus := rfl
@[simp] theorem setSafetyEn_env_irq (s : State) : (setSafetyEn s).env.irq = s.env.irq := rfl
@[simp] theorem setSafetyEn_env_miso (s : State) : (setSafetyEn s).env.miso = s.env.miso := rfl
@[simp] theorem setSafetyEn_env_analog (s : State) : (setSafetyEn s).env.analog = s.env.analog := rfl
@[simp] theorem setSafetyEn_env_draws (s : State) : (setSafetyEn s).env.draws = s.env.draws := rfl
@[simp] theorem setSafetyEn_env_trace (s : State) : (setSafetyEn s).env.trace = s.env.trace := rfl

@[simp] theorem putMaxCurrent_disp (uA : Word16) (s : State) : (putMaxCurrent uA s).disp = s.disp := rfl
@[simp] theorem putMaxCurrent_spi (uA : Word16) (s : State) : (putMaxCurrent uA s).spi = s.spi := rfl
@[simp] theorem putMaxCurrent_adc (uA : Word16) (s : State) : (putMaxCurrent uA s).adc = s.adc := rfl
@[simp] theorem putMaxCurrent_gpio (uA : Word16) (s : State) : (putMaxCurrent uA s).gpio = s.gpio := rfl
@[simp] theorem putMaxCurrent_hv (uA : Word16) (s : State) :
    (putMaxCurrent uA s).hv = { s.hv with maxUA := uA, maxDelta := deltaOf uA } := rfl
@[simp] theorem putMaxCurrent_irqMasked (uA : Word16) (s : State) :
    (putMaxCurrent uA s).irqMasked = s.irqMasked := rfl
@[simp] theorem putMaxCurrent_params (uA : Word16) (s : State) :
    (putMaxCurrent uA s).params = s.params := rfl
@[simp] theorem putMaxCurrent_env_ee (uA : Word16) (s : State) :
    (putMaxCurrent uA s).env.ee = s.env.ee := rfl
@[simp] theorem putMaxCurrent_env_adcWord (uA : Word16) (s : State) :
    (putMaxCurrent uA s).env.adcWord = s.env.adcWord := rfl
@[simp] theorem putMaxCurrent_env_bus (uA : Word16) (s : State) :
    (putMaxCurrent uA s).env.bus = s.env.bus := rfl
@[simp] theorem putMaxCurrent_env_irq (uA : Word16) (s : State) :
    (putMaxCurrent uA s).env.irq = s.env.irq := rfl
@[simp] theorem putMaxCurrent_env_miso (uA : Word16) (s : State) :
    (putMaxCurrent uA s).env.miso = s.env.miso := rfl
@[simp] theorem putMaxCurrent_env_analog (uA : Word16) (s : State) :
    (putMaxCurrent uA s).env.analog = s.env.analog := rfl
@[simp] theorem putMaxCurrent_env_draws (uA : Word16) (s : State) :
    (putMaxCurrent uA s).env.draws = s.env.draws := rfl
@[simp] theorem putMaxCurrent_env_trace (uA : Word16) (s : State) :
    (putMaxCurrent uA s).env.trace = s.env.trace := rfl

@[simp] theorem setLatch_led_led (b : Bool) (g : Gpio) : (setLatch .led b g).led = b := rfl
@[simp] theorem setLatch_led_en3v3 (b : Bool) (g : Gpio) : (setLatch .led b g).en3v3 = g.en3v3 := rfl
@[simp] theorem setLatch_led_en5v (b : Bool) (g : Gpio) : (setLatch .led b g).en5v = g.en5v := rfl
@[simp] theorem setLatch_led_hvEn (b : Bool) (g : Gpio) : (setLatch .led b g).hvEn = g.hvEn := rfl
@[simp] theorem setLatch_en3v3_led (b : Bool) (g : Gpio) : (setLatch .en3v3 b g).led = g.led := rfl
@[simp] theorem setLatch_en3v3_en3v3 (b : Bool) (g : Gpio) : (setLatch .en3v3 b g).en3v3 = b := rfl
@[simp] theorem setLatch_en3v3_en5v (b : Bool) (g : Gpio) : (setLatch .en3v3 b g).en5v = g.en5v := rfl
@[simp] theorem setLatch_en3v3_hvEn (b : Bool) (g : Gpio) : (setLatch .en3v3 b g).hvEn = g.hvEn := rfl
@[simp] theorem setLatch_en5v_led (b : Bool) (g : Gpio) : (setLatch .en5v b g).led = g.led := rfl
@[simp] theorem setLatch_en5v_en3v3 (b : Bool) (g : Gpio) : (setLatch .en5v b g).en3v3 = g.en3v3 := rfl
@[simp] theorem setLatch_en5v_en5v (b : Bool) (g : Gpio) : (setLatch .en5v b g).en5v = b := rfl
@[simp] theorem setLatch_en5v_hvEn (b : Bool) (g : Gpio) : (setLatch .en5v b g).hvEn = g.hvEn := rfl
@[simp] theorem setLatch_hvEn_led (b : Bool) (g : Gpio) : (setLatch .hvEn b g).led = g.led := rfl
@[simp] theorem setLatch_hvEn_en3v3 (b : Bool) (g : Gpio) : (setLatch .hvEn b g).en3v3 = g.en3v3 := rfl
@[simp] theorem setLatch_hvEn_en5v (b : Bool) (g : Gpio) : (setLatch .hvEn b g).en5v = g.en5v := rfl
@[simp] theorem setLatch_hvEn_hvEn (b : Bool) (g : Gpio) : (setLatch .hvEn b g).hvEn = b := rfl

@[simp] theorem PerChip.get_put_same {α : Type} (p : PerChip α) (c : Chip) (v : α) :
    (p.put c v).get c = v := by cases c <;> rfl

theorem PerChip.get_put_other {α : Type} (p : PerChip α) {c d : Chip} (v : α) (h : d ≠ c) :
    (p.put c v).get d = p.get d := by cases c <;> cases d <;> first | rfl | exact absurd rfl h

@[simp] theorem accOf_setAcc_same (ch : BitVec 4) (a : Acc) (s : State) : accOf (setAcc ch a s) ch = a := by
  simp [accOf, Vector.get_eq_getElem]

theorem accOf_setAcc_other {ch d : BitVec 4} (a : Acc) (s : State) (h : d ≠ ch) :
    accOf (setAcc ch a s) d = accOf s d := by
  have : (channelIndex ch).val ≠ (channelIndex d).val := by
    simp only [channelIndex, BitVec.val_toFin]
    exact fun e => h (BitVec.eq_of_toNat_eq e.symm)
  simp [accOf, Vector.get_eq_getElem, this]

/-- The accumulator read depends only on the accumulator file. -/
theorem accOf_congr {s t : State} (h : t.adc.acc = s.adc.acc) (ch : BitVec 4) : accOf t ch = accOf s ch := by
  simp only [accOf, h]

/-- Two accumulator files with equal channels are equal. -/
theorem acc_ext {s t : State} (h : ∀ ch, accOf t ch = accOf s ch) : t.adc.acc = s.adc.acc := by
  ext1 i hi
  have := h (BitVec.ofNat 4 i)
  simpa [accOf, channelIndex, Vector.get_eq_getElem, Nat.mod_eq_of_lt (show i < 16 from hi)] using this

/-! The projections of the record, by event. -/

@[simp] theorem byInterrupt_gpio (l : Latch) (b : Bool) : byInterrupt (.gpio l b) = false := rfl
@[simp] theorem byInterrupt_csN (c : Chip) (b : Bool) : byInterrupt (.csN c b) = false := rfl
@[simp] theorem byInterrupt_sclk (b : Bool) : byInterrupt (.sclk b) = false := rfl
@[simp] theorem byInterrupt_mosi (b : Bool) : byInterrupt (.mosi b) = false := rfl
@[simp] theorem byInterrupt_sample (b : Bool) : byInterrupt (.sample b) = false := rfl
@[simp] theorem byInterrupt_xfer (m : SpiMode) (x y : Byte) : byInterrupt (.xfer m x y) = false := rfl
@[simp] theorem byInterrupt_setMode (m : SpiMode) : byInterrupt (.setMode m) = false := rfl
@[simp] theorem byInterrupt_delay (n : Nat) : byInterrupt (.delay n) = false := rfl
@[simp] theorem byInterrupt_eeRead (a : Nat) (v : Byte) : byInterrupt (.eeRead a v) = false := rfl
@[simp] theorem byInterrupt_eeProgram (a : Nat) (v : Byte) : byInterrupt (.eeProgram a v) = false := rfl
@[simp] theorem byInterrupt_singleShot (src : AnalogSource) (w : Word16) : byInterrupt (.singleShot src w) = false := rfl
@[simp] theorem byInterrupt_debugMap (c : Chip) (l : List MapEntry) : byInterrupt (.debugMap c l) = false := rfl
@[simp] theorem byInterrupt_debugMismatch (c : Chip) (a : Byte) (w r : Word16) : byInterrupt (.debugMismatch c a w r) = false := rfl
@[simp] theorem byInterrupt_adcSetRate (k : Byte) : byInterrupt (.adcSetRate k) = false := rfl
@[simp] theorem byInterrupt_adcInit : byInterrupt .adcInit = false := rfl
@[simp] theorem byInterrupt_response (l : List Byte) : byInterrupt (.response l) = false := rfl
@[simp] theorem byInterrupt_isrReadWord (w : Word32) : byInterrupt (.isrReadWord w) = true := rfl
@[simp] theorem byInterrupt_isrCutoff : byInterrupt .isrCutoff = true := rfl

@[simp] theorem byteLevel_gpio (l : Latch) (b : Bool) : byteLevel (.gpio l b) = true := rfl
@[simp] theorem byteLevel_csN (c : Chip) (b : Bool) : byteLevel (.csN c b) = true := rfl
@[simp] theorem byteLevel_sclk (b : Bool) : byteLevel (.sclk b) = false := rfl
@[simp] theorem byteLevel_mosi (b : Bool) : byteLevel (.mosi b) = false := rfl
@[simp] theorem byteLevel_sample (b : Bool) : byteLevel (.sample b) = false := rfl
@[simp] theorem byteLevel_xfer (m : SpiMode) (x y : Byte) : byteLevel (.xfer m x y) = true := rfl
@[simp] theorem byteLevel_setMode (m : SpiMode) : byteLevel (.setMode m) = true := rfl
@[simp] theorem byteLevel_delay (n : Nat) : byteLevel (.delay n) = true := rfl
@[simp] theorem byteLevel_eeRead (a : Nat) (v : Byte) : byteLevel (.eeRead a v) = true := rfl
@[simp] theorem byteLevel_eeProgram (a : Nat) (v : Byte) : byteLevel (.eeProgram a v) = true := rfl
@[simp] theorem byteLevel_singleShot (src : AnalogSource) (w : Word16) : byteLevel (.singleShot src w) = true := rfl
@[simp] theorem byteLevel_debugMap (c : Chip) (l : List MapEntry) : byteLevel (.debugMap c l) = true := rfl
@[simp] theorem byteLevel_debugMismatch (c : Chip) (a : Byte) (w r : Word16) : byteLevel (.debugMismatch c a w r) = true := rfl
@[simp] theorem byteLevel_adcSetRate (k : Byte) : byteLevel (.adcSetRate k) = true := rfl
@[simp] theorem byteLevel_adcInit : byteLevel .adcInit = true := rfl
@[simp] theorem byteLevel_response (l : List Byte) : byteLevel (.response l) = true := rfl
@[simp] theorem byteLevel_isrReadWord (w : Word32) : byteLevel (.isrReadWord w) = true := rfl
@[simp] theorem byteLevel_isrCutoff : byteLevel .isrCutoff = true := rfl

@[simp] theorem onPins_gpio (l : Latch) (b : Bool) : onPins (.gpio l b) = false := rfl
@[simp] theorem onPins_csN (c : Chip) (b : Bool) : onPins (.csN c b) = true := rfl
@[simp] theorem onPins_sclk (b : Bool) : onPins (.sclk b) = true := rfl
@[simp] theorem onPins_mosi (b : Bool) : onPins (.mosi b) = true := rfl
@[simp] theorem onPins_sample (b : Bool) : onPins (.sample b) = false := rfl
@[simp] theorem onPins_xfer (m : SpiMode) (x y : Byte) : onPins (.xfer m x y) = false := rfl
@[simp] theorem onPins_setMode (m : SpiMode) : onPins (.setMode m) = false := rfl
@[simp] theorem onPins_delay (n : Nat) : onPins (.delay n) = false := rfl
@[simp] theorem onPins_eeRead (a : Nat) (v : Byte) : onPins (.eeRead a v) = false := rfl
@[simp] theorem onPins_eeProgram (a : Nat) (v : Byte) : onPins (.eeProgram a v) = false := rfl
@[simp] theorem onPins_singleShot (src : AnalogSource) (w : Word16) : onPins (.singleShot src w) = false := rfl
@[simp] theorem onPins_debugMap (c : Chip) (l : List MapEntry) : onPins (.debugMap c l) = false := rfl
@[simp] theorem onPins_debugMismatch (c : Chip) (a : Byte) (w r : Word16) : onPins (.debugMismatch c a w r) = false := rfl
@[simp] theorem onPins_adcSetRate (k : Byte) : onPins (.adcSetRate k) = false := rfl
@[simp] theorem onPins_adcInit : onPins .adcInit = false := rfl
@[simp] theorem onPins_response (l : List Byte) : onPins (.response l) = false := rfl
@[simp] theorem onPins_isrReadWord (w : Word32) : onPins (.isrReadWord w) = false := rfl
@[simp] theorem onPins_isrCutoff : onPins .isrCutoff = false := rfl

end Sys2Proof.Machine
end

