-- ==== Sys2Proof/Laws/Interrupt.lean ====
section
/-! SUPPORT. What an interrupt move, an interrupt window and a primitive step can do, said once. -/

namespace Sys2Proof.Machine

/-! ## The two projections of the record -/

@[simp] theorem foreground_append (a b : List Event) : foreground (a ++ b) = foreground a ++ foreground b := by
  simp [foreground]

@[simp] theorem interrupt_append (a b : List Event) : interrupt (a ++ b) = interrupt a ++ interrupt b := by
  simp [interrupt]

@[simp] theorem foreground_nil : foreground [] = [] := rfl

@[simp] theorem interrupt_nil : interrupt [] = [] := rfl

@[simp] theorem foreground_cons (e : Event) (es : List Event) :
    foreground (e :: es) = if byInterrupt e then foreground es else e :: foreground es := by
  cases h : byInterrupt e <;> simp [foreground, h]

@[simp] theorem interrupt_cons (e : Event) (es : List Event) :
    interrupt (e :: es) = if byInterrupt e then e :: interrupt es else interrupt es := by
  cases h : byInterrupt e <;> simp [interrupt, h]

/-- The events the `ISR` never makes are the foreground's. -/
theorem foreground_of_none {evs : List Event} (h : interrupt evs = []) : foreground evs = evs := by
  rw [foreground, List.filter_eq_self]
  intro e he
  have := List.filter_eq_nil_iff.mp h e he
  simpa using this

theorem foreground_filter_onPins (evs : List Event) : evs.filter onPins = (foreground evs).filter onPins := by
  rw [foreground, List.filter_filter]
  congr 1
  funext e
  cases e <;> rfl

/-! ## The parts of a state -/

/-- A state is its foreground part, its interrupt part and the order of its record. -/
theorem state_ext {a b : State} (hf : foregroundPart a = foregroundPart b) (hi : interruptPart a = interruptPart b)
    (ht : a.env.trace = b.env.trace) : a = b := by
  obtain ⟨d, sp, ⟨ac, le, ini, rc, ip⟩, ⟨g1, g2, g3, g4⟩, hv, m, p, ⟨e1, e2, e3, e4, e5, e6, e7, e8⟩⟩ := a
  obtain ⟨d', sp', ⟨ac', le', ini', rc', ip'⟩, ⟨g1', g2', g3', g4'⟩, hv', m', p',
    ⟨e1', e2', e3', e4', e5', e6', e7', e8'⟩⟩ := b
  simp only [foregroundPart, interruptPart, ForegroundPart.mk.injEq, InterruptPart.mk.injEq] at hf hi ht
  obtain ⟨rfl, rfl, rfl, rfl, rfl, rfl, rfl, rfl, rfl, rfl, rfl, rfl, rfl⟩ := hf
  obtain ⟨rfl, rfl, rfl, rfl, rfl, -, rfl, rfl, rfl, -⟩ := hi
  rw [ht]

/-! ## One interrupt move -/

/-- The sample part of the `ISR` (R252, R255, R256) as one record update. -/
theorem takeSample_eq (w : Word32) (s : State) :
    takeSample w s =
      setAcc (channelOf w) (accumulate (accOf s (channelOf w)) (sampleOf w))
        { s with
          gpio := { s.gpio with
            hvEn := s.gpio.hvEn && !overcurrent s.hv (accOf s (channelOf w)) (sampleOf w) }
          env := { s.env with
            trace := s.env.trace ++
              (if overcurrent s.hv (accOf s (channelOf w)) (sampleOf w) then [.isrCutoff] else []) } } := by
  simp only [takeSample]
  by_cases h : overcurrent s.hv (accOf s (channelOf w)) (sampleOf w) <;> simp [h, setAcc, cutoff, emit]

/-- What the accumulators are after the sample part of the `ISR` (R256). -/
theorem accOf_takeSample (w : Word32) (s : State) (ch : BitVec 4) :
    accOf (takeSample w s) ch =
      if ch = channelOf w then accumulate (accOf s ch) (sampleOf w) else accOf s ch := by
  have : (takeSample w s).adc.acc =
      (setAcc (channelOf w) (accumulate (accOf s (channelOf w)) (sampleOf w)) s).adc.acc := by
    rw [takeSample_eq]; rfl
  rw [accOf_congr this]
  split
  · rename_i h; rw [h, accOf_setAcc_same]
  · rename_i h; exact accOf_setAcc_other _ _ h

@[simp] theorem accumulate_offset (a : Acc) (x : Word32) : (accumulate a x).offset = a.offset := rfl

theorem overcurrent_unarmed {s : State} (h : ¬ Armed s) (a : Acc) (x : Word32) :
    overcurrent s.hv a x = false := by
  simp only [Armed, not_and_or, Bool.not_eq_true] at h
  rcases h with h | h <;> simp [overcurrent, h]

/-- Whether the `ISR` cuts (R253, R255). -/
def cuts (s : State) : Bool :=
  !sampleError s.params s.env.adcWord &&
    overcurrent s.hv (accOf s (channelOf s.env.adcWord)) (sampleOf s.env.adcWord)

/-- The accumulators after the `ISR` (R253, R256). -/
def accAfter (s : State) : Vector Acc Config.nCh :=
  if sampleError s.params s.env.adcWord then s.adc.acc
  else s.adc.acc.set (channelIndex (channelOf s.env.adcWord))
    (accumulate (accOf s (channelOf s.env.adcWord)) (sampleOf s.env.adcWord))

/-- The `ISR` step (R252) as one record update. -/
theorem takeInterrupt_eq (s : State) :
    takeInterrupt s =
      { s with
        adc := { s.adc with irqPending := false, acc := accAfter s }
        gpio := { s.gpio with hvEn := s.gpio.hvEn && !cuts s }
        env := { s.env with
          trace := s.env.trace ++ [.isrReadWord s.env.adcWord] ++
            (if cuts s then [.isrCutoff] else []) } } := by
  have ha : ∀ ch, accOf (emit [.isrReadWord s.env.adcWord] (clearPending s)) ch = accOf s ch := fun _ => rfl
  simp only [takeInterrupt, adcReadWord, cuts, accAfter]
  by_cases h : sampleError s.params s.env.adcWord = true
  · simp [h, emit, clearPending]
  · rw [if_neg h, takeSample_eq, ha]
    simp [h, setAcc, emit, clearPending]
    rfl

/-- A move of the interrupt leaves the foreground's part (R318). -/
@[simp] theorem foregroundPart_irqMove (s : State) (m : IrqMove) :
    foregroundPart (irqMove s m) = foregroundPart s := by
  cases m with
  | convReady w => simp only [irqMove, convReady]; split <;> rfl
  | serve =>
    simp only [irqMove]
    split
    · rw [takeInterrupt_eq]; rfl
    · rfl

/-- What the `ISR` does to the interrupt's part depends on that part alone. -/
theorem interruptPart_takeInterrupt {a b : State} (h : interruptPart a = interruptPart b) :
    interruptPart (takeInterrupt a) = interruptPart (takeInterrupt b) := by
  simp only [interruptPart, InterruptPart.mk.injEq] at h
  obtain ⟨h1, h2, h3, h4, h5, h6, h7, h8, h9, h10⟩ := h
  have hc : cuts a = cuts b := by simp only [cuts, h4, h6, h8, accOf, h1]
  have ha : accAfter a = accAfter b := by simp only [accAfter, h6, h8, accOf, h1]
  rw [takeInterrupt_eq, takeInterrupt_eq, hc, ha]
  simp [interruptPart, h3, h4, h5, h6, h7, h8, h9, h10]

/-- What a move does to the interrupt's part depends on that part alone. -/
theorem interruptPart_irqMove {a b : State} (h : interruptPart a = interruptPart b) (m : IrqMove) :
    interruptPart (irqMove a m) = interruptPart (irqMove b m) := by
  simp only [interruptPart, InterruptPart.mk.injEq] at h
  obtain ⟨h1, h2, h3, h4, h5, h6, h7, h8, h9, h10⟩ := h
  cases m with
  | convReady w =>
    simp only [irqMove, convReady, h3]
    split <;> simp [interruptPart, h1, h2, h3, h4, h5, h6, h7, h8, h9, h10]
  | serve =>
    have h : interruptPart a = interruptPart b := by
      simp [interruptPart, h1, h2, h3, h4, h5, h6, h7, h8, h9, h10]
    simp only [irqMove, h2, h5]
    split
    · exact interruptPart_takeInterrupt h
    · exact h

/-- A move does not look at the line of moves. -/
theorem irqMove_irq (s : State) (m : IrqMove) (line : Feed (List IrqMove)) :
    irqMove { s with env := { s.env with irq := line } } m =
      { irqMove s m with env := { (irqMove s m).env with irq := line } } := by
  cases m with
  | convReady w => simp only [irqMove, convReady]; split <;> rfl
  | serve =>
    simp only [irqMove]
    split
    · rw [takeInterrupt_eq, takeInterrupt_eq]; rfl
    · rfl

/-- In a quiet state a move is nothing (R250). -/
theorem irqMove_quiet {s : State} (h : Quiet s) (m : IrqMove) : irqMove s m = s := by
  cases m <;> simp [irqMove, convReady, h.1, h.2]

/-- Everything interrupt moves can do (R250, R252, R318): the foreground's part, the controller, the gate and the
mask stay; `HV_EN` can only fall, and only if the comparator is armed; offsets stay; a pending event stays pending or
is served; nothing becomes pending while the loop is off; the record grows by accesses of the `ISR`. -/
structure InterruptsOnly (s u : State) : Prop where
  part : foregroundPart u = foregroundPart s
  hv : u.hv = s.hv
  irqMasked : u.irqMasked = s.irqMasked
  loopEn : u.adc.loopEn = s.adc.loopEn
  hvEnFalls : u.gpio.hvEn = true → s.gpio.hvEn = true
  hvEnUnarmed : ¬ Armed s → u.gpio.hvEn = s.gpio.hvEn
  offset : ∀ ch, (accOf u ch).offset = (accOf s ch).offset
  pending : s.adc.loopEn = false → u.adc.irqPending = true → s.adc.irqPending = true
  record : ∃ evs, u.env.trace = s.env.trace ++ evs ∧ foreground evs = [] ∧
    (s.adc.irqPending = true → u.adc.irqPending = true ∨ ∃ w, .isrReadWord w ∈ evs)

theorem InterruptsOnly.refl (s : State) : InterruptsOnly s s :=
  ⟨rfl, rfl, rfl, rfl, id, fun _ => rfl, fun _ => rfl, fun _ h => h, [], by simp, rfl, .inl⟩

theorem InterruptsOnly.trans {s t u : State} (h : InterruptsOnly s t) (k : InterruptsOnly t u) :
    InterruptsOnly s u where
  part := k.part.trans h.part
  hv := k.hv.trans h.hv
  irqMasked := k.irqMasked.trans h.irqMasked
  loopEn := k.loopEn.trans h.loopEn
  hvEnFalls e := h.hvEnFalls (k.hvEnFalls e)
  hvEnUnarmed e := (k.hvEnUnarmed (by simpa only [Armed, h.hv] using e)).trans (h.hvEnUnarmed e)
  offset ch := (k.offset ch).trans (h.offset ch)
  pending e f := h.pending e (k.pending (h.loopEn.trans e) f)
  record := by
    obtain ⟨a, ha, ha', ha''⟩ := h.record
    obtain ⟨b, hb, hb', hb''⟩ := k.record
    refine ⟨a ++ b, by rw [hb, ha, List.append_assoc], by simp [ha', hb'], fun hp => ?_⟩
    rcases ha'' hp with hp | ⟨w, hw⟩
    · rcases hb'' hp with hp | ⟨w, hw⟩
      · exact .inl hp
      · exact .inr ⟨w, by simp [hw]⟩
    · exact .inr ⟨w, by simp [hw]⟩

theorem foreground_isrEvents (w : Word32) (b : Bool) :
    foreground ([.isrReadWord w] ++ (if b then [.isrCutoff] else [])) = [] := by cases b <;> rfl

/-- Everything the `ISR` step can do (R252). -/
theorem takeInterrupt_only (s : State) : InterruptsOnly s (takeInterrupt s) := by
  rw [takeInterrupt_eq]
  refine ⟨rfl, rfl, rfl, rfl, ?_, ?_, ?_, fun _ h => (by cases h), ?_⟩
  · simp +contextual
  · intro h; simp [cuts, overcurrent_unarmed h]
  · intro ch
    have he : (accOf { s with adc := { s.adc with acc := accAfter s } } ch).offset = (accOf s ch).offset := by
      unfold accAfter
      split
      · rfl
      · by_cases hc : ch = channelOf s.env.adcWord
        · subst hc
          exact (congrArg Acc.offset (accOf_setAcc_same (channelOf s.env.adcWord)
            (accumulate (accOf s (channelOf s.env.adcWord)) (sampleOf s.env.adcWord)) s)).trans rfl
        · exact congrArg Acc.offset (accOf_setAcc_other _ s hc)
    exact he
  · exact ⟨[.isrReadWord s.env.adcWord] ++ (if cuts s then [.isrCutoff] else []), List.append_assoc _ _ _,
      foreground_isrEvents _ _, fun _ => Or.inr ⟨s.env.adcWord,
        List.mem_append_left _ (List.mem_singleton.mpr rfl)⟩⟩

@[simp] theorem foregroundPart_takeInterrupt (s : State) : foregroundPart (takeInterrupt s) = foregroundPart s :=
  (takeInterrupt_only s).part

@[simp] theorem foreground_takeInterrupt (s : State) :
    foreground (takeInterrupt s).env.trace = foreground s.env.trace := by
  obtain ⟨evs, e, he, -⟩ := (takeInterrupt_only s).record
  rw [e, foreground_append, he, List.append_nil]

/-- A step of the foreground that leaves the interrupt's part, and whose effect depends on the foreground alone,
commutes with the `ISR` (R318). -/
theorem SameButOrder.ofStep {f : State → State} {s : State} (hi : ∀ u, interruptPart (f u) = interruptPart u)
    (hf : ∀ u v, foregroundPart u = foregroundPart v → foregroundPart (f u) = foregroundPart (f v))
    (ht : ∀ u v, foregroundPart u = foregroundPart v → foreground u.env.trace = foreground v.env.trace →
      foreground (f u).env.trace = foreground (f v).env.trace) :
    SameButOrder (takeInterrupt (f s)) (f (takeInterrupt s)) :=
  ⟨(foregroundPart_takeInterrupt _).trans (hf _ _ (foregroundPart_takeInterrupt s).symm),
    (interruptPart_takeInterrupt (hi s)).trans (hi _).symm,
    (foreground_takeInterrupt _).trans
      (ht _ _ (foregroundPart_takeInterrupt s).symm (foreground_takeInterrupt s).symm)⟩

/-- Everything an interrupt move can do. -/
theorem irqMove_only (s : State) (m : IrqMove) : InterruptsOnly s (irqMove s m) := by
  cases m with
  | convReady w =>
    by_cases h : s.adc.loopEn = true
    · simp only [irqMove, convReady, h, if_true]
      exact ⟨rfl, rfl, rfl, h.symm, id, fun _ => rfl, fun _ => rfl, fun e => (by rw [h] at e; cases e),
        [], by simp, rfl, fun _ => .inl rfl⟩
    · simp only [irqMove, convReady, h]
      exact InterruptsOnly.refl s
  | serve =>
    by_cases h : (s.adc.irqPending && !s.irqMasked) = true
    · simp only [irqMove, h, if_true]
      exact takeInterrupt_only s
    · simp only [irqMove, h]
      exact InterruptsOnly.refl s

theorem irqMoves_only (ms : List IrqMove) (s : State) : InterruptsOnly s (ms.foldl irqMove s) := by
  induction ms generalizing s with
  | nil => exact InterruptsOnly.refl s
  | cons m ms ih => exact (irqMove_only s m).trans (ih _)

/-! ## Interrupt moves and the line -/

theorem afterMoves_only (ms : List IrqMove) (line : Feed (List IrqMove)) (s : State) :
    InterruptsOnly s (afterMoves ms line s) := by
  have h := irqMoves_only ms s
  refine h.trans ?_
  unfold afterMoves
  exact ⟨rfl, rfl, rfl, rfl, id, fun _ => rfl, fun _ => rfl, fun _ h => h, [], by simp, rfl, .inl⟩

theorem irqMoves_irq (ms : List IrqMove) (s : State) (line : Feed (List IrqMove)) :
    ms.foldl irqMove { s with env := { s.env with irq := line } } = afterMoves ms line s := by
  induction ms generalizing s with
  | nil => rfl
  | cons m ms ih => rw [List.foldl_cons, irqMove_irq, ih]; rfl

theorem afterMoves_append (ms ns : List IrqMove) (l l' : Feed (List IrqMove)) (s : State) :
    afterMoves ns l' (afterMoves ms l s) = afterMoves (ms ++ ns) l' s := by
  have : afterMoves ms l s = { ms.foldl irqMove s with env := { (ms.foldl irqMove s).env with irq := l } } := rfl
  rw [this]
  unfold afterMoves
  rw [irqMoves_irq, List.foldl_append]
  rfl

theorem interruptPart_afterMoves {a b : State} (h : interruptPart a = interruptPart b) (ms : List IrqMove)
    (line : Feed (List IrqMove)) : interruptPart (afterMoves ms line a) = interruptPart (afterMoves ms line b) := by
  have h' : interruptPart (ms.foldl irqMove a) = interruptPart (ms.foldl irqMove b) := by
    induction ms generalizing a b with
    | nil => exact h
    | cons m ms ih => exact ih (interruptPart_irqMove h m)
  simp only [interruptPart, InterruptPart.mk.injEq] at h'
  obtain ⟨h1, h2, h3, h4, h5, h6, h7, h8, h9, h10⟩ := h'
  simp [interruptPart, afterMoves, h1, h2, h3, h4, h5, h6, h7, h8, h10]

theorem irqMoves_quiet {s : State} (h : Quiet s) (ms : List IrqMove) : ms.foldl irqMove s = s := by
  induction ms with
  | nil => rfl
  | cons m ms ih => rw [List.foldl_cons, irqMove_quiet h, ih]

theorem takeWindows_add (n m : Nat) (line : Feed (List IrqMove)) :
    takeWindows (n + m) line =
      ((takeWindows n line).1 ++ (takeWindows m (takeWindows n line).2).1,
        (takeWindows m (takeWindows n line).2).2) := by
  induction n generalizing line with
  | zero => simp [takeWindows]
  | succ n ih =>
    rw [Nat.add_right_comm]
    simp only [takeWindows, ih, List.append_assoc]

/-! ## Interrupts alone -/

theorem Interrupts.refl (s : State) : Interrupts s s := ⟨fun _ => rfl, 0, [], by simp, rfl⟩

theorem Interrupts.trans {s t u : State} (h : Interrupts s t) (k : Interrupts t u) : Interrupts s u := by
  refine ⟨fun q => ?_, ?_⟩
  · have := h.1 q
    subst this
    exact k.1 q
  · obtain ⟨-, n, ms, hs, rfl⟩ := h
    obtain ⟨-, m, ns, ks, rfl⟩ := k
    refine ⟨n + m, ms ++ ns, ?_, ?_⟩
    · rw [takeWindows_add]; exact hs.append ks
    · rw [takeWindows_add, afterMoves_append]; rfl

theorem Interrupts.only {s u : State} (h : Interrupts s u) : InterruptsOnly s u := by
  obtain ⟨-, n, ms, -, rfl⟩ := h
  exact afterMoves_only _ _ _

/-- In a quiet state a window is nothing. -/
theorem window_quiet {s : State} (h : Quiet s) : window s = s := by simp [window, h.1, h.2]

/-- With the loop enabled a window makes the moves the line holds for it (R9, R317). -/
theorem window_enabled {s : State} (h : s.adc.loopEn = true) :
    window s = afterMoves (s.env.irq.take Config.irqWindow).1 (s.env.irq.take Config.irqWindow).2 s := by
  simp only [window, h, Bool.true_or, if_true]
  exact irqMoves_irq _ _ _

/-- An interrupt window is interrupts alone (R317). -/
theorem window_interrupts (s : State) : Interrupts s (window s) := by
  refine ⟨window_quiet, ?_⟩
  unfold window
  split
  · refine ⟨1, (s.env.irq.take Config.irqWindow).1, ?_, ?_⟩
    · simp [takeWindows]
    · simp only [takeWindows, irqMoves_irq]
  · exact ⟨0, [], by simp, rfl⟩

theorem window_only (s : State) : InterruptsOnly s (window s) := (window_interrupts s).only

@[simp] theorem foregroundPart_window (s : State) : foregroundPart (window s) = foregroundPart s :=
  (window_only s).part

/-! ## Steps the interrupt does not see -/

/-- A step that neither an interrupt move nor its line sees, and that does not disable or clear anything. -/
structure Unseen (f : State → State) : Prop where
  move : ∀ s m, f (irqMove s m) = irqMove (f s) m
  line : ∀ s line, f { s with env := { s.env with irq := line } } =
    { f s with env := { (f s).env with irq := line } }
  irq : ∀ s, (f s).env.irq = s.env.irq
  loopEn : ∀ s, (f s).adc.loopEn = s.adc.loopEn
  irqPending : ∀ s, (f s).adc.irqPending = s.adc.irqPending

theorem Unseen.moves {f : State → State} (hf : Unseen f) (ms : List IrqMove) (s : State) :
    f (ms.foldl irqMove s) = ms.foldl irqMove (f s) := by
  induction ms generalizing s with
  | nil => rfl
  | cons m ms ih => rw [List.foldl_cons, List.foldl_cons, ih, hf.move]

theorem Unseen.window {f : State → State} (hf : Unseen f) (s : State) : f (window s) = window (f s) := by
  unfold Machine.window
  rw [hf.loopEn, hf.irqPending, hf.irq]
  by_cases h : (s.adc.loopEn || s.adc.irqPending) = true
  · rw [if_pos h, if_pos h]
    exact (hf.moves _ _).trans (by rw [hf.line])
  · rw [if_neg h, if_neg h]

/-- Writes to the dispatcher, of the block's state, are not seen (R318). -/
theorem unseen_disp (g : Dispatcher → Dispatcher) : Unseen (fun s => { s with disp := g s.disp }) where
  move s m := by
    cases m with
    | convReady w => by_cases h : s.adc.loopEn = true <;> simp [irqMove, convReady, h]
    | serve =>
      by_cases h : (s.adc.irqPending && !s.irqMasked) = true
      · simp only [irqMove, h, if_true, takeInterrupt_eq]; rfl
      · simp [irqMove, h]
  line _ _ := rfl
  irq _ := rfl
  loopEn _ := rfl
  irqPending _ := rfl

theorem unseen_draws (g : Nat → Nat) :
    Unseen (fun s => { s with env := { s.env with draws := g s.env.draws } }) where
  move s m := by
    cases m with
    | convReady w => by_cases h : s.adc.loopEn = true <;> simp [irqMove, convReady, h]
    | serve =>
      by_cases h : (s.adc.irqPending && !s.irqMasked) = true
      · simp only [irqMove, h, if_true, takeInterrupt_eq]; rfl
      · simp [irqMove, h]
  line _ _ := rfl
  irq _ := rfl
  loopEn _ := rfl
  irqPending _ := rfl

/-! Every field of the foreground's part, through a window (R318). -/

@[simp] theorem window_disp (s : State) : (window s).disp = s.disp :=
  congrArg ForegroundPart.disp (foregroundPart_window s)
@[simp] theorem window_spi (s : State) : (window s).spi = s.spi :=
  congrArg ForegroundPart.spi (foregroundPart_window s)
@[simp] theorem window_params (s : State) : (window s).params = s.params :=
  congrArg ForegroundPart.params (foregroundPart_window s)
@[simp] theorem window_led (s : State) : (window s).gpio.led = s.gpio.led :=
  congrArg ForegroundPart.led (foregroundPart_window s)
@[simp] theorem window_en3v3 (s : State) : (window s).gpio.en3v3 = s.gpio.en3v3 :=
  congrArg ForegroundPart.en3v3 (foregroundPart_window s)
@[simp] theorem window_en5v (s : State) : (window s).gpio.en5v = s.gpio.en5v :=
  congrArg ForegroundPart.en5v (foregroundPart_window s)
@[simp] theorem window_inited (s : State) : (window s).adc.inited = s.adc.inited :=
  congrArg ForegroundPart.inited (foregroundPart_window s)
@[simp] theorem window_rateCode (s : State) : (window s).adc.rateCode = s.adc.rateCode :=
  congrArg ForegroundPart.rateCode (foregroundPart_window s)
@[simp] theorem window_ee (s : State) : (window s).env.ee = s.env.ee :=
  congrArg ForegroundPart.ee (foregroundPart_window s)
@[simp] theorem window_bus (s : State) : (window s).env.bus = s.env.bus :=
  congrArg ForegroundPart.bus (foregroundPart_window s)
@[simp] theorem window_miso (s : State) : (window s).env.miso = s.env.miso :=
  congrArg ForegroundPart.miso (foregroundPart_window s)
@[simp] theorem window_analog (s : State) : (window s).env.analog = s.env.analog :=
  congrArg ForegroundPart.analog (foregroundPart_window s)
@[simp] theorem window_draws (s : State) : (window s).env.draws = s.env.draws :=
  congrArg ForegroundPart.draws (foregroundPart_window s)
@[simp] theorem window_hv (s : State) : (window s).hv = s.hv := (window_only s).hv
@[simp] theorem window_irqMasked (s : State) : (window s).irqMasked = s.irqMasked := (window_only s).irqMasked
@[simp] theorem window_loopEn (s : State) : (window s).adc.loopEn = s.adc.loopEn := (window_only s).loopEn

/-- A window adds nothing to the foreground's record. -/
@[simp] theorem window_foreground (s : State) :
    foreground (window s).env.trace = foreground s.env.trace := by
  obtain ⟨evs, h, h', -⟩ := (window_only s).record
  simp [h, h']

theorem prim_eq (f : State → State) (s : State) : prim f s = window (f s) := rfl

theorem prim_quiet {f : State → State} {s : State} (h : Quiet (f s)) : prim f s = f s := window_quiet h

/-! ## Foreground steps beside the interrupt -/

/-- `t` is `s` after foreground steps that touch the foreground's part alone, with interrupts in between: the
interrupt's part is what interrupts alone make of it, and the record has grown (R318). -/
def Beside (s t : State) : Prop :=
  s.env.trace <+: t.env.trace ∧ ∃ u, Interrupts s u ∧ interruptPart u = interruptPart t

theorem Beside.refl (s : State) : Beside s s := ⟨List.prefix_refl _, s, Interrupts.refl s, rfl⟩

/-- Interrupt moves can be made on any state with the same interrupt part. -/
theorem Interrupts.lift {a b c : State} (h : interruptPart a = interruptPart b) (k : Interrupts b c) :
    ∃ d, Interrupts a d ∧ interruptPart d = interruptPart c := by
  have hirq : a.env.irq = b.env.irq := congrArg InterruptPart.irq h
  obtain ⟨kq, n, ms, hs, rfl⟩ := k
  refine ⟨afterMoves ms (takeWindows n a.env.irq).2 a, ⟨fun q => ?_, n, ms, by rw [hirq]; exact hs, rfl⟩, ?_⟩
  · have hl : a.adc.loopEn = b.adc.loopEn := congrArg InterruptPart.loopEn h
    have hp : a.adc.irqPending = b.adc.irqPending := congrArg InterruptPart.irqPending h
    have e := congrArg (fun x : State => x.env.irq) (kq ⟨hl ▸ q.1, hp ▸ q.2⟩)
    unfold afterMoves at e ⊢
    rw [irqMoves_quiet q, hirq]
    have e : (takeWindows n b.env.irq).2 = b.env.irq := e
    rw [e, ← hirq]
  · rw [hirq]; exact interruptPart_afterMoves h _ _

theorem Beside.trans {s t v : State} (h : Beside s t) (k : Beside t v) : Beside s v := by
  obtain ⟨hp, u, hu, hi⟩ := h
  obtain ⟨kp, w, kw, ki⟩ := k
  obtain ⟨d, hd, hd'⟩ := kw.lift hi
  exact ⟨hp.trans kp, d, hu.trans hd, hd'.trans ki⟩

theorem Interrupts.beside {s u : State} (h : Interrupts s u) : Beside s u := by
  obtain ⟨evs, e, -⟩ := h.only.record
  exact ⟨⟨evs, e.symm⟩, u, h, rfl⟩

theorem Beside.ofStep {s t : State} (h : interruptPart t = interruptPart s) (hp : s.env.trace <+: t.env.trace) :
    Beside s t := ⟨hp, s, Interrupts.refl s, h.symm⟩

/-- A primitive step that leaves the interrupt's part alone. -/
theorem prim_beside {f : State → State} {s : State} (h : interruptPart (f s) = interruptPart s)
    (hp : s.env.trace <+: (f s).env.trace) : Beside s (prim f s) :=
  (Beside.ofStep h hp).trans (window_interrupts _).beside

theorem foldl_beside {α : Type} {f : State → α → State} (h : ∀ s a, Beside s (f s a)) (l : List α) (s : State) :
    Beside s (l.foldl f s) := by
  induction l generalizing s with
  | nil => exact Beside.refl s
  | cons a l ih => exact (h s a).trans (ih _)

/-- Everything such steps leave of what the interrupt shares. -/
structure SharedKept (s t : State) : Prop where
  hv : t.hv = s.hv
  irqMasked : t.irqMasked = s.irqMasked
  loopEn : t.adc.loopEn = s.adc.loopEn
  hvEnFalls : t.gpio.hvEn = true → s.gpio.hvEn = true
  offset : ∀ ch, (accOf t ch).offset = (accOf s ch).offset
  pending : s.adc.loopEn = false → t.adc.irqPending = true → s.adc.irqPending = true
  quiet : Quiet s → Quiet t ∧ t.gpio.hvEn = s.gpio.hvEn ∧ t.adc.acc = s.adc.acc
  served : s.adc.irqPending = true → t.adc.irqPending = true ∨ InterruptTaken s t

theorem Beside.shared {s t : State} (h : Beside s t) : SharedKept s t := by
  obtain ⟨⟨new, hnew⟩, u, hu, hi⟩ := h
  have ho := hu.only
  have hev := congrArg InterruptPart.events hi
  simp only [interruptPart, InterruptPart.mk.injEq] at hi
  obtain ⟨h1, h2, h3, h4, h5, h6, h7, h8, h9, h10⟩ := hi
  refine ⟨h4 ▸ ho.hv, h5 ▸ ho.irqMasked, h3 ▸ ho.loopEn, h7 ▸ ho.hvEnFalls,
    fun ch => ?_, fun e f => ?_, fun q => ?_, fun e => ?_⟩
  · rw [← ho.offset ch]; simp only [accOf, h1]
  · exact ho.pending e (h2.trans f)
  · have := hu.1 q
    subst this
    exact ⟨⟨h3.symm.trans q.1, h2.symm.trans q.2⟩, h7.symm, h1.symm⟩
  · obtain ⟨evs, he, -, hs⟩ := ho.record
    rcases hs e with hp | ⟨w, hw⟩
    · exact .inl (h2 ▸ hp)
    · refine .inr ⟨w, ?_⟩
      have hk : interrupt evs = interrupt new := by
        have : interrupt s.env.trace ++ interrupt evs = interrupt s.env.trace ++ interrupt new := by
          rw [← interrupt_append, ← he, ← interrupt_append, hnew]; exact h10
        exact List.append_cancel_left this
      have hw' : .isrReadWord w ∈ interrupt new := hk ▸ List.mem_filter.mpr ⟨hw, rfl⟩
      unfold newEvents
      rw [← hnew, List.drop_left]
      exact (List.mem_filter.mp hw').1

/-- The record of such steps, in its two projections. -/
theorem Beside.record {s t : State} (h : Beside s t) :
    ∃ u, Interrupts s u ∧ interruptPart u = interruptPart t ∧ interrupt (newEvents s t) = newEvents s u := by
  obtain ⟨⟨new, hnew⟩, u, hu, hi⟩ := h
  refine ⟨u, hu, hi, ?_⟩
  obtain ⟨evs, he, hf, -⟩ := hu.only.record
  have hall : interrupt evs = evs := by
    rw [interrupt, List.filter_eq_self]
    intro e hm
    have := List.filter_eq_nil_iff.mp hf e hm
    simpa using this
  have hk : interrupt evs = interrupt new := by
    have : interrupt s.env.trace ++ interrupt evs = interrupt s.env.trace ++ interrupt new := by
      rw [← interrupt_append, ← he, ← interrupt_append, hnew]; exact congrArg InterruptPart.events hi
    exact List.append_cancel_left this
  unfold newEvents
  rw [← hnew, he, List.drop_left, List.drop_left, ← hk, hall]

/-- The foreground's record of such steps. -/
theorem newEvents_foreground {s t : State} {evs : List Event} (h : s.env.trace <+: t.env.trace)
    (he : foreground t.env.trace = foreground s.env.trace ++ evs) : foreground (newEvents s t) = evs := by
  obtain ⟨new, hnew⟩ := h
  unfold newEvents
  rw [← hnew, List.drop_left]
  rw [← hnew, foreground_append] at he
  exact List.append_cancel_left he

/-- `t` is `s` after foreground steps that leave the foreground's part as `part` and made the accesses `evs`, with
interrupts in between: the one form in which the laws say what an operation does. -/
structure Does (s t : State) (part : ForegroundPart) (evs : List Event) : Prop where
  part : foregroundPart t = part
  record : foreground t.env.trace = foreground s.env.trace ++ evs
  beside : Beside s t

theorem Does.refl (s : State) : Does s s (foregroundPart s) [] := ⟨rfl, by simp, Beside.refl s⟩

theorem Does.trans {s t u : State} {p q : ForegroundPart} {a b : List Event} (h : Does s t p a)
    (k : Does t u q b) : Does s u q (a ++ b) :=
  ⟨k.part, by rw [k.record, h.record, List.append_assoc], h.beside.trans k.beside⟩

theorem Does.cast {s t : State} {p q : ForegroundPart} {a b : List Event} (h : Does s t p a) (hp : p = q)
    (ha : a = b) : Does s t q b := hp ▸ ha ▸ h

/-- A step that touches the foreground's part alone. -/
theorem step_does {s t : State} {evs : List Event} (hi : interruptPart t = interruptPart s)
    (ht : t.env.trace = s.env.trace ++ evs) (he : interrupt evs = []) : Does s t (foregroundPart t) evs :=
  ⟨rfl, by rw [ht, foreground_append, foreground_of_none he], Beside.ofStep hi ⟨evs, ht.symm⟩⟩

theorem Interrupts.does {s u : State} (h : Interrupts s u) : Does s u (foregroundPart s) [] := by
  obtain ⟨evs, e, he, -⟩ := h.only.record
  exact ⟨h.only.part, by rw [e, foreground_append, he], h.beside⟩

theorem window_does (s : State) : Does s (window s) (foregroundPart s) [] := (window_interrupts s).does

/-- A primitive step that touches the foreground's part alone. -/
theorem prim_does {f : State → State} {s : State} {evs : List Event} (hi : interruptPart (f s) = interruptPart s)
    (ht : (f s).env.trace = s.env.trace ++ evs) (he : interrupt evs = []) :
    Does s (prim f s) (foregroundPart (f s)) evs :=
  ((step_does hi ht he).trans (window_does (f s))).cast rfl (List.append_nil _)

/-- A step that only records accesses of the foreground. -/
theorem prim_emit_does {evs : List Event} (he : interrupt evs = []) (s : State) :
    Does s (prim (emit evs) s) (foregroundPart s) evs :=
  prim_does (f := emit evs) (by simp [interruptPart, he]) rfl he

/-- The two records and the interrupt's part, in the words of the claims. -/
theorem Does.besides {s t : State} {p : ForegroundPart} {evs : List Event} (h : Does s t p evs) :
    ∃ u, Interrupts s u ∧ foregroundPart u = foregroundPart s ∧ interruptPart u = interruptPart t ∧
      foreground (newEvents s t) = evs ∧ interrupt (newEvents s t) = newEvents s u := by
  obtain ⟨u, hu, hi, hr⟩ := h.beside.record
  exact ⟨u, hu, hu.only.part, hi, newEvents_foreground h.beside.1 h.record, hr⟩

/-! ## Interleaved steps -/

theorem Interleaved.nil {s t : State} (h : Interrupts s t) : Interleaved [] s t := h

/-- One more step at the end, and interrupts behind it. -/
theorem Interleaved.snoc {steps : List (State → State)} {f : State → State} {s t v : State}
    (h : Interleaved steps s t) (k : Interrupts (f t) v) : Interleaved (steps ++ [f]) s v := by
  induction steps generalizing s with
  | nil => exact ⟨t, h, k⟩
  | cons g steps ih =>
    obtain ⟨u, hu, hr⟩ := h
    exact ⟨u, hu, ih hr⟩

theorem Interleaved.extend {steps : List (State → State)} {s t u : State} (h : Interleaved steps s t)
    (k : Interrupts t u) : Interleaved steps s u := by
  induction steps generalizing s with
  | nil => exact Interrupts.trans h k
  | cons g steps ih =>
    obtain ⟨v, hv, hr⟩ := h
    exact ⟨v, hv, ih hr⟩

theorem Interleaved.append {steps more : List (State → State)} {s t u : State} (h : Interleaved steps s t)
    (k : Interleaved more t u) : Interleaved (steps ++ more) s u := by
  induction more generalizing steps t with
  | nil => rw [List.append_nil]; exact h.extend k
  | cons g more ih =>
    obtain ⟨v, hv, hr⟩ := k
    have := ih (h.extend hv |>.snoc (Interrupts.refl (g v))) hr
    rwa [List.append_assoc, List.singleton_append] at this

theorem Interleaved.prim {steps : List (State → State)} {s t : State} (f : State → State)
    (h : Interleaved steps s t) : Interleaved (steps ++ [f]) s (prim f t) := h.snoc (window_interrupts _)

/-- Whatever interrupts and each step keep, the whole keeps. -/
theorem Interleaved.rel {R : State → State → Prop} (trans : ∀ {a b c}, R a b → R b c → R a c)
    (hi : ∀ {a b}, Interrupts a b → R a b) {steps : List (State → State)} (hf : ∀ f ∈ steps, ∀ s, R s (f s))
    {s t : State} (h : Interleaved steps s t) : R s t := by
  induction steps generalizing s with
  | nil => exact hi h
  | cons f steps ih =>
    obtain ⟨u, hu, hr⟩ := h
    exact trans (hi hu) (trans (hf f (by simp) u) (ih (fun g hg => hf g (by simp [hg])) hr))

theorem Interleaved.before {steps : List (State → State)} {s t u : State} (h : Interrupts s t)
    (k : Interleaved steps t u) : Interleaved steps s u := (Interleaved.nil h).append k

/-- In a quiet machine the steps are made one after the other (R250). -/
theorem Interleaved.quiet {steps : List (State → State)} (hf : ∀ f ∈ steps, ∀ u, Quiet u → Quiet (f u))
    {s t : State} (hq : Quiet s) (h : Interleaved steps s t) : t = steps.foldl (fun u f => f u) s := by
  induction steps generalizing s with
  | nil => exact h.1 hq
  | cons f steps ih =>
    obtain ⟨u, hu, hr⟩ := h
    rw [hu.1 hq] at hr
    exact ih (fun g hg => hf g (by simp [hg])) (hf f (by simp) s hq) hr

/-! ## Critical sections -/

@[simp] theorem setMask_setMask (a b : Bool) (s : State) : setMask a (setMask b s) = setMask a s := rfl

theorem setMask_self {b : Bool} {s : State} (h : s.irqMasked = b) : setMask b s = s := by subst h; rfl

/-- Under the mask the moves are those of conversions, and they do not look at the mask (R316). -/
theorem irqMoves_masked (ms : List IrqMove) (s : State) :
    ms.foldl irqMove (setMask true s) =
      setMask true ((ms.filter (fun m => m != .serve)).foldl irqMove s) := by
  induction ms generalizing s with
  | nil => rfl
  | cons m ms ih =>
    cases m with
    | serve =>
      have : irqMove (setMask true s) .serve = setMask true s := by simp [irqMove]
      rw [List.foldl_cons, this, ih]; rfl
    | convReady w =>
      have : irqMove (setMask true s) (.convReady w) = setMask true (irqMove s (.convReady w)) := by
        by_cases h : s.adc.loopEn = true <;> (simp [irqMove, convReady, h]; try rfl)
      have hf : (IrqMove.convReady w :: ms).filter (fun m => m != .serve) =
          .convReady w :: ms.filter (fun m => m != .serve) := by
        rw [List.filter_cons_of_pos]; simp
      rw [List.foldl_cons, this, ih, hf, List.foldl_cons]

/-- Moves that serve nothing leave accumulators, latches and the record alone. -/
theorem conversions_only (ms : List IrqMove) (h : ∀ m ∈ ms, m ≠ .serve) (s : State) :
    ∃ p w, ms.foldl irqMove s =
      { s with adc := { s.adc with irqPending := p }, env := { s.env with adcWord := w } } := by
  induction ms generalizing s with
  | nil => exact ⟨s.adc.irqPending, s.env.adcWord, rfl⟩
  | cons m ms ih =>
    cases m with
    | serve => exact absurd rfl (h .serve (by simp))
    | convReady x =>
      obtain ⟨p, w, e⟩ := ih (fun m hm => h m (by simp [hm])) (irqMove s (.convReady x))
      rw [List.foldl_cons, e]
      simp only [irqMove, convReady]
      split <;> exact ⟨p, w, rfl⟩

/-- The conversions of the next window, none of them served (R316). -/
def arrivals (s : State) : State :=
  if s.adc.loopEn || s.adc.irqPending then
    afterMoves ((s.env.irq.take Config.irqWindow).1.filter (fun m => m != .serve))
      (s.env.irq.take Config.irqWindow).2 s
  else s

theorem arrivals_interrupts (s : State) : Interrupts s (arrivals s) := by
  unfold arrivals
  split
  · rename_i h
    refine ⟨fun q => (by simp [q.1, q.2] at h), 1, _, ?_, rfl⟩
    simp only [takeWindows, List.append_nil]
    exact List.filter_sublist
  · exact Interrupts.refl s

/-- They make at most a word pending. -/
theorem arrivals_eq (s : State) : ∃ p w line, arrivals s =
    { s with adc := { s.adc with irqPending := p }, env := { s.env with adcWord := w, irq := line } } := by
  unfold arrivals
  split
  · obtain ⟨p, w, e⟩ := conversions_only
      ((s.env.irq.take Config.irqWindow).1.filter (fun m => m != .serve))
      (fun m hm => by simpa using (List.mem_filter.mp hm).2) s
    refine ⟨p, w, (s.env.irq.take Config.irqWindow).2, ?_⟩
    unfold afterMoves
    rw [e]
  · exact ⟨s.adc.irqPending, s.env.adcWord, s.env.irq, rfl⟩

/-- A window under the mask: conversions may become pending, and nothing else happens (R316). -/
theorem window_masked (s : State) : window (setMask true s) = setMask true (arrivals s) := by
  unfold window arrivals
  rw [setMask_adc]
  split
  · have h : (s.env.irq.take Config.irqWindow).1.foldl irqMove { setMask true s with env :=
        { (setMask true s).env with irq := (s.env.irq.take Config.irqWindow).2 } } =
        afterMoves (s.env.irq.take Config.irqWindow).1 (s.env.irq.take Config.irqWindow).2 (setMask true s) :=
      irqMoves_irq _ _ _
    refine h.trans ?_
    unfold afterMoves
    rw [irqMoves_masked]
    rfl
  · rfl

/-- Work on the accumulators and the draws does not see conversions arrive. -/
theorem arrivals_acc (acc : Vector Acc Config.nCh) (draws : Nat) (s : State) :
    arrivals { s with adc := { s.adc with acc := acc }, env := { s.env with draws := draws } } =
      { arrivals s with
        adc := { (arrivals s).adc with acc := acc }, env := { (arrivals s).env with draws := draws } } := by
  have hm : ∀ (ms : List IrqMove) (s : State), (∀ m ∈ ms, m ≠ .serve) →
      ms.foldl irqMove { s with adc := { s.adc with acc := acc }, env := { s.env with draws := draws } } =
        { ms.foldl irqMove s with
          adc := { (ms.foldl irqMove s).adc with acc := acc }
          env := { (ms.foldl irqMove s).env with draws := draws } } := by
    intro ms
    induction ms with
    | nil => exact fun _ _ => rfl
    | cons m ms ih =>
      intro s h
      cases m with
      | serve => exact absurd rfl (h .serve (by simp))
      | convReady w =>
        have h1 : irqMove { s with adc := { s.adc with acc := acc }, env := { s.env with draws := draws } }
            (.convReady w) = { irqMove s (.convReady w) with
              adc := { (irqMove s (.convReady w)).adc with acc := acc }
              env := { (irqMove s (.convReady w)).env with draws := draws } } := by
          by_cases hl : s.adc.loopEn = true <;> simp [irqMove, convReady, hl]
        rw [List.foldl_cons, List.foldl_cons, h1, ih _ (fun m hm => h m (by simp [hm]))]
  unfold arrivals
  split
  · unfold afterMoves
    rw [hm _ _ (fun m hm => by simpa using (List.mem_filter.mp hm).2)]
  · rfl

theorem arrivals_setMask (b : Bool) (s : State) : arrivals (setMask b s) = setMask b (arrivals s) := by
  have hm : ∀ (ms : List IrqMove) (s : State), (∀ m ∈ ms, m ≠ .serve) →
      ms.foldl irqMove (setMask b s) = setMask b (ms.foldl irqMove s) := by
    intro ms
    induction ms with
    | nil => exact fun _ _ => rfl
    | cons m ms ih =>
      intro s h
      cases m with
      | serve => exact absurd rfl (h .serve (by simp))
      | convReady w =>
        have h1 : irqMove (setMask b s) (.convReady w) = setMask b (irqMove s (.convReady w)) := by
          by_cases hl : s.adc.loopEn = true <;> (simp [irqMove, convReady, hl]; try rfl)
        rw [List.foldl_cons, List.foldl_cons, h1, ih _ (fun m hm => h m (by simp [hm]))]
  unfold arrivals
  rw [setMask_adc]
  split
  · unfold afterMoves
    have e := hm ((s.env.irq.take Config.irqWindow).1.filter (fun m => m != .serve)) s
      (fun m hm => by simpa using (List.mem_filter.mp hm).2)
    exact congrArg (fun t : State => { t with env := { t.env with irq := (s.env.irq.take Config.irqWindow).2 } }) e
  · rfl

/-- A body that neither looks at the mask nor writes it. -/
def MaskBlind (body : State → State) : Prop := ∀ b u, body (setMask b u) = setMask b (body u)

theorem MaskBlind.keeps {body : State → State} (h : MaskBlind body) (u : State) :
    (body u).irqMasked = u.irqMasked := by
  have := congrArg State.irqMasked (h u.irqMasked u)
  rwa [setMask_self rfl] at this

/-- A critical section (R316) is its body as one step, with interrupts before and behind it. -/
theorem critical_eq {body : State → State} (hb : MaskBlind body) (s : State) :
    critical body s = window (body (arrivals s)) := by
  have hk : (body (arrivals s)).irqMasked = s.irqMasked :=
    (hb.keeps _).trans (arrivals_interrupts s).only.irqMasked
  unfold critical prim
  rw [window_masked, hb, setMask_setMask, setMask_self hk]

theorem critical_interleaved {body : State → State} (hb : MaskBlind body) {steps : List (State → State)}
    {s t : State} (h : Interleaved steps s t) : Interleaved (steps ++ [body]) s (critical body t) := by
  rw [critical_eq hb]
  exact (h.extend (arrivals_interrupts t)).prim body

/-- The same for a body that yields a value. -/
theorem criticalGet_eq {α : Type} {body : State → α × State}
    (hb : ∀ b u, body (setMask b u) = ((body u).1, setMask b (body u).2)) (s : State) :
    criticalGet body s = ((body (arrivals s)).1, window (body (arrivals s)).2) := by
  have hk : (body (arrivals s)).2.irqMasked = s.irqMasked := by
    have := congrArg (fun r => r.2.irqMasked) (hb (arrivals s).irqMasked (arrivals s))
    rw [setMask_self rfl] at this
    exact this.trans (arrivals_interrupts s).only.irqMasked
  unfold criticalGet prim
  rw [window_masked, hb]
  simp only [setMask_setMask, setMask_self hk]

end Sys2Proof.Machine
end

