-- ==== Sys2Proof/Laws/Commands.lean ====
section
/-! SUPPORT. The buffers, the shared way a command runs, the checks that stop one, and the average of a
channel. -/

namespace Sys2Proof.Machine

/-! ## The buffers -/

theorem overlayFrom_getElem {α : Type} {n : Nat} (items : List α) (k : Nat) (v : Vector α n) (i : Nat)
    (hi : i < n) :
    (overlayFrom k items v)[i] = if k ≤ i then items.getD (i - k) v[i] else v[i] := by
  induction items generalizing k v with
  | nil => simp [overlayFrom]
  | cons a rest ih =>
    rw [overlayFrom, ih]
    by_cases h : k = i
    · subst h; simp
    · by_cases hk : k ≤ i
      · have h1 : k + 1 ≤ i := by omega
        have h2 : i - k = (i - (k + 1)) + 1 := by omega
        simp [h1, hk, h2, h]
      · have h1 : ¬ k + 1 ≤ i := by omega
        simp [h1, hk, h]

/-- Entry `i` of an overwritten buffer: the item of that index, or the old entry (R21, R22). -/
theorem overlay_getElem {α : Type} {n : Nat} (items : List α) (v : Vector α n) (i : Nat) (hi : i < n) :
    (overlay items v)[i] = items.getD i v[i] := by
  simp [overlay, overlayFrom_getElem]

/-- The response after `respond` is what was written (R134). -/
theorem responseBytes_of_tx {s : State} {bytes : List Byte} {v : Vector Byte Config.txBufSize}
    (htx : s.disp.tx = overlay bytes v) (hlen : s.disp.txLen = bytes.length)
    (hb : bytes.length ≤ Config.txBufSize) : responseBytes s = bytes := by
  apply List.ext_getElem
  · simp [responseBytes, hlen, hb]
  · intro i h1 h2
    have hi : i < Config.txBufSize := by omega
    simp only [responseBytes, List.getElem_take, htx, Vector.getElem_toList]
    rw [overlay_getElem _ _ _ hi]
    simp [h2]

@[simp] theorem responseBytes_complete (k : Kind) (s : State) :
    responseBytes (complete k s) = responseBytes s := rfl

theorem putTx_does (k : Nat) (b : Byte) (s : State) :
    Does s (prim (putTx k b) s)
      { foregroundPart s with disp := { s.disp with tx := s.disp.tx.setIfInBounds k b } } [] :=
  prim_does rfl (by simp) rfl

theorem setTxLen_does (n : Nat) (s : State) :
    Does s (prim (setTxLen n) s) { foregroundPart s with disp := { s.disp with txLen := n } } [] :=
  prim_does rfl (by simp) rfl

theorem writeTx_does (bytes : List Byte) (k : Nat) (s : State) :
    Does s (writeTx k bytes s)
      { foregroundPart s with disp := { s.disp with tx := overlayFrom k bytes s.disp.tx } } [] := by
  induction bytes generalizing k s with
  | nil => exact Does.refl s
  | cons b rest ih =>
    refine ((putTx_does k b s).trans (ih (k + 1) _)).cast ?_ rfl
    rw [(putTx_does k b s).part, prim_eq, window_disp]
    rfl

/-- A response (R134): the bytes and the length, and nothing else. -/
theorem respond_does (bytes : List Byte) (s : State) :
    Does s (respond bytes s)
      { foregroundPart s with
        disp := { s.disp with tx := overlay bytes s.disp.tx, txLen := bytes.length } } [] := by
  have h := writeTx_does bytes 0 s
  refine (h.trans (setTxLen_does bytes.length _)).cast ?_ rfl
  have hd : (writeTx 0 bytes s).disp = _ := congrArg ForegroundPart.disp h.part
  rw [h.part, hd]
  rfl

theorem respond_disp (bytes : List Byte) (s : State) :
    (respond bytes s).disp = { s.disp with tx := overlay bytes s.disp.tx, txLen := bytes.length } :=
  congrArg ForegroundPart.disp (respond_does bytes s).part

theorem responseBytes_respond {bytes : List Byte} (s : State) (hb : bytes.length ≤ Config.txBufSize) :
    responseBytes (respond bytes s) = bytes :=
  responseBytes_of_tx (v := s.disp.tx) (by rw [respond_disp]) (by rw [respond_disp]) hb

/-! ## Running a command -/

/-- The beginning of `Dispatch`: interrupts, and the response cleared (R132). -/
theorem beginDispatch_interrupts (s : State) : Interrupts (clearResponse s) (beginDispatch s) := by
  have h : clearResponse (window s) = window (clearResponse s) :=
    (unseen_disp (fun d => { d with txLen := 0 })).window s
  unfold beginDispatch
  rw [prim_eq, h]
  exact (window_interrupts _).trans (window_interrupts _)

theorem beginDispatch_does (s : State) :
    Does s (beginDispatch s) { foregroundPart s with disp := { s.disp with txLen := 0 } } [] := by
  refine ((window_does s).trans (prim_does (f := clearResponse) rfl (by simp) rfl)).cast ?_ rfl
  unfold foregroundPart clearResponse setTxLen
  simp

/-- A command whose handler works beside the interrupt, in the words of the claims (R132 to R134, R318). -/
theorem Does.worksBeside {k : Kind} {h : State → State} {s : State} {p : ForegroundPart} {evs : List Event}
    (d : Does (beginDispatch s) (h (beginDispatch s)) p evs) :
    ∃ u, WorksBeside evs s u (complete k (h (beginDispatch s))) ∧
      foregroundPart u = foregroundPart (clearResponse s) ∧
      interruptPart u = interruptPart (h (beginDispatch s)) := by
  have d' := (beginDispatch_interrupts s).does.trans d
  rw [List.nil_append] at d'
  obtain ⟨u, hu, hf, hi, h1, h2⟩ := d'.besides
  exact ⟨u, ⟨hu, h1, h2⟩, hf, hi⟩

@[simp] theorem command_none (k : Kind) (h : State → State) (s : State) :
    command k none h s = .next (complete k (h (beginDispatch s))) := rfl

@[simp] theorem command_some (k : Kind) (r : Stop) (h : State → State) (s : State) :
    command k (some r) h s = stopped k r s := rfl

/-- How `unsourced` can answer a next state. -/
theorem unsourced_next {r : Stop} {calm s t : State} (h : unsourced r calm s = .next t) :
    s.params.unsourced = .noEffect ∧ t = calm := by
  unfold unsourced at h
  split at h
  · cases r <;> simp [Stop.outcome] at h
  · exact ⟨by assumption, (Host.Outcome.next.inj h).symm⟩

/-- Everything a command can answer as a next state (R132 to R134). -/
theorem command_next {k : Kind} {stop : Option Stop} {h : State → State} {s t : State}
    (e : command k stop h s = .next t) :
    (stop = none ∧ t = complete k (h (beginDispatch s))) ∨
      (stop ≠ none ∧ s.params.unsourced = .noEffect ∧ t = complete k (clearResponse s)) := by
  cases stop with
  | none => exact .inl ⟨rfl, (Host.Outcome.next.inj e).symm⟩
  | some r => exact .inr ⟨by simp, unsourced_next e⟩

/-- Everything a command on a chip can answer as a next state (R103). -/
theorem onChip_next {k : Kind} {f : BitVec 2} {s t : State}
    {run : Chip → Host.Outcome State Fault Refusal} (e : onChip k f s run = .next t) :
    (∃ c, chipOf f = some c ∧ run c = .next t) ∨
      (chipOf f = none ∧ s.params.unsourced = .noEffect ∧ t = complete k (clearResponse s)) := by
  unfold onChip at e
  split at e
  · exact .inl ⟨_, by assumption, e⟩
  · exact .inr ⟨by assumption, unsourced_next e⟩

@[simp] theorem chipOf_bottom : chipOf 0#2 = some .bottom := rfl
@[simp] theorem chipOf_top : chipOf 1#2 = some .top := rfl

/-- The two codes without a chip (R103). -/
theorem chipOf_none_iff (f : BitVec 2) : chipOf f = none ↔ f = 2#2 ∨ f = 3#2 := by revert f; decide

@[simp] theorem refuseUnless_eq_none {ok : Bool} {r : Refusal} : refuseUnless ok r = none ↔ ok = true := by
  cases ok <;> simp [refuseUnless]

/-- An EEPROM command is stopped exactly when one of its addresses does not exist (R71). -/
theorem eeStop_eq_none {addrs : List Nat} {s : State} :
    eeStop addrs s = none ↔ ∀ a ∈ addrs, a < s.params.eepromSize := by
  simp [eeStop]

theorem eeStop_one {a : Nat} {s : State} (h : a < s.params.eepromSize) : eeStop [a] s = none :=
  eeStop_eq_none.mpr fun b hb => by rw [List.mem_singleton.mp hb]; exact h

theorem eeStop_two {a : Nat} {s : State} (h : a + 1 < s.params.eepromSize) : eeStop [a, a + 1] s = none :=
  eeStop_eq_none.mpr fun b hb => by
    rcases List.mem_cons.mp hb with rfl | hb
    · omega
    · rw [List.mem_singleton.mp hb]; exact h

theorem eeStop_one_outside {a : Nat} {s : State} (h : ¬ a < s.params.eepromSize) :
    eeStop [a] s = some (.fault (.eeOutOfRange a)) := by
  simp [eeStop, h]

theorem eeStop_two_outside {a : Nat} {s : State} (h : ¬ a + 1 < s.params.eepromSize) :
    ∃ b, (b = a ∨ b = a + 1) ∧ s.params.eepromSize ≤ b ∧
      eeStop [a, a + 1] s = some (.fault (.eeOutOfRange b)) := by
  by_cases h2 : a < s.params.eepromSize
  · exact ⟨a + 1, .inr rfl, Nat.le_of_not_lt h, by simp [eeStop, h2, h]⟩
  · exact ⟨a, .inl rfl, Nat.le_of_not_lt h2, by simp [eeStop, h2]⟩

/-- A stopped command, in the words of the claims (93_implementation_defined.md section 1). -/
theorem stopped_eq (k : Kind) (r : Stop) (s : State) : stopped k r s = notSourced r (sessionAfter k) s := by
  unfold stopped unsourced notSourced
  cases hp : s.params.unsourced <;> cases r <;> rfl

end Sys2Proof.Machine
end

