-- ==== Sys2Proof/Laws/Channels.lean ====
section
/-! SUPPORT. The critical sections on the accumulators: each is one step of `channelRead` or `channelRecorded`, with
interrupts before and behind it. -/

namespace Sys2Proof.Machine

/-! ## One channel -/

/-- The floor of `sum / count` (R277). -/
theorem average_eq (sum : Word32) (count : Word16) :
    average sum count = BitVec.ofNat 32 (sum.toNat / count.toNat) := by
  apply BitVec.eq_of_toNat_eq
  have h1 := sum.isLt
  have h2 := count.isLt
  have h3 : sum.toNat / count.toNat ≤ sum.toNat := Nat.div_le_self _ _
  simp only [average, BitVec.toNat_udiv, BitVec.toNat_setWidth, BitVec.zeroExtend, BitVec.toNat_ofNat]
  rw [Nat.mod_eq_of_lt (show count.toNat < 2 ^ 32 by omega), Nat.mod_eq_of_lt (by omega)]

theorem setAcc_accOf (ch : BitVec 4) (s : State) : setAcc ch (accOf s ch) s = s := by
  have h : (setAcc ch (accOf s ch) s).adc.acc = s.adc.acc := by
    apply acc_ext
    intro d
    by_cases hd : d = ch
    · subst hd; rw [accOf_setAcc_same]
    · rw [accOf_setAcc_other _ _ hd]
  obtain ⟨d, sp, ⟨ac, le, ini, rc, ip⟩, g, hv, m, p, e⟩ := s
  simp only [setAcc] at h ⊢
  rw [h]

theorem accOf_arrivals (s : State) (ch : BitVec 4) : accOf (arrivals s) ch = accOf s ch := by
  obtain ⟨p, w, line, h⟩ := arrivals_eq s
  rw [h]; rfl

theorem draws_arrivals (s : State) : (arrivals s).env.draws = s.env.draws := by
  obtain ⟨p, w, line, h⟩ := arrivals_eq s
  rw [h]

theorem params_arrivals (s : State) : (arrivals s).params = s.params := by
  obtain ⟨p, w, line, h⟩ := arrivals_eq s
  rw [h]

/-- `channelRead` as an update of accumulators and draws. -/
theorem channelRead_eq (rst : Bool) (ch : BitVec 4) (u : State) :
    channelRead rst ch u = { u with
      adc := { u.adc with acc := (channelRead rst ch u).adc.acc }
      env := { u.env with draws := (channelRead rst ch u).env.draws } } := rfl

theorem accOf_channelRead (rst : Bool) (ch d : BitVec 4) (u : State) :
    accOf (channelRead rst ch u) d =
      if d = ch ∧ rst = true then { accOf u d with sum := 0#32, count := 0#16 } else accOf u d := by
  unfold channelRead
  by_cases hd : d = ch
  · subst hd
    rw [accOf_setAcc_same]
    cases rst <;> simp
  · rw [accOf_setAcc_other _ _ hd]
    simp only [hd, false_and, if_false]
    rfl

@[simp] theorem channelRead_draws (rst : Bool) (ch : BitVec 4) (u : State) : (channelRead rst ch u).env.draws =
    if (accOf u ch).count = 0#16 then u.env.draws + 1 else u.env.draws := rfl

theorem channelRead_setMask (rst b : Bool) (ch : BitVec 4) (u : State) :
    channelRead rst ch (setMask b u) = setMask b (channelRead rst ch u) := rfl

theorem averageOf_congr {a b : State} {ch : BitVec 4} (h : accOf a ch = accOf b ch)
    (hd : a.env.draws = b.env.draws) : averageOf a ch = averageOf b ch := by
  simp only [averageOf, h, hd]

/-- `ReadAvgAndMaybeReset` (R277): the average, and the channel read in one step. -/
theorem readAvgAndMaybeReset_eq (ch : BitVec 4) (rst : Bool) (s : State) :
    readAvgAndMaybeReset ch rst s =
      (averageOf (arrivals s) ch, window (channelRead rst ch (arrivals s))) := by
  have hb : ∀ b u, (fun s => (accOf s ch, if rst then setAcc ch (accOf s ch).cleared s else s)) (setMask b u) =
      (((fun s => (accOf s ch, if rst then setAcc ch (accOf s ch).cleared s else s)) u).1,
        setMask b ((fun s => (accOf s ch, if rst then setAcc ch (accOf s ch).cleared s else s)) u).2) := by
    intro b u
    cases rst <;> rfl
  unfold readAvgAndMaybeReset
  rw [criticalGet_eq hb]
  generalize arrivals s = u
  have hz : (if rst then setAcc ch (accOf u ch).cleared u else u) =
      setAcc ch { accOf u ch with
        sum := (if rst then 0#32 else (accOf u ch).sum),
        count := (if rst then 0#16 else (accOf u ch).count) } u := by
    cases rst
    · exact (setAcc_accOf ch u).symm
    · rfl
  simp only [hz, average_eq]
  by_cases hc : (accOf u ch).count = 0#16
  · rw [if_pos hc]
    have hd : ∀ x : State, countDraw (window x) = window (countDraw x) :=
      fun x => (unseen_draws (fun n => n + 1)).window x
    rw [hd, window_draws]
    refine Prod.ext ?_ (congrArg window ?_)
    · simp only [averageOf, hc, if_true]; rfl
    · unfold channelRead
      rw [if_pos hc]
      rfl
  · rw [if_neg hc]
    refine Prod.ext ?_ (congrArg window ?_)
    · simp only [averageOf, hc, if_false]
    · unfold channelRead
      rw [if_neg hc]

theorem readAvgAndMaybeReset_interleaved {steps : List (State → State)} {s t : State} (ch : BitVec 4) (rst : Bool)
    (h : Interleaved steps s t) :
    Interleaved (steps ++ [channelRead rst ch]) s (readAvgAndMaybeReset ch rst t).2 := by
  rw [readAvgAndMaybeReset_eq]
  exact (h.extend (arrivals_interrupts t)).prim _

/-- The recording of one channel (R276) is one step, though its section holds another. -/
theorem recordOffset_eq (s : State) (ch : BitVec 4) :
    recordOffset s ch = window (channelRecorded ch (arrivals (arrivals (arrivals s)))) := by
  have hm : (arrivals s).irqMasked = s.irqMasked := (arrivals_interrupts s).only.irqMasked
  have hr : (readAvgAndMaybeReset ch s.params.rstOnOffsetRecord (setMask true (arrivals s))) =
      (averageOf (arrivals (arrivals (arrivals s))) ch,
        setMask true (channelRead s.params.rstOnOffsetRecord ch (arrivals (arrivals (arrivals s))))) := by
    rw [readAvgAndMaybeReset_eq, arrivals_setMask, channelRead_setMask, window_masked]
    generalize arrivals (arrivals s) = v
    refine Prod.ext ?_ (congrArg (setMask true) ?_)
    · exact averageOf_congr ((accOf_arrivals v ch).symm) (draws_arrivals v).symm
    · rw [channelRead_eq, arrivals_acc, channelRead_eq _ _ (arrivals v)]
      have ha : (channelRead s.params.rstOnOffsetRecord ch (arrivals v)).adc.acc =
          (channelRead s.params.rstOnOffsetRecord ch v).adc.acc := by
        apply acc_ext
        intro d
        simp only [accOf_channelRead, accOf_arrivals]
      rw [ha, channelRead_draws, channelRead_draws, accOf_arrivals, draws_arrivals]
  have hk : (arrivals (arrivals (arrivals s))).irqMasked = s.irqMasked :=
    ((arrivals_interrupts _).only.irqMasked.trans (arrivals_interrupts _).only.irqMasked).trans hm
  unfold recordOffset critical
  rw [prim_eq]
  simp only [prim_eq, window_masked, setMask_params, params_arrivals, hr]
  refine congrArg window ?_
  unfold channelRecorded
  rw [params_arrivals, params_arrivals, params_arrivals]
  generalize hx : channelRead s.params.rstOnOffsetRecord ch (arrivals (arrivals (arrivals s))) = x
  have hxm : x.irqMasked = s.irqMasked := by rw [← hx]; exact hk
  generalize averageOf (arrivals (arrivals (arrivals s))) ch = v
  have : setMask s.irqMasked (setAcc ch { accOf (setMask true x) ch with offset := v } (setMask true x)) =
      setAcc ch { accOf x ch with offset := v } (setMask s.irqMasked x) := rfl
  rw [this, setMask_self hxm]

theorem recordOffset_interleaved {steps : List (State → State)} {s t : State} (ch : BitVec 4)
    (h : Interleaved steps s t) : Interleaved (steps ++ [channelRecorded ch]) s (recordOffset t ch) := by
  rw [recordOffset_eq]
  exact (((h.extend (arrivals_interrupts _)).extend (arrivals_interrupts _)).extend
    (arrivals_interrupts _)).prim _

theorem accOf_channelRecorded (ch d : BitVec 4) (u : State) :
    accOf (channelRecorded ch u) d =
      if d = ch then { accOf (channelRead u.params.rstOnOffsetRecord ch u) ch with offset := averageOf u ch }
      else accOf u d := by
  unfold channelRecorded
  by_cases hd : d = ch
  · subst hd; rw [accOf_setAcc_same, if_pos rfl]
  · rw [accOf_setAcc_other _ _ hd, if_neg hd, accOf_channelRead, if_neg (fun h => hd h.1)]

/-! ## The loops -/

theorem allChannels_eq : allChannels = (List.range 16).map (BitVec.ofNat 4) := by decide

theorem mem_allChannels (ch : BitVec 4) : ch ∈ allChannels := by revert ch; decide

theorem foldl_interleaved {α : Type} {g : State → α → State} {step : α → State → State}
    (hg : ∀ {steps : List (State → State)} {s t : State} (a : α), Interleaved steps s t →
      Interleaved (steps ++ [step a]) s (g t a))
    (l : List α) {steps : List (State → State)} {s t : State} (h : Interleaved steps s t) :
    Interleaved (steps ++ l.map step) s (l.foldl g t) := by
  induction l generalizing steps t with
  | nil => rw [List.map_nil, List.append_nil]; exact h
  | cons a l ih =>
    have := ih (hg a h)
    rwa [List.append_assoc, List.singleton_append] at this

/-- The zeroing of all channels (R290, R292). -/
theorem zeroAllIf_interleaved (rst : Bool) (s : State) :
    Interleaved (if rst then (List.range 16).map (fun n => channelRead true (BitVec.ofNat 4 n)) else []) s
      (zeroAllIf rst s) := by
  unfold zeroAllIf
  cases rst
  · exact Interrupts.refl s
  · have h := foldl_interleaved (g := fun s ch => (readAvgAndMaybeReset ch true s).2) (step := channelRead true)
      (fun ch h => readAvgAndMaybeReset_interleaved ch true h) allChannels (Interleaved.nil (Interrupts.refl s))
    rw [allChannels_eq, List.map_map] at h
    rw [allChannels_eq]
    exact h

theorem hvOn_interleaved (s : State) :
    Interleaved ((if s.params.rstOnHvOn then
        (List.range 16).map (fun n => channelRead true (BitVec.ofNat 4 n)) else []) ++
      [latchWrite .hvEn true]) s (hvOn s) :=
  (zeroAllIf_interleaved s.params.rstOnHvOn s).prim _

theorem enableSafety_interleaved (s : State) :
    Interleaved ((if s.params.rstOnSafetyEn then
        (List.range 16).map (fun n => channelRead true (BitVec.ofNat 4 n)) else []) ++
      [setSafetyEn]) s (enableSafety s) :=
  critical_interleaved (fun _ _ => rfl) (zeroAllIf_interleaved s.params.rstOnSafetyEn s)

theorem recordOffsets_interleaved (s : State) :
    Interleaved ((List.range 16).map (fun n => channelRecorded (BitVec.ofNat 4 n)) ++ [setOffsetValid]) s
      (recordOffsets s) := by
  have h := foldl_interleaved (g := recordOffset) (step := channelRecorded)
    (fun ch h => recordOffset_interleaved ch h) allChannels (Interleaved.nil (Interrupts.refl s))
  rw [List.nil_append, allChannels_eq, List.map_map] at h
  unfold recordOffsets
  rw [allChannels_eq]
  exact critical_interleaved (fun _ _ => rfl) h

theorem setMaxCurrent_interleaved (uA : Word16) (s : State) :
    Interleaved [putMaxCurrent uA] s (setMaxCurrent uA s) :=
  critical_interleaved (steps := []) (fun _ _ => rfl) (Interrupts.refl s)

/-- `ADC_STOP` (R273): behind it the machine is quiet. -/
theorem stopLoop_eq (s : State) : stopLoop s = clearLoop (arrivals s) :=
  (critical_eq (body := clearLoop) (fun _ _ => rfl) s).trans (window_quiet ⟨rfl, rfl⟩)

theorem reportAverage_eq (ch : BitVec 4) (s : State) :
    reportAverage ch s = respondBig (avg16 (averageOf (arrivals s) ch))
      (window (channelRead s.params.rstOnAvgRead ch (arrivals s))) := by
  unfold reportAverage
  rw [readAvgAndMaybeReset_eq]

theorem reportOffset_eq (ch : BitVec 4) (s : State) :
    reportOffset ch s = respondBig (avg16 (accOf s ch).offset) (window (arrivals s)) := by
  unfold reportOffset
  rw [criticalGet_eq (fun _ _ => rfl), accOf_arrivals]

end Sys2Proof.Machine
end

