-- ==== Sys2Proof/Laws/Eeprom.lean ====
section
/-! SUPPORT. What the EEPROM operations and the handlers made of them do, said once. -/

namespace Sys2Proof.Machine

/-! ## The array -/

/-- The contents after `EeWriteIfChanged` (R74). -/
def Memory.writeIfChanged (m : Memory) (a : Nat) (v : Byte) : Memory := if m.read a = v then m else m.write a v

/-- The accesses of `EeWriteIfChanged` (R74). -/
def Memory.writeAccesses (m : Memory) (a : Nat) (v : Byte) : List Event :=
  .eeRead a (m.read a) :: if m.read a = v then [] else [.eeProgram a v]

/-- After `EeWriteIfChanged(a, v)`, `EE[a] = v` in both branches, and every other byte is unchanged (R74). -/
theorem Memory.read_writeIfChanged (m : Memory) (a x : Nat) (v : Byte) :
    (m.writeIfChanged a v).read x = if x = a then v else m.read x := by
  unfold Memory.writeIfChanged
  split
  · rename_i h
    split
    · rename_i hx; rw [hx, h]
    · rfl
  · exact Memory.read_write m a x v

theorem Memory.wf_writeIfChanged {m : Memory} (a : Nat) (v : Byte) (h : m.wf = true) :
    (m.writeIfChanged a v).wf = true := by
  unfold Memory.writeIfChanged
  split
  · exact h
  · exact Memory.wf_write a v h

theorem Memory.mem_writeIfChanged {m : Memory} {a : Nat} {v : Byte} {c : Host.Cell}
    (h : c ∈ m.writeIfChanged a v) : c = (a, v) ∨ c ∈ m := by
  unfold Memory.writeIfChanged at h
  split at h
  · exact .inr h
  · exact Memory.mem_write h

@[simp] theorem interrupt_writeAccesses (m : Memory) (a : Nat) (v : Byte) : interrupt (m.writeAccesses a v) = [] := by
  unfold Memory.writeAccesses
  split <;> rfl

/-- The contents after zero-filling these addresses (R77). -/
def Memory.erase (m : Memory) (addrs : List Nat) : Memory := addrs.foldl (fun m a => m.writeIfChanged a 0x00#8) m

/-- The accesses of zero-filling these addresses (R77). -/
def Memory.eraseAccesses : Memory → List Nat → List Event
  | _, [] => []
  | m, a :: rest => m.writeAccesses a 0x00#8 ++ Memory.eraseAccesses (m.writeIfChanged a 0x00#8) rest

theorem Memory.read_erase (addrs : List Nat) (m : Memory) (x : Nat) :
    (m.erase addrs).read x = if x ∈ addrs then 0x00#8 else m.read x := by
  induction addrs generalizing m with
  | nil => simp [Memory.erase]
  | cons a rest ih =>
    have := ih (m.writeIfChanged a 0x00#8)
    simp only [Memory.erase] at this
    simp only [Memory.erase, List.foldl_cons, this, Memory.read_writeIfChanged, List.mem_cons]
    by_cases h1 : x ∈ rest <;> by_cases h2 : x = a <;> simp [h1, h2]

theorem Memory.wf_erase (addrs : List Nat) {m : Memory} (h : m.wf = true) : (m.erase addrs).wf = true := by
  induction addrs generalizing m with
  | nil => exact h
  | cons a rest ih => exact ih (Memory.wf_writeIfChanged a _ h)

theorem Memory.mem_erase {addrs : List Nat} {m : Memory} {c : Host.Cell} (h : c ∈ m.erase addrs) :
    c.1 ∈ addrs ∨ c ∈ m := by
  induction addrs generalizing m with
  | nil => exact .inr h
  | cons a rest ih =>
    rcases ih h with h | h
    · exact .inl (List.mem_cons_of_mem _ h)
    · rcases Memory.mem_writeIfChanged h with rfl | h
      · exact .inl List.mem_cons_self
      · exact .inr h

theorem programCount_append (a b : List Event) : programCount (a ++ b) = programCount a + programCount b := by
  simp [programCount]

theorem programCount_cons (e : Event) (evs : List Event) :
    programCount (e :: evs) = programCount [e] + programCount evs := programCount_append [e] evs

/-- The `ISR` programs no byte. -/
theorem programCount_foreground (evs : List Event) : programCount (foreground evs) = programCount evs := by
  induction evs with
  | nil => rfl
  | cons e evs ih =>
    rw [foreground_cons, programCount_cons e evs, ← ih]
    cases h : byInterrupt e
    · exact programCount_cons e _
    · cases e <;> first | (cases h; done) | exact (Nat.zero_add _).symm
/-- One physical write for each byte that is not zero already (R77). -/
theorem programCount_eraseAccesses (addrs : List Nat) (h : addrs.Nodup) (m : Memory) :
    programCount (m.eraseAccesses addrs) = addrs.countP (fun a => m.read a != 0x00#8) := by
  induction addrs generalizing m with
  | nil => rfl
  | cons a rest ih =>
    obtain ⟨ha, hr⟩ := List.nodup_cons.mp h
    have hc : rest.countP (fun x => (m.writeIfChanged a 0x00#8).read x != 0x00#8) =
        rest.countP (fun x => m.read x != 0x00#8) := by
      apply List.countP_congr
      intro x hx
      have : x ≠ a := fun e => ha (e ▸ hx)
      rw [Memory.read_writeIfChanged, if_neg this]
    rw [Memory.eraseAccesses, programCount_append, ih hr, hc, List.countP_cons]
    unfold Memory.writeAccesses
    by_cases hz : m.read a = 0x00#8 <;> simp [programCount, hz, Nat.add_comm]

/-! ## The steps -/

theorem eeReadStep_does (a : Nat) (s : State) :
    Does s (eeReadStep a s).2 (foregroundPart s) [.eeRead a (eeRead a s)] :=
  prim_emit_does rfl s

@[simp] theorem eeReadStep_fst (a : Nat) (s : State) : (eeReadStep a s).1 = eeRead a s := rfl

theorem eeProgram_does (a : Nat) (v : Byte) (s : State) :
    Does s (eeProgram a v s) { foregroundPart s with ee := s.env.ee.write a v } [.eeProgram a v] :=
  have hi : interruptPart (programByte a v s) = interruptPart s := by simp [interruptPart]
  prim_does hi (programByte_env_trace a v s) rfl

theorem eeRead_of_part {s : State} {p : ForegroundPart} (h : foregroundPart s = p) (a : Nat) :
    eeRead a s = p.ee.read a := by rw [← h]; rfl

/-- `EeWriteIfChanged` (R74): it programs the byte or changes nothing. -/
theorem eeWriteIfChanged_does (a : Nat) (v : Byte) (s : State) :
    Does s (eeWriteIfChanged a v s) { foregroundPart s with ee := s.env.ee.writeIfChanged a v }
      (s.env.ee.writeAccesses a v) := by
  have h := eeReadStep_does a s
  unfold eeWriteIfChanged Memory.writeIfChanged Memory.writeAccesses
  simp only [eeReadStep_fst, eeRead]
  by_cases hv : s.env.ee.read a = v
  · simp only [hv, bne_self_eq_false, Bool.false_eq_true, if_false, if_true]
    exact hv ▸ h
  · have hb : (s.env.ee.read a != v) = true := by simpa using hv
    have hee : (eeReadStep a s).2.env.ee = s.env.ee := congrArg ForegroundPart.ee h.part
    have k := eeProgram_does a v (eeReadStep a s).2
    rw [h.part, hee] at k
    simp only [hb, if_true, hv, if_false]
    exact h.trans k

theorem eeRead_eeWriteIfChanged (a x : Nat) (v : Byte) (s : State) :
    eeRead x (eeWriteIfChanged a v s) = if x = a then v else eeRead x s := by
  rw [eeRead_of_part (eeWriteIfChanged_does a v s).part]
  exact Memory.read_writeIfChanged ..

/-- `EeReadWord` (R75): two reads, high byte first. -/
theorem eeReadWord_does (a : Nat) (s : State) :
    (eeReadWord a s).1 = joinBytes (eeRead a s) (eeRead (a + 1) s) ∧
      Does s (eeReadWord a s).2 (foregroundPart s)
        [.eeRead a (eeRead a s), .eeRead (a + 1) (eeRead (a + 1) s)] := by
  have h := eeReadStep_does a s
  have k := eeReadStep_does (a + 1) (eeReadStep a s).2
  rw [h.part, eeRead_of_part h.part] at k
  refine ⟨?_, h.trans k⟩
  simp only [eeReadWord, eeReadStep_fst, eeRead_of_part h.part]
  rfl

/-- `EeWriteWordIfChanged` (R76): two byte writes. -/
theorem eeWriteWordIfChanged_does (a : Nat) (hi lo : Byte) (s : State) :
    Does s (eeWriteWordIfChanged a hi lo s)
      { foregroundPart s with ee := (s.env.ee.writeIfChanged a hi).writeIfChanged (a + 1) lo }
      (s.env.ee.writeAccesses a hi ++ (s.env.ee.writeIfChanged a hi).writeAccesses (a + 1) lo) := by
  have h := eeWriteIfChanged_does a hi s
  have k := eeWriteIfChanged_does (a + 1) lo (eeWriteIfChanged a hi s)
  have hee : (eeWriteIfChanged a hi s).env.ee = _ := congrArg ForegroundPart.ee h.part
  rw [h.part, hee] at k
  exact h.trans k

theorem eraseLoop_does (addrs : List Nat) (s : State) :
    Does s (addrs.foldl (fun s a => eeWriteIfChanged a 0x00#8 s) s)
      { foregroundPart s with ee := s.env.ee.erase addrs } (s.env.ee.eraseAccesses addrs) := by
  induction addrs generalizing s with
  | nil => exact Does.refl s
  | cons a rest ih =>
    have h := eeWriteIfChanged_does a 0x00#8 s
    have k := ih (eeWriteIfChanged a 0x00#8 s)
    have hee : (eeWriteIfChanged a 0x00#8 s).env.ee = _ := congrArg ForegroundPart.ee h.part
    rw [h.part, hee] at k
    exact h.trans k

/-- `EeEraseRegion` (R77). -/
theorem eeEraseRegion_does (start len : Nat) (s : State) :
    Does s (eeEraseRegion start len s)
      { foregroundPart s with ee := s.env.ee.erase (List.range' start len) }
      (s.env.ee.eraseAccesses (List.range' start len)) :=
  eraseLoop_does _ s

/-! ## The passthrough handlers -/

theorem reportByte_does (a : Nat) (s : State) :
    Does s (reportByte a s)
      { foregroundPart s with
        disp := { s.disp with tx := overlay [eeRead a s, 0x00#8] s.disp.tx, txLen := 2 } }
      [.eeRead a (eeRead a s)] := by
  have h := eeReadStep_does a s
  have k := respond_does [eeRead a s, 0x00#8] (eeReadStep a s).2
  have hd : (eeReadStep a s).2.disp = s.disp := congrArg ForegroundPart.disp h.part
  rw [h.part, hd] at k
  exact (h.trans k).cast rfl (List.append_nil _)

theorem reportWord_does (a : Nat) (s : State) :
    Does s (reportWord a s)
      { foregroundPart s with
        disp := { s.disp with tx := overlay [eeRead (a + 1) s, eeRead a s] s.disp.tx, txLen := 2 } }
      [.eeRead a (eeRead a s), .eeRead (a + 1) (eeRead (a + 1) s)] := by
  obtain ⟨hv, h⟩ := eeReadWord_does a s
  have k := respond_does [eeRead (a + 1) s, eeRead a s] (eeReadWord a s).2
  have hd : (eeReadWord a s).2.disp = s.disp := congrArg ForegroundPart.disp h.part
  rw [h.part, hd] at k
  unfold reportWord respondLittle
  simp only [hv, loByte_joinBytes, hiByte_joinBytes]
  exact (h.trans k).cast rfl (List.append_nil _)

/-! ## `DEV_ID` -/

/-- The loop that copies the serial number into `tx` (R166). -/
theorem copyLoop_does (n : Nat) (s : State) :
    Does s ((List.range n).foldl copySerialByte s)
      { foregroundPart s with
        disp := { s.disp with
          tx := overlayFrom 1 ((List.range n).map (fun k => eeRead (k + 1) s)) s.disp.tx } }
      ((List.range n).map (fun k => .eeRead (k + 1) (eeRead (k + 1) s))) := by
  have key : ∀ (ks : List Nat) (i : Nat) (s : State), ks = List.range' i ks.length →
      Does s (ks.foldl copySerialByte s)
        { foregroundPart s with
          disp := { s.disp with tx := overlayFrom (i + 1) (ks.map (fun k => eeRead (k + 1) s)) s.disp.tx } }
        (ks.map (fun k => .eeRead (k + 1) (eeRead (k + 1) s))) := by
    intro ks
    induction ks with
    | nil => exact fun _ s _ => Does.refl s
    | cons k ks ih =>
      intro i s hk
      rw [List.length_cons, List.range'_succ] at hk
      obtain ⟨rfl, hk⟩ := List.cons.inj hk
      have h1 := eeReadStep_does (k + 1) s
      have h2 := putTx_does (k + 1) (eeRead (k + 1) s) (eeReadStep (k + 1) s).2
      have hd : (eeReadStep (k + 1) s).2.disp = s.disp := congrArg ForegroundPart.disp h1.part
      rw [h1.part, hd] at h2
      have h := h1.trans h2
      have h3 := ih (k + 1) (copySerialByte s k) hk
      have hp : foregroundPart (copySerialByte s k) = _ := h.part
      have hd3 : (copySerialByte s k).disp = _ := congrArg ForegroundPart.disp hp
      have he : ∀ x, eeRead x (copySerialByte s k) = eeRead x s := fun x => eeRead_of_part hp x
      rw [hp, hd3] at h3
      simp only [he] at h3
      exact h.trans h3
  have h := key (List.range n) 0 s (by simp [List.range_eq_range'])
  exact h

theorem overlayFrom_append {α : Type} {n : Nat} (a b : List α) (k : Nat) (v : Vector α n) :
    overlayFrom k (a ++ b) v = overlayFrom (k + a.length) b (overlayFrom k a v) := by
  induction a generalizing k v with
  | nil => rfl
  | cons x a ih =>
    simp only [List.cons_append, overlayFrom, ih, List.length_cons]
    congr 1
    omega

/-- The response of `DEV_ID` (R166). -/
theorem reportSerial_does (l : Byte) (s : State) :
    Does s (reportSerial l s)
      { foregroundPart s with
        disp := { s.disp with
          tx := overlay (l :: (List.range l.toNat).map (fun k => eeRead (k + 1) s)) s.disp.tx,
          txLen := 1 + l.toNat } }
      ((List.range l.toNat).map (fun k => .eeRead (k + 1) (eeRead (k + 1) s))) := by
  have h1 := putTx_does 0 l s
  have h2 := copyLoop_does l.toNat (prim (putTx 0 l) s)
  have hd1 : (prim (putTx 0 l) s).disp = _ := congrArg ForegroundPart.disp h1.part
  have he : ∀ x, eeRead x (prim (putTx 0 l) s) = eeRead x s := fun x => eeRead_of_part h1.part x
  rw [h1.part, hd1] at h2
  simp only [he] at h2
  have h12 := h1.trans h2
  have h3 := setTxLen_does (1 + l.toNat) ((List.range l.toNat).foldl copySerialByte (prim (putTx 0 l) s))
  have hd2 : ((List.range l.toNat).foldl copySerialByte (prim (putTx 0 l) s)).disp = _ :=
    congrArg ForegroundPart.disp h12.part
  rw [h12.part, hd2] at h3
  exact (h12.trans h3).cast rfl (by simp)

/-- `reportDeviceId` as one choice (R166); unfold it no further, the erase loop is long. -/
theorem reportDeviceId_eq (s : State) : reportDeviceId s =
    if serialLength s = Config.erased then
      reportSerial 0x00#8 (eeEraseRegion 0 Config.serialRegion (eeReadStep 0 s).2)
    else reportSerial (serialLength s) (eeReadStep 0 s).2 :=
  rfl

/-- `DEV_ID` on a device that is not erased (R166). -/
theorem reportDeviceId_serial {s : State} (h : serialLength s ≠ Config.erased) :
    Does s (reportDeviceId s)
      { foregroundPart s with
        disp := { s.disp with
          tx := overlay (serialLength s :: (List.range (serialLength s).toNat).map (fun k => eeRead (k + 1) s))
            s.disp.tx,
          txLen := 1 + (serialLength s).toNat } }
      (.eeRead 0 (eeRead 0 s) ::
        (List.range (serialLength s).toNat).map (fun k => .eeRead (k + 1) (eeRead (k + 1) s))) := by
  rw [reportDeviceId_eq, if_neg h]
  have h1 := eeReadStep_does 0 s
  have h2 := reportSerial_does (serialLength s) (eeReadStep 0 s).2
  have hd : (eeReadStep 0 s).2.disp = s.disp := congrArg ForegroundPart.disp h1.part
  have he : ∀ x, eeRead x (eeReadStep 0 s).2 = eeRead x s := fun x => eeRead_of_part h1.part x
  rw [h1.part, hd] at h2
  simp only [he] at h2
  exact h1.trans h2

/-- `DEV_ID` on an erased device (R166, R321). -/
theorem reportDeviceId_erased {s : State} (h : serialLength s = Config.erased) :
    Does s (reportDeviceId s)
      { foregroundPart s with
        disp := { s.disp with tx := overlay [0x00#8] s.disp.tx, txLen := 1 }
        ee := s.env.ee.erase (List.range' 0 Config.serialRegion) }
      (.eeRead 0 (eeRead 0 s) :: s.env.ee.eraseAccesses (List.range' 0 Config.serialRegion)) := by
  rw [reportDeviceId_eq, if_pos h]
  have h1 := eeReadStep_does 0 s
  have h2 := eeEraseRegion_does 0 Config.serialRegion (eeReadStep 0 s).2
  generalize List.range' 0 Config.serialRegion = addrs at *
  have hee : (eeReadStep 0 s).2.env.ee = s.env.ee := congrArg ForegroundPart.ee h1.part
  rw [h1.part, hee] at h2
  have h12 := h1.trans h2
  generalize eeEraseRegion 0 Config.serialRegion (eeReadStep 0 s).2 = u at *
  have h3 := reportSerial_does 0x00#8 u
  have hd : u.disp = s.disp := congrArg ForegroundPart.disp h12.part
  rw [h12.part, hd] at h3
  exact (h12.trans h3).cast rfl (by simp)

end Sys2Proof.Machine
end

