-- ==== Sys2Proof/Laws/Exec.lean ====
section
/-! SUPPORT. Every command but `RESET` is one handler run by the shared `command`: the equation later proofs
cite instead of unfolding `exec`. -/

namespace Sys2Proof.Machine

/-- The chip of a chip field, bottom for a code without one (the command is then stopped). -/
def chipOr (f : BitVec 2) : Chip := (chipOf f).getD .bottom

/-- The condition under which the spec refuses a command. -/
def stopOf (i : Instr) (s : State) : Option Stop :=
  match i with
  | .eeRdb a => eeStop [address16 a] s
  | .eeRdw a8 => eeStop [address8 a8, address8 a8 + 1] s
  | .eeWrb a _ => eeStop [address16 a] s
  | .eeWrw a8 _ _ => eeStop [address8 a8, address8 a8 + 1] s
  | .musicLoad f => refuseUnless (chipOf f).isSome .badChipId
  | .musicPrint f => (refuseUnless (chipOf f).isSome .badChipId).or (mapStop (chipOr f) s)
  | .musicApply f => (refuseUnless (chipOf f).isSome .badChipId).or
      ((mapStop (chipOr f) s).or (spiStop ((mapEntries (chipOr f) s).map MapEntry.addr) s))
  | .musicRd f a => (refuseUnless (chipOf f).isSome .badChipId).or (spiStop [a] s)
  | .musicWr f a _ => (refuseUnless (chipOf f).isSome .badChipId).or (spiStop [a] s)
  | .devId => refuseUnless (serialLengthKnown s) .serialTooLong
  | .reset | .ledOn | .ledOff | .p3v3On | .p3v3Off | .p5vOn | .p5vOff | .pallOn | .pallOff => none
  | .tempSipm | .tempUc | .musicSpiInit => none
  | .adcRate _ | .adcInit | .adcStart | .adcStop | .adcRdavg _ | .adcRdall | .adcRecoff | .adcRdoff _ => none
  | .hvOn | .hvOff | .hvsafeEn | .hvStat | .hvSetmax _ => none

/-- The handler of a command. -/
def handler (i : Instr) : State → State :=
  match i with
  | .reset => resetBlock
  | .ledOn => gpioWrite .led true
  | .ledOff => gpioWrite .led false
  | .p3v3On => gpioWrite .en3v3 true
  | .p3v3Off => gpioWrite .en3v3 false
  | .p5vOn => gpioWrite .en5v true
  | .p5vOff => gpioWrite .en5v false
  | .pallOn => fun s => gpioWrite .en5v true (gpioWrite .en3v3 true s)
  | .pallOff => fun s => gpioWrite .en5v false (gpioWrite .en3v3 false s)
  | .tempSipm => reportAnalog .sipmTherm
  | .tempUc => reportAnalog .ucTemp
  | .eeRdb a => reportByte (address16 a)
  | .eeRdw a8 => reportWord (address8 a8)
  | .eeWrb a v => eeWriteIfChanged (address16 a) v
  | .eeWrw a8 hi lo => eeWriteWordIfChanged (address8 a8) hi lo
  | .musicSpiInit => spiInit
  | .musicLoad f => loadMap (chipOr f)
  | .musicPrint f => printMap (chipOr f)
  | .musicApply f => applyMap (chipOr f)
  | .musicRd f a => reportRegister (chipOr f) a
  | .musicWr f a d => spiWriteVerified (chipOr f) a d
  | .adcRate code => setRate code
  | .adcInit => initAdc
  | .adcStart => prim setLoopEn
  | .adcStop => stopLoop
  | .adcRdavg ch => reportAverage ch
  | .adcRdall => id
  | .adcRecoff => recordOffsets
  | .adcRdoff ch => reportOffset ch
  | .hvOn => hvOn
  | .hvOff => gpioWrite .hvEn false
  | .hvsafeEn => enableSafety
  | .hvStat => reportHv
  | .hvSetmax uA => setMaxCurrent uA
  | .devId => reportDeviceId

theorem onChip_command (k : Kind) (f : BitVec 2) (s : State) (stop : Chip → Option Stop)
    (h : Chip → State → State) :
    onChip k f s (fun c => command k (stop c) (h c) s) =
      command k ((refuseUnless (chipOf f).isSome .badChipId).or (stop (chipOr f))) (h (chipOr f)) s := by
  unfold onChip chipOr
  cases chipOf f <;> rfl

theorem execMusicLoad_eq (f : BitVec 2) (s : State) : execMusicLoad f s =
    command .writeOnly (stopOf (.musicLoad f) s) (handler (.musicLoad f)) s := by
  unfold execMusicLoad
  rw [onChip_command .writeOnly f s (fun _ => none) loadMap, Option.or_none]
  rfl

theorem execMusicPrint_eq (f : BitVec 2) (s : State) : execMusicPrint f s =
    command .writeOnly (stopOf (.musicPrint f) s) (handler (.musicPrint f)) s := by
  unfold execMusicPrint
  rw [onChip_command .writeOnly f s (fun c => mapStop c s) printMap]
  rfl

theorem execMusicApply_eq (f : BitVec 2) (s : State) : execMusicApply f s =
    command .writeOnly (stopOf (.musicApply f) s) (handler (.musicApply f)) s := by
  unfold execMusicApply
  rw [onChip_command .writeOnly f s
    (fun c => (mapStop c s).or (spiStop ((mapEntries c s).map MapEntry.addr) s)) applyMap]
  rfl

theorem execMusicRd_eq (f : BitVec 2) (a : Byte) (s : State) : execMusicRd f a s =
    command .writeThenRead (stopOf (.musicRd f a) s) (handler (.musicRd f a)) s := by
  unfold execMusicRd
  rw [onChip_command .writeThenRead f s (fun _ => spiStop [a] s) (fun c => reportRegister c a)]
  rfl

theorem execMusicWr_eq (f : BitVec 2) (a : Byte) (d : Word16) (s : State) : execMusicWr f a d s =
    command .writeOnly (stopOf (.musicWr f a d) s) (handler (.musicWr f a d)) s := by
  unfold execMusicWr
  rw [onChip_command .writeOnly f s (fun _ => spiStop [a] s) (fun c => spiWriteVerified c a d)]
  rfl

/-- Every command but `RESET` is its handler, run by the shared `command` (R132). -/
theorem exec_eq {i : Instr} (hi : i ≠ .reset) (s : State) :
    exec i s = command i.kind (stopOf i s) (handler i) s := by
  cases i with
  | reset => exact absurd rfl hi
  | musicLoad f => exact execMusicLoad_eq f s
  | musicPrint f => exact execMusicPrint_eq f s
  | musicApply f => exact execMusicApply_eq f s
  | musicRd f a => exact execMusicRd_eq f a s
  | musicWr f a d => exact execMusicWr_eq f a d s
  | _ => rfl

/-- Everything a command but `RESET` can answer as a next state. -/
theorem exec_next {i : Instr} {s t : State} (hi : i ≠ .reset) (e : exec i s = .next t) :
    (stopOf i s = none ∧ t = complete i.kind (handler i (beginDispatch s))) ∨
      (stopOf i s ≠ none ∧ s.params.unsourced = .noEffect ∧ t = complete i.kind (clearResponse s)) :=
  command_next (exec_eq hi s ▸ e)

/-- A command the spec does not refuse completes. -/
theorem exec_completes {i : Instr} {s : State} (hi : i ≠ .reset) (hs : stopOf i s = none) :
    exec i s = .next (complete i.kind (handler i (beginDispatch s))) := by
  rw [exec_eq hi, hs, command_none]

/-- A command the spec refuses, in the words of the claims. -/
theorem exec_stopped {i : Instr} {s : State} {r : Stop} (hi : i ≠ .reset) (hs : stopOf i s = some r) :
    exec i s = notSourced r (sessionAfter i.kind) s := by
  rw [exec_eq hi, hs, command_some, stopped_eq]

theorem exec_reset (s : State) : exec .reset s = .next (resetBlock (beginDispatch s)) := rfl

/-- The frame in the receive buffer when all of it was delivered (R131). -/
theorem fetchFrame_full {s : State} (h : Config.rxBufSize ≤ s.disp.rxLen) :
    fetchFrame s = (⟨s.disp.rx[0], s.disp.rx[1], s.disp.rx[2], s.disp.rx[3], s.disp.rx[4]⟩, s) := by
  have hl : ∀ op, ¬ s.disp.rxLen < frameLength op := by
    intro op
    have : frameLength op ≤ 5 := by revert op; decide
    simp only [Config.rxBufSize] at h
    omega
  simp only [Config.rxBufSize] at h
  have h0 : (0 : Nat) < s.disp.rxLen := by omega
  have h1 : (1 : Nat) < s.disp.rxLen := by omega
  have h2 : (2 : Nat) < s.disp.rxLen := by omega
  have h3 : (3 : Nat) < s.disp.rxLen := by omega
  have h4 : (4 : Nat) < s.disp.rxLen := by omega
  simp only [fetchFrame, hl, if_false, frameOf, rxByte]
  simp [h0, h1, h2, h3, h4]

end Sys2Proof.Machine
end

