-- ==== Sys2Proof/Laws/Spi.lean ====
section
/-! SUPPORT. What a byte transfer and the transactions of the SPI controller do, said once. -/

namespace Sys2Proof.Machine

/-! ## The pins -/

/-- The byte assembled from the sampled bits is the byte the ASIC answered (R203). -/
theorem sampledByte_byteActivity (cpol cpha : Bool) (out answer : Byte) :
    sampledByte (byteActivity cpol cpha out answer) = answer := by
  apply BitVec.eq_of_getLsbD_eq
  intro i hi
  cases cpha <;> interval_cases i <;>
    simp [sampledByte, byteActivity, bitActivity, bitOrder, shiftSample]

/-- The pins after a byte transfer: the clock idles, `MOSI` holds bit 0, the selects and the mode stay
(R203, R204). -/
theorem latches_byteActivity (cpol cpha : Bool) (out answer : Byte) (spi : Spi) :
    (byteActivity cpol cpha out answer).foldl latchPin spi =
      { spi with sclk := cpol, mosi := out.getLsbD 0 } := by
  cases cpha <;> simp [byteActivity, bitActivity, bitOrder, latchPin]

@[simp] theorem interrupt_byteActivity (cpol cpha : Bool) (out answer : Byte) :
    interrupt (byteActivity cpol cpha out answer) = [] := by
  cases cpha <;> rfl

theorem pinStep_does {e : Event} (he : byInterrupt e = false) (s : State) :
    Does s (prim (pinStep e) s) { foregroundPart s with spi := latchPin s.spi e } [e] :=
  prim_does (f := pinStep e) (evs := [e]) (by simp [interruptPart, he]) rfl (by simp [he])

theorem drive_does (evs : List Event) (he : interrupt evs = []) (s : State) :
    Does s (drive evs s) { foregroundPart s with spi := evs.foldl latchPin s.spi } evs := by
  induction evs generalizing s with
  | nil => exact Does.refl s
  | cons e rest ih =>
    have hb : byInterrupt e = false := by
      cases hb : byInterrupt e
      · rfl
      · simp [hb] at he
    have h1 := pinStep_does hb s
    have h2 := ih (by simpa [hb] using he) (prim (pinStep e) s)
    have hs : (prim (pinStep e) s).spi = _ := congrArg ForegroundPart.spi h1.part
    rw [h1.part, hs] at h2
    exact h1.trans h2

/-! ## The ASICs' line -/

theorem TakenFrom.nil {α : Type} (line : Feed α) : TakenFrom line [] line := ⟨List.prefix_refl _, rfl⟩

/-- One input taken is the head of the line, or anything past its end (R50). -/
theorem TakenFrom.take {α : Type} (free : Nat → α) (line : Feed α) :
    TakenFrom line [(line.take free).1] (line.take free).2 := by
  obtain ⟨q, n⟩ := line
  cases q <;> simp [TakenFrom, Feed.take]

theorem TakenFrom.append {α : Type} {line mid after : Feed α} {a b : List α} (h : TakenFrom line a mid)
    (k : TakenFrom mid b after) : TakenFrom line (a ++ b) after := by
  obtain ⟨h, rfl⟩ := h
  obtain ⟨k, rfl⟩ := k
  refine ⟨?_, by simp [List.drop_drop, Nat.add_assoc]⟩
  rw [List.length_append, List.take_add]
  by_cases hl : a.length ≤ line.queued.length
  · rw [h.eq_of_length (by simp [hl])]
    exact (List.prefix_append_right_inj a).mpr k
  · have hd : line.queued.drop a.length = [] := List.drop_eq_nil_of_le (by omega)
    rw [hd, List.take_nil, List.append_nil]
    exact h.trans (List.prefix_append a b)

/-- If the inputs stand in line, they are what is taken. -/
theorem TakenFrom.queued {α : Type} {line after : Feed α} {a b rest : List α} (h : TakenFrom line a after)
    (hq : line.queued = b ++ rest) (hl : a.length = b.length) : a = b ∧ after = ⟨rest, line.taken + b.length⟩ := by
  obtain ⟨h, rfl⟩ := h
  rw [hq, hl, List.take_left] at h
  exact ⟨(h.eq_of_length hl.symm).symm, by rw [hq, hl, List.drop_left]⟩

/-- The bytes received on the SPI lines, in order. -/
def receivedBytes (evs : List Event) : List Byte :=
  evs.filterMap (fun e => match e with
    | .xfer _ _ got => some got
    | _ => none)

@[simp] theorem receivedBytes_append (a b : List Event) :
    receivedBytes (a ++ b) = receivedBytes a ++ receivedBytes b := by simp [receivedBytes]

/-! ## One byte -/

/-- The byte the ASIC answers to a transfer in state `s` (R204). -/
def answerOf (c : Chip) (m : SpiMode) (out : Byte) (s : State) : Byte := (asicAnswer c m out s).1

/-- The answers that are left in line. -/
def answersLeft (c : Chip) (m : SpiMode) (out : Byte) (s : State) : Feed Byte := (asicAnswer c m out s).2.env.miso

theorem asicAnswer_does (c : Chip) (m : SpiMode) (out : Byte) (s : State) :
    Does s (asicAnswer c m out s).2 { foregroundPart s with miso := answersLeft c m out s } [] :=
  step_does rfl (by simp) rfl

/-- `SpiXfer` (R204): the answer, and everything it changes. -/
theorem spiXfer_does (c : Chip) (m : SpiMode) (out : Byte) (s : State) :
    (spiXfer c m out s).1 = answerOf c m out s ∧
    Does s (spiXfer c m out s).2
      { foregroundPart s with
        spi := { s.spi with sclk := s.params.spiCpol, mosi := out.getLsbD 0 }
        miso := answersLeft c m out s }
      (byteActivity s.params.spiCpol (clockPhase s.params m) out (answerOf c m out s) ++
        [.xfer m out (answerOf c m out s)]) := by
  refine ⟨sampledByte_byteActivity .., ?_⟩
  have h1 := asicAnswer_does c m out s
  have h2 := drive_does (byteActivity s.params.spiCpol (clockPhase s.params m) out (answerOf c m out s))
    (interrupt_byteActivity ..) (asicAnswer c m out s).2
  rw [h1.part, latches_byteActivity] at h2
  have h12 := h1.trans h2
  have h3 : Does _ (emit [.xfer m out (answerOf c m out s)]
      (drive (byteActivity s.params.spiCpol (clockPhase s.params m) out (answerOf c m out s))
        (asicAnswer c m out s).2)) _ _ :=
    step_does (evs := [.xfer m out (answerOf c m out s)]) (by simp [interruptPart]) rfl (by simp)
  have h := h12.trans h3
  have hx : (spiXfer c m out s).2 = emit [.xfer m out (answerOf c m out s)]
      (drive (byteActivity s.params.spiCpol (clockPhase s.params m) out (answerOf c m out s))
        (asicAnswer c m out s).2) := by
    simp only [spiXfer, sampledByte_byteActivity, answerOf]
  rw [hx]
  exact h.cast h12.part (by simp)

/-! ## Transactions -/

/-- The byte-level events, the record's projection of R200. -/
def byteEvents (evs : List Event) : List Event := evs.filter byteLevel

@[simp] theorem byteEvents_append (a b : List Event) : byteEvents (a ++ b) = byteEvents a ++ byteEvents b := by
  simp [byteEvents]

@[simp] theorem byteEvents_byteActivity (cpol cpha : Bool) (out answer : Byte) :
    byteEvents (byteActivity cpol cpha out answer) = [] := by
  cases cpha <;> rfl

/-- A stretch of controller activity from `s` to `t` whose byte-level events are `bytes` (R200): it touches the
lines, the ASICs' answers and the record. -/
structure SpiRun (s t : State) (bytes : List Event) : Prop where
  does : ∃ evs, Does s t { foregroundPart s with spi := t.spi, miso := t.env.miso } evs ∧ byteEvents evs = bytes
  inited : t.spi.inited = s.spi.inited
  mismatch : t.spi.mismatch = s.spi.mismatch
  taken : TakenFrom s.env.miso (receivedBytes bytes) t.env.miso

theorem SpiRun.part {s t : State} {bytes : List Event} (h : SpiRun s t bytes) :
    foregroundPart t = { foregroundPart s with spi := t.spi, miso := t.env.miso } := by
  obtain ⟨_, h, -⟩ := h.does
  exact h.part

theorem SpiRun.params {s t : State} {bytes : List Event} (h : SpiRun s t bytes) : t.params = s.params :=
  congrArg ForegroundPart.params h.part

theorem SpiRun.trans {s t u : State} {a b : List Event} (h : SpiRun s t a) (k : SpiRun t u b) :
    SpiRun s u (a ++ b) := by
  obtain ⟨e, he, he'⟩ := h.does
  obtain ⟨f, hf, hf'⟩ := k.does
  rw [he.part] at hf
  exact ⟨⟨e ++ f, he.trans hf, by rw [byteEvents_append, he', hf']⟩, k.inited.trans h.inited,
    k.mismatch.trans h.mismatch, by rw [receivedBytes_append]; exact h.taken.append k.taken⟩

/-- What `Does` says of a stretch that touches the lines and the answers alone. -/
theorem SpiRun.ofDoes {s t : State} {spi : Spi} {miso : Feed Byte} {evs : List Event}
    (h : Does s t { foregroundPart s with spi := spi, miso := miso } evs) (hi : spi.inited = s.spi.inited)
    (hm : spi.mismatch = s.spi.mismatch) (ht : TakenFrom s.env.miso (receivedBytes (byteEvents evs)) miso) :
    SpiRun s t (byteEvents evs) := by
  have hs : t.spi = spi := congrArg ForegroundPart.spi h.part
  have hmi : t.env.miso = miso := congrArg ForegroundPart.miso h.part
  exact ⟨⟨evs, by rw [hs, hmi]; exact h, rfl⟩, by rw [hs, hi], by rw [hs, hm], by rw [hmi]; exact ht⟩

theorem spiXfer_run (c : Chip) (m : SpiMode) (out : Byte) (s : State) :
    SpiRun s (spiXfer c m out s).2 [.xfer m out (spiXfer c m out s).1] := by
  obtain ⟨hv, h⟩ := spiXfer_does c m out s
  have k := SpiRun.ofDoes h rfl rfl (by
    rw [byteEvents_append, byteEvents_byteActivity]
    exact TakenFrom.take _ _)
  rw [byteEvents_append, byteEvents_byteActivity, ← hv] at k
  exact k

theorem spiXfer_spi (c : Chip) (m : SpiMode) (out : Byte) (s : State) :
    (spiXfer c m out s).2.spi = { s.spi with sclk := s.params.spiCpol, mosi := out.getLsbD 0 } :=
  congrArg ForegroundPart.spi (spiXfer_does c m out s).2.part

theorem chipSelect_run (c : Chip) (b : Bool) (s : State) : SpiRun s (chipSelect c b s) [.csN c b] :=
  SpiRun.ofDoes (drive_does [.csN c b] rfl s) rfl rfl (TakenFrom.nil _)

theorem chipSelect_spi (c : Chip) (b : Bool) (s : State) :
    (chipSelect c b s).spi = { s.spi with csN := s.spi.csN.put c b } :=
  congrArg ForegroundPart.spi (drive_does [.csN c b] rfl s).part

theorem setSpiMode_run (m : SpiMode) (s : State) : SpiRun s (setSpiMode m s) [.setMode m] :=
  SpiRun.ofDoes (drive_does [.setMode m] rfl s) rfl rfl (TakenFrom.nil _)

theorem setSpiMode_spi (m : SpiMode) (s : State) : (setSpiMode m s).spi = { s.spi with mode := m } :=
  congrArg ForegroundPart.spi (drive_does [.setMode m] rfl s).part

theorem settle_run (s : State) : SpiRun s (settle s) [.delay 100] :=
  SpiRun.ofDoes (spi := s.spi) (miso := s.env.miso)
    (prim_emit_does (evs := [.delay 100]) rfl s) rfl rfl (TakenFrom.nil _)

theorem settle_spi (s : State) : (settle s).spi = s.spi :=
  congrArg ForegroundPart.spi (prim_emit_does (evs := [.delay 100]) rfl s).part

/-- `SpiWrite` (R208): its byte-level events and its frame. -/
theorem spiWrite_run (c : Chip) (addr : Byte) (data : Word16) (s : State) :
    ∃ x y z, SpiRun s (spiWrite c addr data s) (writeEvents c addr data x y z) :=
  ⟨_, _, _, ((((((((chipSelect_run c false s).trans (spiXfer_run c .addr addr _)).trans
    (setSpiMode_run .data _)).trans (settle_run _)).trans (spiXfer_run c .data (hiByte data) _)).trans
    (settle_run _)).trans (spiXfer_run c .data (loByte data) _)).trans (chipSelect_run c true _)).trans
    (setSpiMode_run .addr _)⟩

/-- `SpiRead` (R209): its byte-level events, its result and its frame. -/
theorem spiRead_run (c : Chip) (addr : Byte) (s : State) :
    ∃ x hi lo, (spiRead c addr s).1 = joinBytes hi lo ∧
      SpiRun s (spiRead c addr s).2 (readEvents c addr x hi lo) :=
  ⟨_, _, _, rfl, ((((((chipSelect_run c false s).trans (spiXfer_run c .addr (0x80#8 ||| addr) _)).trans
    (settle_run _)).trans (spiXfer_run c .addr 0x00#8 _)).trans (settle_run _)).trans
    (spiXfer_run c .addr 0x00#8 _)).trans (chipSelect_run c true _)⟩

/-- The lines after `SpiWrite` (R208, R212). -/
theorem spiWrite_spi (c : Chip) (addr : Byte) (data : Word16) (s : State) :
    (spiWrite c addr data s).spi =
      { s.spi with mode := .addr, csN := s.spi.csN.put c true, sclk := s.params.spiCpol,
                   mosi := data.getLsbD 0 } := by
  unfold spiWrite
  have hx : ∀ m out u, (spiXfer c m out u).2.params = u.params := fun m out u => (spiXfer_run c m out u).params
  have hc : ∀ b u, (chipSelect c b u).params = u.params := fun b u => (chipSelect_run c b u).params
  have hm : ∀ m u, (setSpiMode m u).params = u.params := fun m u => (setSpiMode_run m u).params
  have hs : ∀ u, (settle u).params = u.params := fun u => (settle_run u).params
  simp only [setSpiMode_spi, chipSelect_spi, spiXfer_spi, settle_spi, hx, hc, hm, hs]
  cases c <;> simp [PerChip.put, loByte]

/-- The lines after `SpiRead` (R209, R212). -/
theorem spiRead_spi (c : Chip) (addr : Byte) (s : State) :
    (spiRead c addr s).2.spi =
      { s.spi with csN := s.spi.csN.put c true, sclk := s.params.spiCpol, mosi := false } := by
  unfold spiRead
  have hx : ∀ m out u, (spiXfer c m out u).2.params = u.params := fun m out u => (spiXfer_run c m out u).params
  have hc : ∀ b u, (chipSelect c b u).params = u.params := fun b u => (chipSelect_run c b u).params
  have hs : ∀ u, (settle u).params = u.params := fun u => (settle_run u).params
  simp only [chipSelect_spi, spiXfer_spi, settle_spi, hx, hc, hs]
  cases c <;> simp [PerChip.put]

/-! ## The verified write -/

/-- The report of a verified write (R210): what it leaves and what it logs. -/
theorem reportMismatch_does (c : Chip) (addr : Byte) (data r : Word16) (s : State) :
    Does s (reportMismatch c addr data r s)
      { foregroundPart s with spi := { s.spi with mismatch := s.spi.mismatch || decide (r ≠ data) } }
      (if r = data then [] else [.debugMismatch c addr data r]) := by
  unfold reportMismatch readBackDiffers
  by_cases h : r = data
  · simp only [h, bne_self_eq_false, Bool.false_eq_true, if_false, if_true]
    exact (Does.refl s).cast (by simp [foregroundPart]) rfl
  · have hb : (r != data) = true := by simpa using h
    have h1 : Does s (prim setMismatch s) _ [] := prim_does (f := setMismatch) rfl (by simp) rfl
    have h2 := prim_emit_does (evs := [.debugMismatch c addr data r]) rfl (prim setMismatch s)
    rw [h1.part] at h2
    simp only [hb, if_true, h, if_false]
    refine (h1.trans h2).cast ?_ rfl
    simp [foregroundPart, h]

/-- What a stretch of verified writes leaves as it was. -/
structure SpiFrame (s t : State) : Prop where
  part : foregroundPart t = { foregroundPart s with spi := t.spi, miso := t.env.miso }
  inited : t.spi.inited = s.spi.inited
  beside : Beside s t

theorem verifiedEvents_eq (c : Chip) (addr : Byte) (data : Word16) (x y z x' hi lo : Byte) :
    verifiedEvents c addr data ⟨x, y, z, x', hi, lo⟩ =
      byteEvents (writeEvents c addr data x y z) ++ byteEvents (readEvents c addr x' hi lo) ++
        byteEvents (if joinBytes hi lo = data then [] else [.debugMismatch c addr data (joinBytes hi lo)]) := by
  unfold verifiedEvents
  have : VerifyAnswers.readBack ⟨x, y, z, x', hi, lo⟩ = joinBytes hi lo := rfl
  rw [this]
  split <;> rfl

/-- `SpiWriteVerified` (R210): its byte-level events, the flag, the lines, the bytes it takes, and its frame. -/
theorem spiWriteVerified_spec (c : Chip) (addr : Byte) (data : Word16) (s : State) :
    ∃ (b : VerifyAnswers) (evs : List Event),
      Does s (spiWriteVerified c addr data s)
        { foregroundPart s with
          spi := { s.spi with
            mode := .addr, csN := s.spi.csN.put c true, sclk := s.params.spiCpol, mosi := false,
            mismatch := s.spi.mismatch || decide (b.readBack ≠ data) }
          miso := (spiWriteVerified c addr data s).env.miso } evs ∧
      byteEvents evs = verifiedEvents c addr data b ∧
      TakenFrom s.env.miso b.bytes (spiWriteVerified c addr data s).env.miso := by
  have e : spiWriteVerified c addr data s = reportMismatch c addr data
      (spiRead c addr (spiWrite c addr data s)).1 (spiRead c addr (spiWrite c addr data s)).2 := rfl
  obtain ⟨x, y, z, hw⟩ := spiWrite_run c addr data s
  have hws := spiWrite_spi c addr data s
  rw [e]
  generalize spiWrite c addr data s = u at *
  obtain ⟨x', hi, lo, hr, hv⟩ := spiRead_run c addr u
  have hspi := spiRead_spi c addr u
  rw [hws, hw.params] at hspi
  rw [hr]
  generalize (spiRead c addr u).2 = v at *
  obtain ⟨evs, he, he'⟩ := (hw.trans hv).does
  have k := reportMismatch_does c addr data (joinBytes hi lo) v
  have hmiso : (reportMismatch c addr data (joinBytes hi lo) v).env.miso = v.env.miso :=
    congrArg ForegroundPart.miso k.part
  rw [he.part, hspi] at k
  rw [hmiso]
  refine ⟨⟨x, y, z, x', hi, lo⟩, _, (he.trans k).cast ?_ rfl, ?_, (hw.trans hv).taken⟩
  · cases c <;> rfl
  · rw [byteEvents_append, he', verifiedEvents_eq]
    rfl

theorem spiWriteVerified_frame (c : Chip) (addr : Byte) (data : Word16) (s : State) :
    SpiFrame s (spiWriteVerified c addr data s) := by
  obtain ⟨b, evs, h, -⟩ := spiWriteVerified_spec c addr data s
  have hs : (spiWriteVerified c addr data s).spi = _ := congrArg ForegroundPart.spi h.part
  exact ⟨by rw [hs]; exact h.part, by rw [hs], h.beside⟩

/-- A transaction on an idle bus leaves it idle (R212). -/
theorem put_true_idle (c : Chip) : (⟨true, true⟩ : PerChip Bool).put c true = ⟨true, true⟩ := by
  cases c <;> rfl

theorem spiWriteVerified_idle {c : Chip} {addr : Byte} {data : Word16} {s : State} (h : SpiIdle s) :
    SpiIdle (spiWriteVerified c addr data s) := by
  obtain ⟨b, evs, k, -⟩ := spiWriteVerified_spec c addr data s
  have hs : (spiWriteVerified c addr data s).spi = _ := congrArg ForegroundPart.spi k.part
  have hp : (spiWriteVerified c addr data s).params = s.params := congrArg ForegroundPart.params k.part
  simp only [SpiIdle, hs, hp, h.1, put_true_idle, and_self]

/-! ## A map of verified writes -/

/-- What `MUSIC_APPLY` does for a list of entries (R234): one verified write each, in order; the sticky flag is
raised if any read-back differed. -/
theorem verifiedWrites_spec (c : Chip) (l : List MapEntry) (s : State) :
    ∃ (bs : List VerifyAnswers) (evs : List Event), bs.length = l.length ∧
      let t := l.foldl (fun s e => spiWriteVerified c e.addr e.data s) s
      Does s t { foregroundPart s with spi := t.spi, miso := t.env.miso } evs ∧
      byteEvents evs = (l.zip bs).flatMap (fun p => verifiedEvents c p.1.addr p.1.data p.2) ∧
      t.spi.inited = s.spi.inited ∧ (SpiIdle s → SpiIdle t) ∧
      t.spi.mismatch = (s.spi.mismatch || (l.zip bs).any (fun p => decide (p.2.readBack ≠ p.1.data))) ∧
      TakenFrom s.env.miso (bs.flatMap VerifyAnswers.bytes) t.env.miso := by
  induction l generalizing s with
  | nil => exact ⟨[], [], rfl, Does.refl s, rfl, rfl, id, by simp, TakenFrom.nil _⟩
  | cons e l ih =>
    obtain ⟨b, ev, h, hb, ht⟩ := spiWriteVerified_spec c e.addr e.data s
    obtain ⟨bs, evs, hl, h2, hb2, hi, hid, hm, ht2⟩ := ih (spiWriteVerified c e.addr e.data s)
    have hs : (spiWriteVerified c e.addr e.data s).spi = _ := congrArg ForegroundPart.spi h.part
    refine ⟨b :: bs, ev ++ evs, by simp [hl], ?_, ?_, ?_, ?_, ?_, ht.append ht2⟩
    · rw [h.part] at h2
      exact h.trans h2
    · simp only [byteEvents_append, hb, hb2, List.zip_cons_cons, List.flatMap_cons]
    · rw [List.foldl_cons, hi, hs]
    · exact fun h => hid (spiWriteVerified_idle h)
    · rw [List.foldl_cons, hm, hs]
      simp [Bool.or_assoc]

end Sys2Proof.Machine
end

