-- ==== Sys2Proof/Laws/Music.lean ====
section
/-! SUPPORT. What the handlers of the MUSIC lifecycle commands do, said once. -/

namespace Sys2Proof.Machine

@[simp] theorem PerChip.put_put {α : Type} (p : PerChip α) (c : Chip) (v w : α) :
    (p.put c v).put c w = p.put c w := by
  cases c <;> rfl

/-- The handler of `MUSIC_SPI_INIT` (R230). -/
theorem spiInit_does (s : State) :
    Does s (spiInit s)
      { foregroundPart s with spi := ⟨.addr, true, ⟨true, true⟩, s.params.spiCpol, false, s.spi.mismatch⟩ }
      [.csN .bottom true, .csN .top true, .sclk s.params.spiCpol, .mosi false, .setMode .addr] := by
  have h := drive_does
    [.csN .bottom true, .csN .top true, .sclk s.params.spiCpol, .mosi false, .setMode .addr] rfl s
  unfold spiInit
  generalize drive _ s = u at *
  have hs : u.spi = _ := congrArg ForegroundPart.spi h.part
  have k : Does u (prim setSpiInited u) { foregroundPart u with spi := { u.spi with inited := true } } [] :=
    prim_does rfl (by simp) rfl
  rw [h.part, hs] at k
  exact (h.trans k).cast rfl (List.append_nil _)

/-- The handler of `MUSIC_PRINT` (R233). -/
theorem printMap_does (c : Chip) (s : State) :
    Does s (printMap c s) (foregroundPart s) [.debugMap c (mapEntries c s)] :=
  prim_emit_does rfl s

/-- The entry a chip's map has in EEPROM (R78, R231). -/
def storedEntry (c : Chip) (i : Fin Config.nMap) (s : State) : MapEntry :=
  ⟨eeRead (mapEntryAddress c i 0) s,
    joinBytes (eeRead (mapEntryAddress c i 1) s) (eeRead (mapEntryAddress c i 2) s)⟩

/-- The reads that fetch one entry (R231). -/
def entryReads (c : Chip) (i : Fin Config.nMap) (s : State) : List Event :=
  [.eeRead (mapEntryAddress c i 0) (eeRead (mapEntryAddress c i 0) s),
    .eeRead (mapEntryAddress c i 1) (eeRead (mapEntryAddress c i 1) s),
    .eeRead (mapEntryAddress c i 2) (eeRead (mapEntryAddress c i 2) s)]

theorem storedEntry_congr {s t : State} (h : t.env.ee = s.env.ee) (c : Chip) (i : Fin Config.nMap) :
    storedEntry c i t = storedEntry c i s := by
  simp only [storedEntry, eeRead, h]

theorem entryReads_congr {s t : State} (h : t.env.ee = s.env.ee) (c : Chip) (i : Fin Config.nMap) :
    entryReads c i t = entryReads c i s := by
  simp only [entryReads, eeRead, h]

theorem putEntry_does (c : Chip) (i : Fin Config.nMap) (e : MapEntry) (s : State) :
    Does s (prim (putEntry c i e) s)
      { foregroundPart s with
        disp := { s.disp with map := s.disp.map.put c ((s.disp.map.get c).set i e) } } [] :=
  prim_does rfl (by simp [putEntry]) rfl

/-- One entry from EEPROM into RAM (R231). -/
theorem loadEntry_does (c : Chip) (s : State) (i : Fin Config.nMap) :
    Does s (loadEntry c s i)
      { foregroundPart s with
        disp := { s.disp with map := s.disp.map.put c ((s.disp.map.get c).set i (storedEntry c i s)) } }
      (entryReads c i s) := by
  have h1 := eeReadStep_does (mapEntryAddress c i 0) s
  unfold loadEntry
  simp only [eeReadStep_fst]
  generalize (eeReadStep (mapEntryAddress c i 0) s).2 = u1 at *
  have hd1 : u1.disp = s.disp := congrArg ForegroundPart.disp h1.part
  have h2 : Does u1 (prim (putEntryAddr c i (eeRead (mapEntryAddress c i 0) s)) u1) _ [] :=
    putEntry_does c i { entryOf c i u1 with addr := eeRead (mapEntryAddress c i 0) s } u1
  rw [h1.part, hd1] at h2
  have h12 := h1.trans h2
  generalize prim (putEntryAddr c i (eeRead (mapEntryAddress c i 0) s)) u1 = u2 at *
  have hd2 : u2.disp = _ := congrArg ForegroundPart.disp h12.part
  have he2 : u2.env.ee = s.env.ee := congrArg ForegroundPart.ee h12.part
  have hr2 : ∀ a, eeRead a u2 = eeRead a s := fun a => by simp only [eeRead, he2]
  obtain ⟨hv, h3⟩ := eeReadWord_does (mapEntryAddress c i 1) u2
  rw [hr2, hr2] at hv
  rw [h12.part, hr2, hr2] at h3
  have h123 := h12.trans h3
  rw [hv]
  generalize (eeReadWord (mapEntryAddress c i 1) u2).2 = u3 at *
  have hd3 : u3.disp = _ := congrArg ForegroundPart.disp h123.part
  have h4 : Does u3 (prim (putEntryData c i _) u3) _ [] :=
    putEntry_does c i { entryOf c i u3 with data := (joinBytes (eeRead (mapEntryAddress c i 1) s)
      (eeRead (mapEntryAddress c i 1 + 1) s)) } u3
  rw [h123.part, hd3] at h4
  refine (h123.trans h4).cast ?_ ?_
  · have hm : (entryOf c i u3).addr = eeRead (mapEntryAddress c i 0) s := by
      simp [entryOf, hd3, Vector.get]
    simp only [PerChip.get_put_same, PerChip.put_put, hm]
    have hset : ∀ (v : Vector MapEntry Config.nMap) (a b : MapEntry), (v.set i a).set i b = v.set i b := by
      intro v a b
      ext j hj : 1
      simp only [Vector.getElem_set]
      split <;> rfl
    rw [hset]
    rfl
  · rfl

/-- All the entries (R231). -/
theorem loadEntries_does (c : Chip) (l : List (Fin Config.nMap)) (s : State) :
    ∃ m : Vector MapEntry Config.nMap,
      Does s (l.foldl (loadEntry c) s)
        { foregroundPart s with disp := { s.disp with map := s.disp.map.put c m } }
        (l.flatMap (fun i => entryReads c i s)) ∧
      ∀ i : Fin Config.nMap, m[i] = if i ∈ l then storedEntry c i s else (s.disp.map.get c)[i] := by
  induction l generalizing s with
  | nil =>
    refine ⟨s.disp.map.get c, ?_, by simp⟩
    have : s.disp.map.put c (s.disp.map.get c) = s.disp.map := by cases c <;> rfl
    rw [this]
    exact Does.refl s
  | cons i l ih =>
    have h := loadEntry_does c s i
    obtain ⟨m, k, hm⟩ := ih (loadEntry c s i)
    rw [List.foldl_cons]
    generalize loadEntry c s i = u at *
    have hd : u.disp = _ := congrArg ForegroundPart.disp h.part
    have he : u.env.ee = s.env.ee := congrArg ForegroundPart.ee h.part
    rw [h.part, hd] at k
    simp only [entryReads_congr he] at k
    refine ⟨m, (h.trans k).cast (by simp only [PerChip.put_put]) (by rw [List.flatMap_cons]), ?_⟩
    intro j
    rw [hm j, storedEntry_congr he, hd]
    simp only [PerChip.get_put_same, List.mem_cons]
    by_cases h1 : j ∈ l
    · simp [h1]
    · by_cases h2 : j = i
      · subst h2; simp [h1]
      · have : ¬ i.val = j.val := fun e => h2 (Fin.ext e.symm)
        simp [h1, h2, this]

/-- The handler of `MUSIC_LOAD` (R231): 69 reads, the map, and the mark. -/
theorem loadMap_does (c : Chip) (s : State) :
    ∃ m : Vector MapEntry Config.nMap,
      Does s (loadMap c s)
        { foregroundPart s with
          disp := { s.disp with map := s.disp.map.put c m, mapLoaded := s.disp.mapLoaded.put c true } }
        ((List.range' (mapEntryAddress c 0 0) Config.mapBytes).map (fun a => .eeRead a (eeRead a s))) ∧
      ∀ i : Fin Config.nMap, m[i] = storedEntry c i s := by
  obtain ⟨m, h, hm⟩ := loadEntries_does c (List.finRange Config.nMap) s
  refine ⟨m, ?_, fun i => by simp [hm i]⟩
  unfold loadMap
  generalize (List.finRange Config.nMap).foldl (loadEntry c) s = u at *
  have hd : u.disp = _ := congrArg ForegroundPart.disp h.part
  have k : Does u (prim (markLoaded c) u)
      { foregroundPart u with disp := { u.disp with mapLoaded := u.disp.mapLoaded.put c true } } [] :=
    prim_does rfl (by simp) rfl
  rw [h.part, hd] at k
  refine (h.trans k).cast rfl ?_
  have hl : List.finRange Config.nMap =
      [0, 1, 2, 3, 4, 5, 6, 7, 8, 9, 10, 11, 12, 13, 14, 15, 16, 17, 18, 19, 20, 21, 22] := by
    decide
  rw [List.append_nil, hl]
  cases c <;> rfl

/-- The handler of `MUSIC_RD` (R235). -/
theorem reportRegister_does (c : Chip) (addr : Byte) (s : State) :
    ∃ x hi lo evs, Does s (reportRegister c addr s)
        { foregroundPart s with
          disp := { s.disp with tx := overlay [hi, lo] s.disp.tx, txLen := 2 }
          spi := { s.spi with csN := s.spi.csN.put c true, sclk := s.params.spiCpol, mosi := false }
          miso := (reportRegister c addr s).env.miso } evs ∧
      byteEvents evs = readEvents c addr x hi lo ∧
      TakenFrom s.env.miso [x, hi, lo] (reportRegister c addr s).env.miso := by
  obtain ⟨x, hi, lo, hr, h⟩ := spiRead_run c addr s
  have hs := spiRead_spi c addr s
  obtain ⟨evs, hd, he⟩ := h.does
  have e : reportRegister c addr s = respond [hi, lo] (spiRead c addr s).2 := by
    simp only [reportRegister, hr, respondBig, hiByte_joinBytes, loByte_joinBytes]
  have k := respond_does [hi, lo] (spiRead c addr s).2
  have hm : (respond [hi, lo] (spiRead c addr s).2).env.miso = (spiRead c addr s).2.env.miso :=
    congrArg ForegroundPart.miso k.part
  have hdisp : (spiRead c addr s).2.disp = s.disp := congrArg ForegroundPart.disp hd.part
  rw [hd.part, hdisp] at k
  refine ⟨x, hi, lo, evs, ?_, he, by rw [e, hm]; exact h.taken⟩
  rw [e, hm]
  exact (hd.trans k).cast (by rw [hs]; rfl) (List.append_nil _)

/-- The handlers of the temperature commands (R171, R172). -/
theorem reportAnalog_does (src : AnalogSource) (s : State) :
    Does s (reportAnalog src s)
      { foregroundPart s with
        disp := { s.disp with
          tx := overlay [loByte (s.env.analog.take (Config.analogReading src)).1,
            hiByte (s.env.analog.take (Config.analogReading src)).1] s.disp.tx, txLen := 2 }
        analog := (s.env.analog.take (Config.analogReading src)).2 }
      [.singleShot src (s.env.analog.take (Config.analogReading src)).1] := by
  have h : Does s (prim (takeReading src) s)
      { foregroundPart s with analog := (s.env.analog.take (Config.analogReading src)).2 }
      [.singleShot src (s.env.analog.take (Config.analogReading src)).1] :=
    prim_does (by simp [interruptPart]) (by simp) rfl
  have k := respond_does [loByte (s.env.analog.take (Config.analogReading src)).1,
    hiByte (s.env.analog.take (Config.analogReading src)).1] (prim (takeReading src) s)
  have hd : (prim (takeReading src) s).disp = s.disp := congrArg ForegroundPart.disp h.part
  rw [h.part, hd] at k
  exact (h.trans k).cast rfl (List.append_nil _)

end Sys2Proof.Machine
end

