-- ==== Sys2Proof/Laws/Handlers.lean ====
section
/-! SUPPORT. What every handler leaves as it was, with interrupts in between. -/

namespace Sys2Proof.Machine

/-- What every handler leaves as it was (R139): the session, the flag, the receive buffer, the mask, the parameters
and the environment's moves; the record only grows. -/
structure HandlerKeeps (s t : State) : Prop where
  session : t.disp.session = s.disp.session
  err : t.disp.err = s.disp.err
  rx : t.disp.rx = s.disp.rx
  rxLen : t.disp.rxLen = s.disp.rxLen
  irqMasked : t.irqMasked = s.irqMasked
  params : t.params = s.params
  bus : t.env.bus = s.env.bus
  record : s.env.trace <+: t.env.trace

theorem HandlerKeeps.refl (s : State) : HandlerKeeps s s := ⟨rfl, rfl, rfl, rfl, rfl, rfl, rfl, List.prefix_refl _⟩

theorem HandlerKeeps.trans {s t u : State} (h : HandlerKeeps s t) (k : HandlerKeeps t u) : HandlerKeeps s u :=
  ⟨k.1.trans h.1, k.2.trans h.2, k.3.trans h.3, k.4.trans h.4, k.5.trans h.5, k.6.trans h.6, k.7.trans h.7,
    h.8.trans k.8⟩

/-- Work beside the interrupt keeps what its foreground part keeps. -/
theorem Does.keeps {s t : State} {p : ForegroundPart} {evs : List Event} (h : Does s t p evs)
    (hp : p.disp.session = s.disp.session ∧ p.disp.err = s.disp.err ∧ p.disp.rx = s.disp.rx ∧
      p.disp.rxLen = s.disp.rxLen ∧ p.params = s.params ∧ p.bus = s.env.bus) : HandlerKeeps s t := by
  obtain ⟨h1, h2, h3, h4, h5, h6⟩ := hp
  rw [← h.part] at h1 h2 h3 h4 h5 h6
  exact ⟨h1, h2, h3, h4, h.beside.shared.irqMasked, h5, h6, h.beside.1⟩

theorem Interrupts.keeps {s u : State} (h : Interrupts s u) : HandlerKeeps s u :=
  h.does.keeps ⟨rfl, rfl, rfl, rfl, rfl, rfl⟩

theorem Interleaved.keeps {steps : List (State → State)} {s t : State} (h : Interleaved steps s t)
    (hf : ∀ f ∈ steps, ∀ u, HandlerKeeps u (f u)) : HandlerKeeps s t :=
  Interleaved.rel (R := HandlerKeeps) HandlerKeeps.trans Interrupts.keeps hf h

theorem applyMap_eq (c : Chip) (s : State) :
    applyMap c s = (mapEntries c s).foldl (fun s e => spiWriteVerified c e.addr e.data s) s := rfl

theorem setRate_interleaved (code : Byte) (s : State) :
    Interleaved (if rateCodeKnown code then [setRateCode code, emit [.adcSetRate code]] else []) s
      (setRate code s) := by
  unfold setRate
  split
  · exact ((Interleaved.nil (Interrupts.refl s)).prim _).prim _
  · exact Interrupts.refl s

theorem initAdc_interleaved (s : State) :
    Interleaved [emit [.adcInit], setAdcInited] s (initAdc s) :=
  ((Interleaved.nil (Interrupts.refl s)).prim _).prim _

theorem prim_interleaved (f : State → State) (s : State) : Interleaved [f] s (prim f s) :=
  (Interleaved.nil (Interrupts.refl s)).prim f

/-- A step of these neither ends the session nor touches what a handler keeps. -/
theorem emit_keeps (evs : List Event) (s : State) : HandlerKeeps s (emit evs s) :=
  ⟨rfl, rfl, rfl, rfl, rfl, rfl, rfl, List.prefix_append _ _⟩

theorem latchWrite_keeps (l : Latch) (b : Bool) (s : State) : HandlerKeeps s (latchWrite l b s) :=
  ⟨rfl, rfl, rfl, rfl, rfl, rfl, rfl, List.prefix_append _ _⟩

theorem channelRead_keeps (rst : Bool) (ch : BitVec 4) (s : State) : HandlerKeeps s (channelRead rst ch s) :=
  ⟨rfl, rfl, rfl, rfl, rfl, rfl, rfl, List.prefix_refl _⟩

theorem channelRecorded_keeps (ch : BitVec 4) (s : State) : HandlerKeeps s (channelRecorded ch s) :=
  ⟨rfl, rfl, rfl, rfl, rfl, rfl, rfl, List.prefix_refl _⟩

theorem gpioWrite_interleaved (l : Latch) (b : Bool) (s : State) :
    Interleaved [latchWrite l b] s (gpioWrite l b s) := prim_interleaved _ s

theorem gpioWrites_interleaved (l m : Latch) (b : Bool) (s : State) :
    Interleaved [latchWrite l b, latchWrite m b] s (gpioWrite m b (gpioWrite l b s)) :=
  (gpioWrite_interleaved l b s).prim _

theorem respond_keeps (bytes : List Byte) (s : State) : HandlerKeeps s (respond bytes s) :=
  (respond_does bytes s).keeps ⟨rfl, rfl, rfl, rfl, rfl, rfl⟩

theorem window_keeps (s : State) : HandlerKeeps s (window s) := (window_interrupts s).keeps

/-- The zeroing of all channels (R290, R292). -/
theorem zeroing_keeps {rst : Bool} {f : State → State}
    (hf : f ∈ (if rst then (List.range 16).map (fun n => channelRead true (BitVec.ofNat 4 n)) else []))
    (u : State) : HandlerKeeps u (f u) := by
  cases rst
  · cases hf
  · obtain ⟨n, -, rfl⟩ := List.mem_map.mp hf
    exact channelRead_keeps _ _ _

theorem handler_keeps {i : Instr} (hi : i ≠ .reset) (s : State) : HandlerKeeps s (handler i s) := by
  have one : ∀ {f : State → State} {s t : State}, Interleaved [f] s t → (∀ u, HandlerKeeps u (f u)) →
      HandlerKeeps s t := fun h hf => h.keeps fun g hg => by rw [List.mem_singleton.mp hg]; exact hf
  have two : ∀ {f g : State → State} {s t : State}, Interleaved [f, g] s t → (∀ u, HandlerKeeps u (f u)) →
      (∀ u, HandlerKeeps u (g u)) → HandlerKeeps s t := fun h hf hg => h.keeps fun k hk => by
    rcases List.mem_cons.mp hk with rfl | hk
    · exact hf
    · rw [List.mem_singleton.mp hk]; exact hg
  cases i with
  | reset => exact absurd rfl hi
  | ledOn => exact one (gpioWrite_interleaved _ _ s) (latchWrite_keeps _ _)
  | ledOff => exact one (gpioWrite_interleaved _ _ s) (latchWrite_keeps _ _)
  | p3v3On => exact one (gpioWrite_interleaved _ _ s) (latchWrite_keeps _ _)
  | p3v3Off => exact one (gpioWrite_interleaved _ _ s) (latchWrite_keeps _ _)
  | p5vOn => exact one (gpioWrite_interleaved _ _ s) (latchWrite_keeps _ _)
  | p5vOff => exact one (gpioWrite_interleaved _ _ s) (latchWrite_keeps _ _)
  | hvOff => exact one (gpioWrite_interleaved _ _ s) (latchWrite_keeps _ _)
  | pallOn => exact two (gpioWrites_interleaved _ _ _ s) (latchWrite_keeps _ _) (latchWrite_keeps _ _)
  | pallOff => exact two (gpioWrites_interleaved _ _ _ s) (latchWrite_keeps _ _) (latchWrite_keeps _ _)
  | tempSipm => exact (reportAnalog_does .sipmTherm s).keeps ⟨rfl, rfl, rfl, rfl, rfl, rfl⟩
  | tempUc => exact (reportAnalog_does .ucTemp s).keeps ⟨rfl, rfl, rfl, rfl, rfl, rfl⟩
  | eeRdb a => exact (reportByte_does _ s).keeps ⟨rfl, rfl, rfl, rfl, rfl, rfl⟩
  | eeRdw a8 => exact (reportWord_does _ s).keeps ⟨rfl, rfl, rfl, rfl, rfl, rfl⟩
  | eeWrb a v => exact (eeWriteIfChanged_does _ _ s).keeps ⟨rfl, rfl, rfl, rfl, rfl, rfl⟩
  | eeWrw a8 hi lo => exact (eeWriteWordIfChanged_does _ _ _ s).keeps ⟨rfl, rfl, rfl, rfl, rfl, rfl⟩
  | musicSpiInit => exact (spiInit_does s).keeps ⟨rfl, rfl, rfl, rfl, rfl, rfl⟩
  | musicLoad f =>
    obtain ⟨m, h, -⟩ := loadMap_does (chipOr f) s
    exact h.keeps ⟨rfl, rfl, rfl, rfl, rfl, rfl⟩
  | musicPrint f => exact (printMap_does _ s).keeps ⟨rfl, rfl, rfl, rfl, rfl, rfl⟩
  | musicApply f =>
    obtain ⟨_, _, _, h, -⟩ := verifiedWrites_spec (chipOr f) (mapEntries (chipOr f) s) s
    exact Does.keeps (t := applyMap (chipOr f) s) h ⟨rfl, rfl, rfl, rfl, rfl, rfl⟩
  | musicRd f a =>
    obtain ⟨_, _, _, _, h, -⟩ := reportRegister_does (chipOr f) a s
    exact h.keeps ⟨rfl, rfl, rfl, rfl, rfl, rfl⟩
  | musicWr f a d =>
    obtain ⟨_, _, h, -⟩ := spiWriteVerified_spec (chipOr f) a d s
    exact h.keeps ⟨rfl, rfl, rfl, rfl, rfl, rfl⟩
  | adcRate code =>
    refine (setRate_interleaved code s).keeps fun f hf u => ?_
    split at hf
    · rcases List.mem_cons.mp hf with rfl | hf
      · exact ⟨rfl, rfl, rfl, rfl, rfl, rfl, rfl, List.prefix_refl _⟩
      · rw [List.mem_singleton.mp hf]; exact emit_keeps _ _
    · cases hf
  | adcInit =>
    exact two (initAdc_interleaved s) (emit_keeps _)
      (fun u => ⟨rfl, rfl, rfl, rfl, rfl, rfl, rfl, List.prefix_refl _⟩)
  | adcStart =>
    exact one (prim_interleaved setLoopEn s)
      (fun u => ⟨rfl, rfl, rfl, rfl, rfl, rfl, rfl, List.prefix_refl _⟩)
  | adcStop =>
    simp only [handler, stopLoop_eq]
    exact (arrivals_interrupts s).keeps.trans ⟨rfl, rfl, rfl, rfl, rfl, rfl, rfl, List.prefix_refl _⟩
  | adcRdavg ch =>
    simp only [handler, reportAverage_eq]
    exact ((arrivals_interrupts s).keeps.trans (channelRead_keeps _ _ _)).trans
      ((window_keeps _).trans (respond_keeps _ _))
  | adcRdall => exact HandlerKeeps.refl s
  | adcRecoff =>
    refine (recordOffsets_interleaved s).keeps fun f hf u => ?_
    rcases List.mem_append.mp hf with hf | hf
    · obtain ⟨n, -, rfl⟩ := List.mem_map.mp hf
      exact channelRecorded_keeps _ _
    · rw [List.mem_singleton.mp hf]; exact ⟨rfl, rfl, rfl, rfl, rfl, rfl, rfl, List.prefix_refl _⟩
  | adcRdoff ch =>
    simp only [handler, reportOffset_eq]
    exact (arrivals_interrupts s).keeps.trans ((window_keeps _).trans (respond_keeps _ _))
  | hvOn =>
    refine (hvOn_interleaved s).keeps fun f hf u => ?_
    rcases List.mem_append.mp hf with hf | hf
    · exact zeroing_keeps hf u
    · rw [List.mem_singleton.mp hf]; exact latchWrite_keeps _ _ _
  | hvsafeEn =>
    refine (enableSafety_interleaved s).keeps fun f hf u => ?_
    rcases List.mem_append.mp hf with hf | hf
    · exact zeroing_keeps hf u
    · rw [List.mem_singleton.mp hf]; exact ⟨rfl, rfl, rfl, rfl, rfl, rfl, rfl, List.prefix_refl _⟩
  | hvStat => exact ((window_keeps s).trans (respond_keeps _ _))
  | hvSetmax uA =>
    exact one (setMaxCurrent_interleaved uA s)
      (fun u => ⟨rfl, rfl, rfl, rfl, rfl, rfl, rfl, List.prefix_refl _⟩)
  | devId =>
    by_cases h : serialLength s = Config.erased
    · exact (reportDeviceId_erased h).keeps ⟨rfl, rfl, rfl, rfl, rfl, rfl⟩
    · exact (reportDeviceId_serial h).keeps ⟨rfl, rfl, rfl, rfl, rfl, rfl⟩

/-- What the interrupt gate goes through in a command that leaves it alone (R250): the loop enable stays, nothing
becomes pending while it is off, and a pending event stays or is served. -/
structure GateKept (s t : State) : Prop where
  loopEn : t.adc.loopEn = s.adc.loopEn
  pending : s.adc.loopEn = false → t.adc.irqPending = true → s.adc.irqPending = true
  served : s.adc.irqPending = true → t.adc.irqPending = true ∨ InterruptTaken s t

/-- What a handler leaves, and the gate. -/
def KeepsGate (s t : State) : Prop := HandlerKeeps s t ∧ GateKept s t

theorem InterruptTaken.mono {r s t u : State} (h : InterruptTaken s t) (hr : r.env.trace <+: s.env.trace)
    (hs : s.env.trace <+: t.env.trace) (ht : t.env.trace <+: u.env.trace) : InterruptTaken r u := by
  obtain ⟨w, hw⟩ := h
  obtain ⟨a, ha⟩ := hr
  obtain ⟨b, hb⟩ := hs
  obtain ⟨c, hc⟩ := ht
  refine ⟨w, ?_⟩
  unfold newEvents at hw ⊢
  rw [← hb, List.drop_left] at hw
  rw [← hc, ← hb, ← ha, List.append_assoc, List.append_assoc, List.drop_left]
  simp [hw]

theorem KeepsGate.trans {s t u : State} (h : KeepsGate s t) (k : KeepsGate t u) : KeepsGate s u := by
  refine ⟨h.1.trans k.1, k.2.loopEn.trans h.2.loopEn, fun e f => h.2.pending e (k.2.pending (h.2.loopEn.trans e) f),
    fun e => ?_⟩
  rcases h.2.served e with e | e
  · rcases k.2.served e with e | e
    · exact .inl e
    · exact .inr (e.mono h.1.record k.1.record (List.prefix_refl _))
  · exact .inr (e.mono (List.prefix_refl _) h.1.record k.1.record)

theorem Beside.gate {s t : State} (h : Beside s t) : GateKept s t :=
  ⟨h.shared.loopEn, h.shared.pending, h.shared.served⟩

theorem Interrupts.keepsGate {s u : State} (h : Interrupts s u) : KeepsGate s u := ⟨h.keeps, h.beside.gate⟩

/-- A step that leaves the gate alone. -/
theorem GateKept.ofStep {s t : State} (hl : t.adc.loopEn = s.adc.loopEn)
    (hp : t.adc.irqPending = s.adc.irqPending) : GateKept s t :=
  ⟨hl, fun _ e => hp ▸ e, fun e => .inl (hp ▸ e)⟩

theorem Interleaved.gate {steps : List (State → State)} {s t : State} (h : Interleaved steps s t)
    (hf : ∀ f ∈ steps, ∀ u, HandlerKeeps u (f u) ∧ (f u).adc.loopEn = u.adc.loopEn ∧
      (f u).adc.irqPending = u.adc.irqPending) : GateKept s t :=
  (Interleaved.rel (R := KeepsGate) KeepsGate.trans Interrupts.keepsGate
    (fun f hm u => ⟨(hf f hm u).1, .ofStep (hf f hm u).2.1 (hf f hm u).2.2⟩) h).2

/-- Every handler but those of `ADC_START`, `ADC_STOP` and `RESET` keeps the gate (R250). -/
theorem handler_gate {i : Instr} (h1 : i ≠ .reset) (h2 : i ≠ .adcStart) (h3 : i ≠ .adcStop) (s : State) :
    GateKept s (handler i s) := by
  have one : ∀ {f : State → State} {s t : State}, Interleaved [f] s t →
      (∀ u, HandlerKeeps u (f u) ∧ (f u).adc.loopEn = u.adc.loopEn ∧ (f u).adc.irqPending = u.adc.irqPending) →
      GateKept s t := fun h hf => h.gate fun g hg => by rw [List.mem_singleton.mp hg]; exact hf
  have latch : ∀ l b u, HandlerKeeps u (latchWrite l b u) ∧ (latchWrite l b u).adc.loopEn = u.adc.loopEn ∧
      (latchWrite l b u).adc.irqPending = u.adc.irqPending := fun l b u => ⟨latchWrite_keeps l b u, rfl, rfl⟩
  have zero : ∀ {rst : Bool} {f : State → State},
      f ∈ (if rst then (List.range 16).map (fun n => channelRead true (BitVec.ofNat 4 n)) else []) → ∀ u,
      HandlerKeeps u (f u) ∧ (f u).adc.loopEn = u.adc.loopEn ∧ (f u).adc.irqPending = u.adc.irqPending := by
    intro rst f hf u
    cases rst
    · cases hf
    · obtain ⟨n, -, rfl⟩ := List.mem_map.mp hf
      exact ⟨channelRead_keeps _ _ _, rfl, rfl⟩
  cases i with
  | reset => exact absurd rfl h1
  | adcStart => exact absurd rfl h2
  | adcStop => exact absurd rfl h3
  | ledOn => exact one (gpioWrite_interleaved _ _ s) (latch _ _)
  | ledOff => exact one (gpioWrite_interleaved _ _ s) (latch _ _)
  | p3v3On => exact one (gpioWrite_interleaved _ _ s) (latch _ _)
  | p3v3Off => exact one (gpioWrite_interleaved _ _ s) (latch _ _)
  | p5vOn => exact one (gpioWrite_interleaved _ _ s) (latch _ _)
  | p5vOff => exact one (gpioWrite_interleaved _ _ s) (latch _ _)
  | hvOff => exact one (gpioWrite_interleaved _ _ s) (latch _ _)
  | pallOn =>
    refine (gpioWrites_interleaved .en3v3 .en5v true s).gate fun f hf u => ?_
    simp only [List.mem_cons, List.not_mem_nil, or_false] at hf
    rcases hf with rfl | rfl <;> exact latch _ _ u
  | pallOff =>
    refine (gpioWrites_interleaved .en3v3 .en5v false s).gate fun f hf u => ?_
    simp only [List.mem_cons, List.not_mem_nil, or_false] at hf
    rcases hf with rfl | rfl <;> exact latch _ _ u
  | tempSipm => exact (reportAnalog_does .sipmTherm s).beside.gate
  | tempUc => exact (reportAnalog_does .ucTemp s).beside.gate
  | eeRdb a => exact (reportByte_does _ s).beside.gate
  | eeRdw a8 => exact (reportWord_does _ s).beside.gate
  | eeWrb a v => exact (eeWriteIfChanged_does _ _ s).beside.gate
  | eeWrw a8 hi lo => exact (eeWriteWordIfChanged_does _ _ _ s).beside.gate
  | musicSpiInit => exact (spiInit_does s).beside.gate
  | musicLoad f =>
    obtain ⟨m, h, -⟩ := loadMap_does (chipOr f) s
    exact h.beside.gate
  | musicPrint f => exact (printMap_does _ s).beside.gate
  | musicApply f =>
    obtain ⟨_, _, _, h, -⟩ := verifiedWrites_spec (chipOr f) (mapEntries (chipOr f) s) s
    exact Beside.gate (t := applyMap (chipOr f) s) h.beside
  | musicRd f a =>
    obtain ⟨_, _, _, _, h, -⟩ := reportRegister_does (chipOr f) a s
    exact h.beside.gate
  | musicWr f a d =>
    obtain ⟨_, _, h, -⟩ := spiWriteVerified_spec (chipOr f) a d s
    exact h.beside.gate
  | adcRate code =>
    refine (setRate_interleaved code s).gate fun f hf u => ?_
    split at hf
    · rcases List.mem_cons.mp hf with rfl | hf
      · exact ⟨⟨rfl, rfl, rfl, rfl, rfl, rfl, rfl, List.prefix_refl _⟩, rfl, rfl⟩
      · rw [List.mem_singleton.mp hf]; exact ⟨emit_keeps _ _, rfl, rfl⟩
    · cases hf
  | adcInit =>
    refine (initAdc_interleaved s).gate fun f hf u => ?_
    rcases List.mem_cons.mp hf with rfl | hf
    · exact ⟨emit_keeps _ _, rfl, rfl⟩
    · rw [List.mem_singleton.mp hf]; exact ⟨⟨rfl, rfl, rfl, rfl, rfl, rfl, rfl, List.prefix_refl _⟩, rfl, rfl⟩
  | adcRdavg ch =>
    simp only [handler, reportAverage_eq]
    have h : KeepsGate s _ := (arrivals_interrupts s).keepsGate.trans
      (u := channelRead s.params.rstOnAvgRead ch (arrivals s)) ⟨channelRead_keeps _ _ _, .ofStep rfl rfl⟩
    have k := h.trans (window_interrupts _).keepsGate
    exact (k.trans ⟨respond_keeps _ _, (respond_does _ _).beside.gate⟩).2
  | adcRdall => exact .ofStep rfl rfl
  | adcRecoff =>
    refine (recordOffsets_interleaved s).gate fun f hf u => ?_
    rcases List.mem_append.mp hf with hf | hf
    · obtain ⟨n, -, rfl⟩ := List.mem_map.mp hf
      exact ⟨channelRecorded_keeps _ _, rfl, rfl⟩
    · rw [List.mem_singleton.mp hf]; exact ⟨⟨rfl, rfl, rfl, rfl, rfl, rfl, rfl, List.prefix_refl _⟩, rfl, rfl⟩
  | adcRdoff ch =>
    simp only [handler, reportOffset_eq]
    have k := (arrivals_interrupts s).keepsGate.trans (window_interrupts _).keepsGate
    exact (k.trans ⟨respond_keeps _ _, (respond_does _ _).beside.gate⟩).2
  | hvOn =>
    refine (hvOn_interleaved s).gate fun f hf u => ?_
    rcases List.mem_append.mp hf with hf | hf
    · exact zero hf u
    · rw [List.mem_singleton.mp hf]; exact latch _ _ u
  | hvsafeEn =>
    refine (enableSafety_interleaved s).gate fun f hf u => ?_
    rcases List.mem_append.mp hf with hf | hf
    · exact zero hf u
    · rw [List.mem_singleton.mp hf]; exact ⟨⟨rfl, rfl, rfl, rfl, rfl, rfl, rfl, List.prefix_refl _⟩, rfl, rfl⟩
  | hvStat =>
    have k : KeepsGate s (window s) := (window_interrupts s).keepsGate
    exact (k.trans ⟨respond_keeps _ _, (respond_does _ _).beside.gate⟩).2
  | hvSetmax uA =>
    exact one (setMaxCurrent_interleaved uA s)
      (fun u => ⟨⟨rfl, rfl, rfl, rfl, rfl, rfl, rfl, List.prefix_refl _⟩, rfl, rfl⟩)
  | devId =>
    by_cases h : serialLength s = Config.erased
    · exact (reportDeviceId_erased h).beside.gate
    · exact (reportDeviceId_serial h).beside.gate

/-- The response of `DEV_ID` is 1 to 65 bytes long (R109). -/
theorem reportDeviceId_txLen (s : State) (h : serialLengthKnown s = true) :
    1 ≤ (reportDeviceId s).disp.txLen ∧ (reportDeviceId s).disp.txLen ≤ 65 := by
  by_cases hl : serialLength s = Config.erased
  · have hd : (reportDeviceId s).disp = _ := congrArg ForegroundPart.disp (reportDeviceId_erased hl).part
    rw [hd]; simp
  · have hd : (reportDeviceId s).disp = _ := congrArg ForegroundPart.disp (reportDeviceId_serial hl).part
    simp only [serialLengthKnown, Bool.or_eq_true, beq_iff_eq, hl, decide_eq_true_eq, false_or] at h
    simp only [Config.serialRegion] at h
    rw [hd]
    simp only
    omega

end Sys2Proof.Machine
end

