-- ==== Sys2Proof/Laws/Effects.lean ====
section
/-! SUPPORT. What the handlers leave of the HV safety state, the EEPROM, the SPI lines and the response length,
command by command: the two lemmas the invariants are derived from. -/

namespace Sys2Proof.Machine

/-- What most steps leave: the response length, the EEPROM, the SPI lines, the rate code and the controller stay, and
`HV_EN` can only fall. -/
structure Stays (s t : State) : Prop where
  txLen : t.disp.txLen = s.disp.txLen
  ee : t.env.ee = s.env.ee
  spi : t.spi = s.spi
  rate : t.adc.rateCode = s.adc.rateCode
  hvEn : t.gpio.hvEn = true → s.gpio.hvEn = true
  hv : t.hv = s.hv

theorem Stays.trans {s t u : State} (h : Stays s t) (k : Stays t u) : Stays s u :=
  ⟨k.1.trans h.1, k.2.trans h.2, k.3.trans h.3, k.4.trans h.4, fun e => h.5 (k.5 e), k.6.trans h.6⟩

theorem Interrupts.stays {s u : State} (h : Interrupts s u) : Stays s u :=
  ⟨congrArg (·.disp.txLen) h.only.part, congrArg (·.ee) h.only.part, congrArg (·.spi) h.only.part,
    congrArg (·.rateCode) h.only.part, h.only.hvEnFalls, h.only.hv⟩

theorem Interleaved.stays {steps : List (State → State)} {s t : State} (h : Interleaved steps s t)
    (hf : ∀ f ∈ steps, ∀ u, Stays u (f u)) : Stays s t :=
  Interleaved.rel (R := Stays) Stays.trans Interrupts.stays hf h

theorem Interleaved.staysOne {f : State → State} {s t : State} (h : Interleaved [f] s t)
    (hf : ∀ u, Stays u (f u)) : Stays s t := h.stays fun g hg => by rw [List.mem_singleton.mp hg]; exact hf

theorem zeroAllIf_stays (rst : Bool) (s : State) : Stays s (zeroAllIf rst s) := by
  refine (zeroAllIf_interleaved rst s).stays fun f hf u => ?_
  cases rst
  · cases hf
  · obtain ⟨n, -, rfl⟩ := List.mem_map.mp hf
    exact ⟨rfl, rfl, rfl, rfl, id, rfl⟩

theorem latchWrite_stays (l : Latch) (b : Bool) (hl : l = .hvEn → b = false) (u : State) :
    Stays u (latchWrite l b u) := by
  refine ⟨rfl, rfl, rfl, rfl, ?_, rfl⟩
  cases l <;> first | exact id | (intro h; rw [latchWrite_gpio, hl rfl] at h; cases h)

/-- The HV safety state a handler leaves (R276, R292, R294). -/
def hvAfter (i : Instr) (h : HvSafety) : HvSafety :=
  match i with
  | .hvsafeEn => { h with safetyEn := true }
  | .adcRecoff => { h with offsetValid := true }
  | .hvSetmax uA => { h with maxUA := uA, maxDelta := deltaOf uA }
  | _ => h

/-- A section of the controller's state in between. -/
structure StaysBut (g : HvSafety → HvSafety) (s t : State) : Prop where
  txLen : t.disp.txLen = s.disp.txLen
  ee : t.env.ee = s.env.ee
  spi : t.spi = s.spi
  rate : t.adc.rateCode = s.adc.rateCode
  hvEn : t.gpio.hvEn = true → s.gpio.hvEn = true
  hv : t.hv = g s.hv

theorem Stays.put {g : HvSafety → HvSafety} {s u t : State} (h : Stays s u)
    (k : Stays { u with hv := g u.hv } t) : StaysBut g s t :=
  ⟨k.txLen.trans h.txLen, k.ee.trans h.ee, k.spi.trans h.spi, k.rate.trans h.rate, fun e => h.hvEn (k.hvEn e),
    k.hv.trans (congrArg g h.hv)⟩

theorem recordOffsets_stays (s : State) :
    StaysBut (fun h => { h with offsetValid := true }) s (recordOffsets s) := by
  have h := foldl_interleaved (g := recordOffset) (step := channelRecorded)
    (fun ch h => recordOffset_interleaved ch h) allChannels (Interleaved.nil (Interrupts.refl s))
  have e : recordOffsets s = window (setOffsetValid (arrivals (allChannels.foldl recordOffset s))) :=
    critical_eq (fun _ _ => rfl) _
  rw [e]
  refine ((h.stays fun f hf u => ?_).trans (arrivals_interrupts _).stays).put (window_interrupts _).stays
  rw [List.nil_append] at hf
  obtain ⟨n, -, rfl⟩ := List.mem_map.mp hf
  exact ⟨rfl, rfl, rfl, rfl, id, rfl⟩

theorem enableSafety_stays (s : State) : StaysBut (fun h => { h with safetyEn := true }) s (enableSafety s) := by
  have e : enableSafety s = window (setSafetyEn (arrivals (zeroAllIf s.params.rstOnSafetyEn s))) :=
    critical_eq (fun _ _ => rfl) _
  rw [e]
  exact ((zeroAllIf_stays _ s).trans (arrivals_interrupts _).stays).put (window_interrupts _).stays

theorem setMaxCurrent_stays (uA : Word16) (s : State) :
    StaysBut (fun h => { h with maxUA := uA, maxDelta := deltaOf uA }) s (setMaxCurrent uA s) := by
  have e : setMaxCurrent uA s = window (putMaxCurrent uA (arrivals s)) :=
    critical_eq (body := putMaxCurrent uA) (fun _ _ => rfl) _
  rw [e]
  exact (arrivals_interrupts s).stays.put (window_interrupts _).stays

theorem stopLoop_stays (s : State) : Stays s (stopLoop s) := by
  rw [stopLoop_eq]
  exact (arrivals_interrupts s).stays.trans ⟨rfl, rfl, rfl, rfl, id, rfl⟩

/-- What `HV_ON` leaves, but for the latch it raises. -/
theorem hvOn_stays (s : State) : ∃ u, Stays s u ∧ Stays (latchWrite .hvEn true u) (hvOn s) :=
  ⟨zeroAllIf s.params.rstOnHvOn s, zeroAllIf_stays _ s, (window_interrupts _).stays⟩

theorem initAdc_stays (s : State) : Stays s (initAdc s) := by
  refine (initAdc_interleaved s).stays fun f hf u => ?_
  simp only [List.mem_cons, List.not_mem_nil, or_false] at hf
  rcases hf with rfl | rfl <;> exact ⟨rfl, rfl, rfl, rfl, id, rfl⟩

theorem rails_stay (b : Bool) (s : State) : Stays s (gpioWrite .en5v b (gpioWrite .en3v3 b s)) := by
  refine (gpioWrites_interleaved .en3v3 .en5v b s).stays fun f hf u => ?_
  simp only [List.mem_cons, List.not_mem_nil, or_false] at hf
  rcases hf with rfl | rfl <;> exact latchWrite_stays _ _ (by simp) u

/-- What `ADC_RATE` leaves: the rate code stays legal. -/
theorem setRate_stays (code : Byte) (s : State) :
    ((setRate code s).disp.txLen = s.disp.txLen ∧ (setRate code s).env.ee = s.env.ee ∧
      (setRate code s).spi = s.spi) ∧ (s.adc.rateCode ≤ 6#3 → (setRate code s).adc.rateCode ≤ 6#3) ∧
      (setRate code s).hv = s.hv ∧ ((setRate code s).gpio.hvEn = true → s.gpio.hvEn = true) := by
  refine Interleaved.rel (R := fun s t : State => (t.disp.txLen = s.disp.txLen ∧ t.env.ee = s.env.ee ∧
      t.spi = s.spi) ∧ (s.adc.rateCode ≤ 6#3 → t.adc.rateCode ≤ 6#3) ∧ t.hv = s.hv ∧
      (t.gpio.hvEn = true → s.gpio.hvEn = true))
    (fun h k => ⟨⟨k.1.1.trans h.1.1, k.1.2.1.trans h.1.2.1, k.1.2.2.trans h.1.2.2⟩, fun e => k.2.1 (h.2.1 e),
      k.2.2.1.trans h.2.2.1, fun e => h.2.2.2 (k.2.2.2 e)⟩)
    (fun h => ⟨⟨h.stays.txLen, h.stays.ee, h.stays.spi⟩, fun e => (by rw [h.stays.rate]; exact e), h.stays.hv,
      h.stays.hvEn⟩) ?_ (setRate_interleaved code s)
  intro f hf u
  split at hf
  · rename_i hk
    simp only [List.mem_cons, List.not_mem_nil, or_false] at hf
    rcases hf with rfl | rfl
    · have legal : ∀ c : Byte, rateCodeKnown c = true → c.extractLsb' 0 3 ≤ 6#3 := by decide
      exact ⟨⟨rfl, rfl, rfl⟩, fun _ => legal _ hk, rfl, id⟩
    · exact ⟨⟨rfl, rfl, rfl⟩, id, rfl, id⟩
  · cases hf

/-- What the HV safety state and `HV_EN` become in a handler: only `HV_ON` raises the latch (R40, R45 to R48). -/
theorem handler_hv {i : Instr} (hi : i ≠ .reset) (s : State) :
    (handler i s).hv = hvAfter i s.hv ∧ (i ≠ .hvOn → (handler i s).gpio.hvEn = true → s.gpio.hvEn = true) := by
  have stays : ∀ {t}, Stays s t → t.hv = s.hv ∧ (i ≠ .hvOn → t.gpio.hvEn = true → s.gpio.hvEn = true) :=
    fun h => ⟨h.hv, fun _ => h.hvEn⟩
  have does : ∀ {t p evs}, Does s t p evs → t.hv = s.hv ∧
      (i ≠ .hvOn → t.gpio.hvEn = true → s.gpio.hvEn = true) :=
    fun d => ⟨d.beside.shared.hv, fun _ => d.beside.shared.hvEnFalls⟩
  have answers : ∀ {t} (bytes : List Byte), Stays s t → (respond bytes t).hv = s.hv ∧
      (i ≠ .hvOn → (respond bytes t).gpio.hvEn = true → s.gpio.hvEn = true) := fun {t} bytes h =>
    have d := (respond_does bytes t).beside.shared
    ⟨d.hv.trans h.hv, fun _ e => h.hvEn (d.hvEnFalls e)⟩
  cases i with
  | reset => exact absurd rfl hi
  | ledOn | ledOff | p3v3On | p3v3Off | p5vOn | p5vOff | hvOff =>
    exact stays ((gpioWrite_interleaved _ _ s).staysOne (latchWrite_stays _ _ (by simp)))
  | pallOn => exact stays (rails_stay true s)
  | pallOff => exact stays (rails_stay false s)
  | tempSipm => exact does (reportAnalog_does .sipmTherm s)
  | tempUc => exact does (reportAnalog_does .ucTemp s)
  | eeRdb a => exact does (reportByte_does _ s)
  | eeRdw a8 => exact does (reportWord_does _ s)
  | eeWrb a v => exact does (eeWriteIfChanged_does _ _ s)
  | eeWrw a8 hi lo => exact does (eeWriteWordIfChanged_does _ _ _ s)
  | musicSpiInit => exact does (spiInit_does s)
  | musicLoad f => obtain ⟨m, h, -⟩ := loadMap_does (chipOr f) s; exact does h
  | musicPrint f => exact does (printMap_does _ s)
  | musicApply f =>
    obtain ⟨_, _, _, h, -⟩ := verifiedWrites_spec (chipOr f) (mapEntries (chipOr f) s) s
    exact does (t := applyMap (chipOr f) s) h
  | musicRd f a => obtain ⟨_, _, _, _, h, -⟩ := reportRegister_does (chipOr f) a s; exact does h
  | musicWr f a d => obtain ⟨_, _, h, -⟩ := spiWriteVerified_spec (chipOr f) a d s; exact does h
  | adcRate code => exact ⟨(setRate_stays code s).2.2.1, fun _ => (setRate_stays code s).2.2.2⟩
  | adcInit => exact stays (initAdc_stays s)
  | adcStart => exact stays ((prim_interleaved setLoopEn s).staysOne fun u => ⟨rfl, rfl, rfl, rfl, id, rfl⟩)
  | adcStop => exact stays (stopLoop_stays s)
  | adcRdavg ch =>
    simp only [handler, reportAverage_eq, respondBig]
    exact answers _ (((arrivals_interrupts s).stays.trans (⟨rfl, rfl, rfl, rfl, id, rfl⟩ :
      Stays (arrivals s) (channelRead s.params.rstOnAvgRead ch (arrivals s)))).trans (window_interrupts _).stays)
  | adcRdall => exact ⟨rfl, fun _ => id⟩
  | adcRecoff =>
    have h := recordOffsets_stays s
    have e : handler .adcRecoff s = recordOffsets s := rfl
    rw [e]
    generalize recordOffsets s = t at h ⊢
    exact ⟨h.hv, fun _ => h.hvEn⟩
  | adcRdoff ch =>
    simp only [handler, reportOffset_eq, respondBig]
    exact answers _ ((arrivals_interrupts s).stays.trans (window_interrupts _).stays)
  | hvOn =>
    obtain ⟨u, h1, h2⟩ := hvOn_stays s
    exact ⟨h2.hv.trans h1.hv, fun h => absurd rfl h⟩
  | hvsafeEn => exact ⟨(enableSafety_stays s).hv, fun _ => (enableSafety_stays s).hvEn⟩
  | hvStat => exact answers _ (window_interrupts s).stays
  | hvSetmax uA => exact ⟨(setMaxCurrent_stays uA s).hv, fun _ => (setMaxCurrent_stays uA s).hvEn⟩
  | devId =>
    by_cases h : serialLength s = Config.erased
    · exact does (reportDeviceId_erased h)
    · exact does (reportDeviceId_serial h)

/-- What a handler leaves of the response length, the EEPROM, the SPI lines and the rate code. -/
structure HandlerEffects (i : Instr) (s t : State) : Prop where
  txLen : i.kind = .writeOnly → t.disp.txLen = s.disp.txLen
  answered : i.kind = .writeThenRead → i ≠ .devId → t.disp.txLen = 2
  ee : (∀ a v, i ≠ .eeWrb a v) → (∀ a h l, i ≠ .eeWrw a h l) → i ≠ .devId → t.env.ee = s.env.ee
  eeCanonical : Memory.wf s.env.ee = true → Memory.wf t.env.ee = true
  eeInRange : stopOf i s = none → (∀ c ∈ s.env.ee, c.1 < s.params.eepromSize) →
    ∀ c ∈ t.env.ee, c.1 < s.params.eepromSize
  idle : SpiIdle s → t.spi.csN = ⟨true, true⟩ ∧ t.spi.sclk = s.params.spiCpol ∧ t.spi.mode = .addr
  rate : s.adc.rateCode ≤ 6#3 → t.adc.rateCode ≤ 6#3

/-- The effects of a handler that leaves the EEPROM. -/
theorem HandlerEffects.ofEe {i : Instr} {s t : State} (h1 : i.kind = .writeOnly → t.disp.txLen = s.disp.txLen)
    (h2 : i.kind = .writeThenRead → i ≠ .devId → t.disp.txLen = 2) (h3 : t.env.ee = s.env.ee)
    (h4 : SpiIdle s → t.spi.csN = ⟨true, true⟩ ∧ t.spi.sclk = s.params.spiCpol ∧ t.spi.mode = .addr)
    (h5 : s.adc.rateCode ≤ 6#3 → t.adc.rateCode ≤ 6#3) : HandlerEffects i s t :=
  ⟨h1, h2, fun _ _ _ => h3, fun e => h3 ▸ e, fun _ e => h3 ▸ e, h4, h5⟩

/-- The effects of a handler that leaves the EEPROM and the SPI lines. -/
theorem HandlerEffects.ofSpi {i : Instr} {s t : State} (h1 : i.kind = .writeOnly → t.disp.txLen = s.disp.txLen)
    (h2 : i.kind = .writeThenRead → i ≠ .devId → t.disp.txLen = 2) (h3 : t.env.ee = s.env.ee)
    (h4 : t.spi = s.spi) (h5 : t.adc.rateCode = s.adc.rateCode) : HandlerEffects i s t :=
  .ofEe h1 h2 h3 (fun e => h4 ▸ e) (fun e => h5 ▸ e)

/-- The effects of a handler that changes nothing but the EEPROM, of these things. -/
theorem HandlerEffects.ofWrite {i : Instr} {s t : State} (h1 : i.kind = .writeOnly → t.disp.txLen = s.disp.txLen)
    (h2 : i.kind = .writeThenRead → i ≠ .devId → t.disp.txLen = 2)
    (h3 : (∀ a v, i ≠ .eeWrb a v) → (∀ a h l, i ≠ .eeWrw a h l) → i ≠ .devId → t.env.ee = s.env.ee)
    (h4 : Memory.wf s.env.ee = true → Memory.wf t.env.ee = true)
    (h5 : stopOf i s = none → (∀ c ∈ s.env.ee, c.1 < s.params.eepromSize) →
      ∀ c ∈ t.env.ee, c.1 < s.params.eepromSize)
    (h6 : t.spi = s.spi) (h7 : t.adc.rateCode = s.adc.rateCode) : HandlerEffects i s t :=
  ⟨h1, h2, h3, h4, h5, fun e => h6 ▸ e, fun e => h7 ▸ e⟩

theorem Memory.inRange_writeIfChanged {m : Memory} {a n : Nat} {v : Byte} (ha : a < n) (h : ∀ c ∈ m, c.1 < n) :
    ∀ c ∈ m.writeIfChanged a v, c.1 < n := by
  intro c hc
  rcases Memory.mem_writeIfChanged hc with rfl | hc
  · exact ha
  · exact h c hc

/-- What every handler but that of `RESET` leaves. -/
theorem handler_effects {i : Instr} (hi : i ≠ .reset) (s : State) : HandlerEffects i s (handler i s) := by
  have stays : ∀ {t}, i.kind = .writeOnly → Stays s t → HandlerEffects i s t := fun hk h =>
    .ofSpi (fun _ => h.txLen) (fun e => by rw [hk] at e; cases e) h.ee h.spi h.rate
  have staysBut : ∀ {t g}, i.kind = .writeOnly → StaysBut g s t → HandlerEffects i s t := fun hk h =>
    .ofSpi (fun _ => h.txLen) (fun e => by rw [hk] at e; cases e) h.ee h.spi h.rate
  have answers : ∀ {t bytes}, i.kind = .writeThenRead → bytes.length = 2 → Stays s t →
      HandlerEffects i s (respond bytes t) := by
    intro t bytes hk hb h
    have d := (respond_does bytes t).part
    exact .ofSpi (fun e => by rw [hk] at e; cases e) (fun _ _ => by rw [respond_disp]; exact hb)
      ((congrArg ForegroundPart.ee d).trans h.ee) ((congrArg ForegroundPart.spi d).trans h.spi)
      ((congrArg ForegroundPart.rateCode d).trans h.rate)
  have does : ∀ {t p evs}, Does s t p evs → (i.kind = .writeOnly → p.disp.txLen = s.disp.txLen) →
      (i.kind = .writeThenRead → i ≠ .devId → p.disp.txLen = 2) → p.ee = s.env.ee →
      (SpiIdle s → p.spi.csN = ⟨true, true⟩ ∧ p.spi.sclk = s.params.spiCpol ∧ p.spi.mode = .addr) →
      p.rateCode = s.adc.rateCode → HandlerEffects i s t := by
    intro t p evs d h1 h2 h3 h4 h5
    have e : t.disp = p.disp := congrArg ForegroundPart.disp d.part
    have e2 : t.spi = p.spi := congrArg ForegroundPart.spi d.part
    exact .ofEe (fun k => (congrArg Dispatcher.txLen e).trans (h1 k))
      (fun k k' => (congrArg Dispatcher.txLen e).trans (h2 k k')) ((congrArg ForegroundPart.ee d.part).trans h3)
      (fun k => by rw [e2]; exact h4 k)
      (fun k => by rw [show t.adc.rateCode = _ from (congrArg ForegroundPart.rateCode d.part).trans h5]; exact k)
  cases i with
  | reset => exact absurd rfl hi
  | ledOn | ledOff | p3v3On | p3v3Off | p5vOn | p5vOff | hvOff =>
    exact stays rfl ((gpioWrite_interleaved _ _ s).staysOne (latchWrite_stays _ _ (by simp)))
  | pallOn => exact stays rfl (rails_stay true s)
  | pallOff => exact stays rfl (rails_stay false s)
  | tempSipm => exact does (reportAnalog_does .sipmTherm s) (fun e => by cases e) (fun _ _ => rfl) rfl id rfl
  | tempUc => exact does (reportAnalog_does .ucTemp s) (fun e => by cases e) (fun _ _ => rfl) rfl id rfl
  | eeRdb a => exact does (reportByte_does _ s) (fun e => by cases e) (fun _ _ => rfl) rfl id rfl
  | eeRdw a8 => exact does (reportWord_does _ s) (fun e => by cases e) (fun _ _ => rfl) rfl id rfl
  | eeWrb a v =>
    have d := (eeWriteIfChanged_does (address16 a) v s).part
    have e : (handler (.eeWrb a v) s).env.ee = _ := congrArg ForegroundPart.ee d
    exact .ofWrite (fun _ => congrArg (fun p : ForegroundPart => p.disp.txLen) d) (fun e => by cases e)
      (fun h => absurd rfl (h a v)) (fun h => by rw [e]; exact Memory.wf_writeIfChanged _ _ h)
      (fun hs h => by
        rw [e]; exact Memory.inRange_writeIfChanged (eeStop_eq_none.mp hs (address16 a) (by simp)) h)
      (congrArg ForegroundPart.spi d) (congrArg ForegroundPart.rateCode d)
  | eeWrw a8 vh vl =>
    have d := (eeWriteWordIfChanged_does (address8 a8) vh vl s).part
    have e : (handler (.eeWrw a8 vh vl) s).env.ee = _ := congrArg ForegroundPart.ee d
    exact .ofWrite (fun _ => congrArg (fun p : ForegroundPart => p.disp.txLen) d) (fun e => by cases e)
      (fun _ h => absurd rfl (h a8 vh vl))
      (fun h => by rw [e]; exact Memory.wf_writeIfChanged _ _ (Memory.wf_writeIfChanged _ _ h))
      (fun hs h => by
        rw [e]
        exact Memory.inRange_writeIfChanged (eeStop_eq_none.mp hs (address8 a8 + 1) (by simp))
          (Memory.inRange_writeIfChanged (eeStop_eq_none.mp hs (address8 a8) (by simp)) h))
      (congrArg ForegroundPart.spi d) (congrArg ForegroundPart.rateCode d)
  | musicSpiInit =>
    exact does (spiInit_does s) (fun _ => rfl) (fun e => by cases e) rfl (fun _ => ⟨rfl, rfl, rfl⟩) rfl
  | musicLoad f =>
    obtain ⟨m, h, -⟩ := loadMap_does (chipOr f) s
    exact does h (fun _ => rfl) (fun e => by cases e) rfl id rfl
  | musicPrint f => exact does (printMap_does _ s) (fun _ => rfl) (fun e => by cases e) rfl id rfl
  | musicApply f =>
    obtain ⟨_, _, _, h, _, _, hid, -⟩ := verifiedWrites_spec (chipOr f) (mapEntries (chipOr f) s) s
    have hp : (applyMap (chipOr f) s).params = s.params := congrArg ForegroundPart.params h.part
    refine does (t := applyMap (chipOr f) s) h (fun _ => rfl) (fun e => by cases e) rfl (fun hs => ?_) rfl
    have := hid hs
    change SpiIdle (applyMap (chipOr f) s) at this
    simp only [SpiIdle, hp] at this
    exact this
  | musicRd f a =>
    obtain ⟨_, _, _, _, h, -⟩ := reportRegister_does (chipOr f) a s
    exact does h (fun e => by cases e) (fun _ _ => rfl) rfl
      (fun hs => ⟨by simp only [hs.1, put_true_idle], rfl, hs.2.2⟩) rfl
  | musicWr f a d =>
    obtain ⟨_, _, h, -⟩ := spiWriteVerified_spec (chipOr f) a d s
    exact does h (fun _ => rfl) (fun e => by cases e) rfl
      (fun hs => ⟨by simp only [hs.1, put_true_idle], rfl, rfl⟩) rfl
  | adcRate code =>
    obtain ⟨⟨h1, h2, h3⟩, h4, -⟩ := setRate_stays code s
    exact .ofEe (fun _ => h1) (fun e => by cases e) h2 (fun e => by
      show (setRate code s).spi.csN = _ ∧ (setRate code s).spi.sclk = _ ∧ (setRate code s).spi.mode = _
      rw [h3]; exact e) h4
  | adcInit => exact stays rfl (initAdc_stays s)
  | adcStart => exact stays rfl ((prim_interleaved setLoopEn s).staysOne fun u => ⟨rfl, rfl, rfl, rfl, id, rfl⟩)
  | adcStop => exact stays rfl (stopLoop_stays s)
  | adcRdavg ch =>
    simp only [handler, reportAverage_eq, respondBig]
    exact answers rfl rfl (((arrivals_interrupts s).stays.trans (⟨rfl, rfl, rfl, rfl, id, rfl⟩ :
      Stays (arrivals s) (channelRead s.params.rstOnAvgRead ch (arrivals s)))).trans (window_interrupts _).stays)
  | adcRdall => exact stays rfl ⟨rfl, rfl, rfl, rfl, id, rfl⟩
  | adcRecoff => exact staysBut rfl (recordOffsets_stays s)
  | adcRdoff ch =>
    simp only [handler, reportOffset_eq, respondBig]
    exact answers rfl rfl ((arrivals_interrupts s).stays.trans (window_interrupts _).stays)
  | hvOn =>
    obtain ⟨u, h1, h2⟩ := hvOn_stays s
    exact .ofSpi (fun _ => h2.txLen.trans h1.txLen) (fun e => by cases e) (h2.ee.trans h1.ee) (h2.spi.trans h1.spi)
      (h2.rate.trans h1.rate)
  | hvsafeEn => exact staysBut rfl (enableSafety_stays s)
  | hvStat => exact answers rfl rfl (window_interrupts s).stays
  | hvSetmax uA => exact staysBut rfl (setMaxCurrent_stays uA s)
  | devId =>
    by_cases h : serialLength s = Config.erased
    · have d := reportDeviceId_erased h
      have hl : ∀ a ∈ List.range' 0 Config.serialRegion, a < s.params.eepromSize := by
        intro a ha
        have : a < 65 := by simpa [Config.serialRegion] using ha
        simp only [Params.eepromSize, Config.eepromMin]
        omega
      generalize List.range' 0 Config.serialRegion = l at *
      have e : (handler .devId s).env.ee = s.env.ee.erase l := congrArg ForegroundPart.ee d.part
      refine .ofWrite (fun e => by cases e) (fun _ e => absurd rfl e) (fun _ _ e => absurd rfl e)
        (fun k => by rw [e]; exact Memory.wf_erase _ k) (fun _ k c hc => ?_) (congrArg ForegroundPart.spi d.part)
        (congrArg ForegroundPart.rateCode d.part)
      rw [e] at hc
      rcases Memory.mem_erase hc with hc | hc
      · exact hl _ hc
      · exact k c hc
    · have d := reportDeviceId_serial h
      exact .ofSpi (fun e => by cases e) (fun _ e => absurd rfl e) (congrArg ForegroundPart.ee d.part)
        (congrArg ForegroundPart.spi d.part) (congrArg ForegroundPart.rateCode d.part)

end Sys2Proof.Machine
end

