-- ==== Sys2Proof/Laws/Foreground.lean ====
section
/-! SUPPORT. What the foreground does is a function of the foreground's part of the state: each operation leads two
states with the same foreground part and record to two such states again (R318). -/

namespace Sys2Proof.Machine

/-- The same foreground part, and the same accesses of the foreground in the record. -/
def SameForeground (s t : State) : Prop :=
  foregroundPart s = foregroundPart t ∧ foreground s.env.trace = foreground t.env.trace

/-- What a step does to the foreground depends on the foreground alone. -/
def OfForeground (f : State → State) : Prop := ∀ s t, SameForeground s t → SameForeground (f s) (f t)

/-- The same for a step that yields a value, and the value. -/
def OfForegroundGet {α : Type} (f : State → α × State) : Prop :=
  ∀ s t, SameForeground s t → (f s).1 = (f t).1 ∧ SameForeground (f s).2 (f t).2

/-- The fields of two states with the same foreground. -/
structure SameFields (s t : State) : Prop where
  disp : s.disp = t.disp
  spi : s.spi = t.spi
  params : s.params = t.params
  led : s.gpio.led = t.gpio.led
  en3v3 : s.gpio.en3v3 = t.gpio.en3v3
  en5v : s.gpio.en5v = t.gpio.en5v
  inited : s.adc.inited = t.adc.inited
  rateCode : s.adc.rateCode = t.adc.rateCode
  ee : s.env.ee = t.env.ee
  bus : s.env.bus = t.env.bus
  miso : s.env.miso = t.env.miso
  analog : s.env.analog = t.env.analog
  draws : s.env.draws = t.env.draws
  record : foreground s.env.trace = foreground t.env.trace

theorem SameForeground.fields {s t : State} (h : SameForeground s t) : SameFields s t := by
  obtain ⟨h, k⟩ := h
  simp only [foregroundPart, ForegroundPart.mk.injEq] at h
  obtain ⟨h1, h2, h3, h4, h5, h6, h7, h8, h9, h10, h11, h12, h13⟩ := h
  exact ⟨h1, h2, h3, h4, h5, h6, h7, h8, h9, h10, h11, h12, h13, k⟩

theorem SameFields.same {s t : State} (h : SameFields s t) : SameForeground s t := by
  obtain ⟨h1, h2, h3, h4, h5, h6, h7, h8, h9, h10, h11, h12, h13, h14⟩ := h
  simp [SameForeground, foregroundPart, *]

theorem SameForeground.pinHistory {s t : State} (h : SameForeground s t) :
    Machine.pinHistory s = Machine.pinHistory t := by
  unfold Machine.pinHistory
  rw [foreground_filter_onPins, h.2, ← foreground_filter_onPins]

/-! ## Putting operations together -/

theorem OfForeground.id : OfForeground (fun s => s) := fun _ _ h => h

theorem OfForeground.comp {f g : State → State} (hf : OfForeground f) (hg : OfForeground g) :
    OfForeground (fun s => f (g s)) := fun _ _ h => hf _ _ (hg _ _ h)

theorem OfForegroundGet.snd {α : Type} {f : State → α × State} (hf : OfForegroundGet f) :
    OfForeground (fun s => (f s).2) := fun _ _ h => (hf _ _ h).2

theorem OfForegroundGet.andThen {α : Type} {f : State → α × State} (hf : OfForegroundGet f)
    {g : α → State → State} (hg : ∀ a, OfForeground (g a)) : OfForeground (fun s => g (f s).1 (f s).2) := by
  intro s t h
  obtain ⟨h1, h2⟩ := hf s t h
  show SameForeground (g (f s).1 (f s).2) (g (f t).1 (f t).2)
  rw [h1]
  exact hg _ _ _ h2

theorem OfForeground.foldl {α : Type} {f : State → α → State} (hf : ∀ a, OfForeground (fun s => f s a))
    (l : List α) : OfForeground (fun s => l.foldl f s) := by
  induction l with
  | nil => exact OfForeground.id
  | cons a l ih => exact fun s t h => ih _ _ (hf a _ _ h)

theorem window_ofForeground : OfForeground window := fun _ _ h => ⟨by simp [h.1], by simp [h.2]⟩

theorem OfForeground.prim {f : State → State} (hf : OfForeground f) : OfForeground (prim f) :=
  window_ofForeground.comp hf

theorem OfForeground.critical {f : State → State} (hf : OfForeground f) : OfForeground (critical f) :=
  fun _ _ h => window_ofForeground _ _ (hf _ _ (window_ofForeground _ _ h))

/-! ## The plain updates -/

theorem emit_ofForeground (evs : List Event) : OfForeground (emit evs) := fun _ _ h => ⟨h.1, by simp [h.2]⟩

theorem disp_ofForeground (g : Dispatcher → Dispatcher) : OfForeground (fun s => { s with disp := g s.disp }) :=
  fun _ _ h => let k := h.fields; SameFields.same { k with disp := congrArg g k.disp }

theorem spi_ofForeground (g : Spi → Spi) : OfForeground (fun s => { s with spi := g s.spi }) :=
  fun _ _ h => let k := h.fields; SameFields.same { k with spi := congrArg g k.spi }

theorem latchWrite_ofForeground (l : Latch) (b : Bool) : OfForeground (latchWrite l b) := by
  intro s t h
  obtain ⟨h1, h2, h3, h4, h5, h6, h7, h8, h9, h10, h11, h12, h13, h14⟩ := h.fields
  cases l <;> simp [SameForeground, foregroundPart, latchWrite, setLatch, *]

theorem programByte_ofForeground (a : Nat) (v : Byte) : OfForeground (programByte a v) :=
  fun _ _ h => let k := h.fields
    emit_ofForeground _ _ _ (SameFields.same { k with ee := congrArg (fun m => Memory.write m a v) k.ee })

theorem pinStep_ofForeground (e : Event) : OfForeground (pinStep e) :=
  (emit_ofForeground [e]).comp (spi_ofForeground (fun p => latchPin p e))

theorem drive_ofForeground (evs : List Event) : OfForeground (drive evs) :=
  OfForeground.foldl (fun e => (pinStep_ofForeground e).prim) evs

/-! ## The devices and the buffers -/

theorem eeReadStep_ofForeground (a : Nat) : OfForegroundGet (eeReadStep a) := by
  intro s t h
  have e : eeRead a s = eeRead a t := congrArg (fun m => Memory.read m a) h.fields.ee
  refine ⟨e, ?_⟩
  unfold eeReadStep
  rw [e]
  exact (emit_ofForeground _).prim _ _ h

theorem eeReadWord_ofForeground (a : Nat) : OfForegroundGet (eeReadWord a) := by
  intro s t h
  obtain ⟨h1, h2⟩ := eeReadStep_ofForeground a s t h
  obtain ⟨k1, k2⟩ := eeReadStep_ofForeground (a + 1) _ _ h2
  exact ⟨congrArg₂ joinBytes h1 k1, k2⟩

theorem eeWriteIfChanged_ofForeground (a : Nat) (v : Byte) : OfForeground (eeWriteIfChanged a v) := by
  refine (eeReadStep_ofForeground a).andThen (g := fun b s => if b != v then eeProgram a v s else s) fun b s t h => ?_
  split
  · exact (programByte_ofForeground a v).prim _ _ h
  · exact h

theorem writeTx_ofForeground (bytes : List Byte) (k : Nat) : OfForeground (writeTx k bytes) := by
  induction bytes generalizing k with
  | nil => exact OfForeground.id
  | cons b bytes ih =>
    exact (ih (k + 1)).comp (f := writeTx (k + 1) bytes)
      (disp_ofForeground (fun d => { d with tx := d.tx.setIfInBounds k b })).prim

theorem respond_ofForeground (bytes : List Byte) : OfForeground (respond bytes) :=
  (disp_ofForeground (fun d => { d with txLen := bytes.length })).prim.comp (writeTx_ofForeground bytes 0)

theorem adcSingleShot_ofForeground (src : AnalogSource) : OfForegroundGet (adcSingleShot src) := by
  intro s t h
  have k := h.fields
  refine ⟨by simp only [adcSingleShot, k.analog], window_ofForeground _ _ ?_⟩
  unfold takeReading
  rw [k.analog]
  exact emit_ofForeground _ _ _ (SameFields.same { k with analog := rfl })

theorem asicAnswer_ofForeground (c : Chip) (m : SpiMode) (out : Byte) : OfForegroundGet (asicAnswer c m out) := by
  intro s t h
  have k := h.fields
  unfold asicAnswer
  rw [k.miso, h.pinHistory]
  exact ⟨rfl, SameFields.same { k with miso := rfl }⟩

theorem spiXfer_ofForeground (c : Chip) (m : SpiMode) (out : Byte) : OfForegroundGet (spiXfer c m out) := by
  intro s t h
  obtain ⟨e, k⟩ := asicAnswer_ofForeground c m out s t h
  simp only [spiXfer, e, h.fields.params]
  exact ⟨trivial, emit_ofForeground _ _ _ (drive_ofForeground _ _ _ k)⟩

theorem delayUs_ofForeground (n : Nat) : OfForeground (delayUs n) := (emit_ofForeground _).prim

theorem chipSelect_ofForeground (c : Chip) (b : Bool) : OfForeground (chipSelect c b) := drive_ofForeground _

theorem setSpiMode_ofForeground (m : SpiMode) : OfForeground (setSpiMode m) := drive_ofForeground _

theorem spiWrite_ofForeground (c : Chip) (addr : Byte) (data : Word16) : OfForeground (spiWrite c addr data) := by
  intro s t h
  have k := delayUs_ofForeground 100 _ _ (setSpiMode_ofForeground .data _ _
    (spiXfer_ofForeground c .addr (addrByte false addr) _ _ (chipSelect_ofForeground c false _ _ h)).2)
  have k := delayUs_ofForeground 100 _ _ (spiXfer_ofForeground c .data (hiByte data) _ _ k).2
  have k := (spiXfer_ofForeground c .data (loByte data) _ _ k).2
  exact setSpiMode_ofForeground .addr _ _ (chipSelect_ofForeground c true _ _ k)

theorem spiRead_ofForeground (c : Chip) (addr : Byte) : OfForegroundGet (spiRead c addr) := by
  intro s t h
  have k := delayUs_ofForeground 100 _ _
    (spiXfer_ofForeground c .addr (addrByte true addr) _ _ (chipSelect_ofForeground c false _ _ h)).2
  have hi := spiXfer_ofForeground c .addr 0x00#8 _ _ k
  have lo := spiXfer_ofForeground c .addr 0x00#8 _ _ (delayUs_ofForeground 100 _ _ hi.2)
  exact ⟨congrArg₂ joinBytes hi.1 lo.1, chipSelect_ofForeground c true _ _ lo.2⟩

theorem reportMismatch_ofForeground (c : Chip) (addr : Byte) (data r : Word16) :
    OfForeground (reportMismatch c addr data r) := by
  intro s t h
  unfold reportMismatch
  split
  · exact (emit_ofForeground _).prim _ _ ((spi_ofForeground (fun p => { p with mismatch := true })).prim _ _ h)
  · exact h

theorem spiWriteVerified_ofForeground (c : Chip) (addr : Byte) (data : Word16) :
    OfForeground (spiWriteVerified c addr data) :=
  ((spiRead_ofForeground c addr).andThen (fun r => reportMismatch_ofForeground c addr data r)).comp
    (spiWrite_ofForeground c addr data)

theorem putEntryAddr_ofForeground (c : Chip) (i : Fin Config.nMap) (a : Byte) : OfForeground (putEntryAddr c i a) :=
  disp_ofForeground (fun d => { d with
    map := d.map.put c ((d.map.get c).set i { (d.map.get c).get i with addr := a }) })

theorem putEntryData_ofForeground (c : Chip) (i : Fin Config.nMap) (v : Word16) : OfForeground (putEntryData c i v) :=
  disp_ofForeground (fun d => { d with
    map := d.map.put c ((d.map.get c).set i { (d.map.get c).get i with data := v }) })

theorem loadEntry_ofForeground (c : Chip) (i : Fin Config.nMap) : OfForeground (fun s => loadEntry c s i) :=
  (eeReadStep_ofForeground (mapEntryAddress c i 0)).andThen
    (g := fun a s => prim (putEntryData c i (eeReadWord (mapEntryAddress c i 1) (prim (putEntryAddr c i a) s)).1)
      (eeReadWord (mapEntryAddress c i 1) (prim (putEntryAddr c i a) s)).2)
    fun a => ((eeReadWord_ofForeground (mapEntryAddress c i 1)).andThen
      (g := fun d => prim (putEntryData c i d)) (fun d => (putEntryData_ofForeground c i d).prim)).comp
        (putEntryAddr_ofForeground c i a).prim

theorem reportSerial_ofForeground (l : Byte) : OfForeground (reportSerial l) := by
  have copy : ∀ i, OfForeground (fun s => copySerialByte s i) := fun i =>
    (eeReadStep_ofForeground (i + 1)).andThen (g := fun v => prim (putTx (i + 1) v))
      (fun v => (disp_ofForeground (fun d => { d with tx := d.tx.setIfInBounds (i + 1) v })).prim)
  exact (disp_ofForeground (fun d => { d with txLen := 1 + l.toNat })).prim.comp
    ((OfForeground.foldl (f := copySerialByte) copy _).comp
      (disp_ofForeground (fun d => { d with tx := d.tx.setIfInBounds 0 l })).prim)

theorem reportDeviceId_ofForeground : OfForeground reportDeviceId :=
  (eeReadStep_ofForeground 0).andThen
    (g := fun l s => if l = Config.erased then reportSerial 0x00#8 (eeEraseRegion 0 Config.serialRegion s)
      else reportSerial l s)
    fun l s t h => by
      dsimp only
      split
      · exact reportSerial_ofForeground _ _ _ (OfForeground.foldl (f := fun s a => eeWriteIfChanged a 0x00#8 s)
          (fun a => eeWriteIfChanged_ofForeground a _) _ _ _ h)
      · exact reportSerial_ofForeground _ _ _ h

theorem loadMap_ofForeground (c : Chip) : OfForeground (loadMap c) := by
  unfold loadMap
  generalize List.finRange Config.nMap = l
  exact (disp_ofForeground (fun d => { d with mapLoaded := d.mapLoaded.put c true })).prim.comp
    (OfForeground.foldl (f := loadEntry c) (loadEntry_ofForeground c) l)

theorem applyMap_ofForeground (c : Chip) : OfForeground (applyMap c) := by
  intro s t h
  unfold applyMap mapEntries
  rw [h.fields.disp]
  exact OfForeground.foldl (f := fun s (e : MapEntry) => spiWriteVerified c e.addr e.data s)
    (fun e => spiWriteVerified_ofForeground _ e.addr e.data) _ s t h

theorem printMap_ofForeground (c : Chip) : OfForeground (printMap c) := by
  intro s t h
  unfold printMap mapEntries
  rw [h.fields.disp]
  exact (emit_ofForeground _).prim _ _ h

theorem spiInit_ofForeground : OfForeground spiInit := by
  intro s t h
  unfold spiInit
  rw [h.fields.params]
  exact (spi_ofForeground (fun p => { p with inited := true })).prim _ _ (drive_ofForeground _ _ _ h)

theorem resetBlock_ofForeground : OfForeground resetBlock := by
  intro s t h
  have k := h.fields
  unfold resetBlock
  rw [k.params]
  exact SameFields.same { k with
    disp := rfl, spi := rfl, params := rfl, led := rfl, en3v3 := rfl, en5v := rfl, inited := rfl, rateCode := rfl }

theorem setRate_ofForeground (code : Byte) : OfForeground (setRate code) := by
  intro s t h
  unfold setRate
  split
  · have k := h.fields
    exact (emit_ofForeground _).prim _ _ (window_ofForeground _ _ (SameFields.same { k with rateCode := rfl }))
  · exact h

theorem initAdc_ofForeground : OfForeground initAdc := fun _ _ h =>
  have k := ((emit_ofForeground [.adcInit]).prim _ _ h).fields
  window_ofForeground _ _ (SameFields.same { k with inited := rfl })

theorem beginDispatch_ofForeground : OfForeground beginDispatch :=
  (disp_ofForeground (fun d => { d with txLen := 0 })).prim.comp window_ofForeground

/-- Whether the spec refuses a command depends on the foreground alone. -/
theorem stopOf_sameForeground (i : Instr) {s t : State} (h : SameForeground s t) : stopOf i s = stopOf i t := by
  have k := h.fields
  cases i with
  | devId =>
    exact congrArg (fun m : Memory =>
      refuseUnless (m.read 0 == Config.erased || decide ((m.read 0).toNat < Config.serialRegion)) .serialTooLong) k.ee
  | _ => simp only [stopOf, eeStop, mapStop, spiStop, mapEntries, k.disp, k.spi, k.params]

end Sys2Proof.Machine
end

