-- ==== Sys2Proof/Laws/PerInstr.lean ====
section
/-! SUPPORT. A family of laws with one lemma per command: every command's frame is of its row of the opcode
map. -/

namespace Sys2Proof.Laws.EncodesToItsRow

/-- The first byte of the command's frame is an opcode of the map, and the row of that opcode has the command's
kind and a format as long as the frame (R101, R105). -/
def Statement (i : Instr) : Prop :=
  ∃ r, rowOf ((encode i).headD 0x00#8) = some r ∧ r.op = (encode i).headD 0x00#8 ∧
    r.fmt.length = (encode i).length ∧ r.kind = i.kind

theorem reset : Statement .reset := ⟨_, rfl, rfl, rfl, rfl⟩
theorem ledOn : Statement .ledOn := ⟨_, rfl, rfl, rfl, rfl⟩
theorem ledOff : Statement .ledOff := ⟨_, rfl, rfl, rfl, rfl⟩
theorem p3v3On : Statement .p3v3On := ⟨_, rfl, rfl, rfl, rfl⟩
theorem p3v3Off : Statement .p3v3Off := ⟨_, rfl, rfl, rfl, rfl⟩
theorem p5vOn : Statement .p5vOn := ⟨_, rfl, rfl, rfl, rfl⟩
theorem p5vOff : Statement .p5vOff := ⟨_, rfl, rfl, rfl, rfl⟩
theorem pallOn : Statement .pallOn := ⟨_, rfl, rfl, rfl, rfl⟩
theorem pallOff : Statement .pallOff := ⟨_, rfl, rfl, rfl, rfl⟩
theorem tempSipm : Statement .tempSipm := ⟨_, rfl, rfl, rfl, rfl⟩
theorem tempUc : Statement .tempUc := ⟨_, rfl, rfl, rfl, rfl⟩
theorem eeRdb (a : Word16) : Statement (.eeRdb a) := ⟨_, rfl, rfl, rfl, rfl⟩
theorem eeRdw (a8 : Byte) : Statement (.eeRdw a8) := ⟨_, rfl, rfl, rfl, rfl⟩
theorem eeWrb (a : Word16) (v : Byte) : Statement (.eeWrb a v) := ⟨_, rfl, rfl, rfl, rfl⟩
theorem eeWrw (a8 : Byte) (hi : Byte) (lo : Byte) : Statement (.eeWrw a8 hi lo) := ⟨_, rfl, rfl, rfl, rfl⟩
theorem musicSpiInit : Statement .musicSpiInit := ⟨_, rfl, rfl, rfl, rfl⟩
theorem musicLoad (c : BitVec 2) : Statement (.musicLoad c) := ⟨_, rfl, rfl, rfl, rfl⟩
theorem musicPrint (c : BitVec 2) : Statement (.musicPrint c) := ⟨_, rfl, rfl, rfl, rfl⟩
theorem musicApply (c : BitVec 2) : Statement (.musicApply c) := ⟨_, rfl, rfl, rfl, rfl⟩
theorem musicRd (c : BitVec 2) (a : Byte) : Statement (.musicRd c a) := ⟨_, rfl, rfl, rfl, rfl⟩
theorem musicWr (c : BitVec 2) (a : Byte) (d : Word16) : Statement (.musicWr c a d) := ⟨_, rfl, rfl, rfl, rfl⟩
theorem adcRate (code : Byte) : Statement (.adcRate code) := ⟨_, rfl, rfl, rfl, rfl⟩
theorem adcInit : Statement .adcInit := ⟨_, rfl, rfl, rfl, rfl⟩
theorem adcStart : Statement .adcStart := ⟨_, rfl, rfl, rfl, rfl⟩
theorem adcStop : Statement .adcStop := ⟨_, rfl, rfl, rfl, rfl⟩
theorem adcRdavg (ch : BitVec 4) : Statement (.adcRdavg ch) := ⟨_, rfl, rfl, rfl, rfl⟩
theorem adcRdall : Statement .adcRdall := ⟨_, rfl, rfl, rfl, rfl⟩
theorem adcRecoff : Statement .adcRecoff := ⟨_, rfl, rfl, rfl, rfl⟩
theorem adcRdoff (ch : BitVec 4) : Statement (.adcRdoff ch) := ⟨_, rfl, rfl, rfl, rfl⟩
theorem hvOn : Statement .hvOn := ⟨_, rfl, rfl, rfl, rfl⟩
theorem hvOff : Statement .hvOff := ⟨_, rfl, rfl, rfl, rfl⟩
theorem hvsafeEn : Statement .hvsafeEn := ⟨_, rfl, rfl, rfl, rfl⟩
theorem hvStat : Statement .hvStat := ⟨_, rfl, rfl, rfl, rfl⟩
theorem hvSetmax (uA : Word16) : Statement (.hvSetmax uA) := ⟨_, rfl, rfl, rfl, rfl⟩
theorem devId : Statement .devId := ⟨_, rfl, rfl, rfl, rfl⟩

end Sys2Proof.Laws.EncodesToItsRow
end

