-- ==== Sys2Proof/Laws/Step.lean ====
section
/-! SUPPORT. Everything a step can do, said once. -/

namespace Sys2Proof.Machine

theorem fetchFrame_snd (s : State) :
    (fetchFrame s).2 = if s.disp.rxLen < frameLength (frameOf s).op then countDraw s else s := rfl

/-- The state after the fetch differs from `s` at most in the count of drawn values. -/
theorem fetchFrame_eq (s : State) :
    ∃ draws, (fetchFrame s).2 = { s with env := { s.env with draws := draws } } := by
  rw [fetchFrame_snd]
  split
  · exact ⟨_, rfl⟩
  · exact ⟨s.env.draws, rfl⟩

/-- While no frame waits, a step makes the next move of the environment's line (R130, R138). -/
theorem step_bus {s : State} {e : EnvEvent} {rest : List EnvEvent}
    (h : s.disp.session = .idle ∨ s.disp.session = .writeReadRequested) (hq : s.env.bus.queued = e :: rest) :
    step s = envMove { s with env := { s.env with bus := ⟨rest, s.env.bus.taken + 1⟩ } } e := by
  have ht : s.env.bus.take Config.envEvent = (e, ⟨rest, s.env.bus.taken + 1⟩) := by simp only [Feed.take, hq]
  unfold step
  rcases h with h | h <;> rw [h] <;> simp only [envStep, ht]

/-- Interrupt moves do not look at the environment's moves between commands. -/
theorem irqMove_bus (s : State) (m : IrqMove) (line : Feed EnvEvent) :
    irqMove { s with env := { s.env with bus := line } } m =
      { irqMove s m with env := { (irqMove s m).env with bus := line } } := by
  cases m with
  | convReady w => simp only [irqMove, convReady]; split <;> rfl
  | serve =>
    simp only [irqMove]
    split
    · rw [takeInterrupt_eq, takeInterrupt_eq]; rfl
    · rfl

/-- Everything a step can answer as a next state (R132, R137, R138). -/
theorem step_cases {s t : State} (h : step s = .next t) :
    (s.disp.session = .writeRequested ∧ ∃ i, decode (frameOf s) = .ok i ∧ exec i (fetchFrame s).2 = .next t) ∨
    (s.disp.session = .writeRequested ∧ (∃ op, decode (frameOf s) = .error (.unknownOpcode op)) ∧
      t = raiseUnknownOpcode (fetchFrame s).2) ∨
    ((s.disp.session = .idle ∨ s.disp.session = .writeReadRequested) ∧
      envMove { s with env := { s.env with bus := (s.env.bus.take Config.envEvent).2 } }
        (s.env.bus.take Config.envEvent).1 = .next t) ∨
    (s.disp.session = .error ∧ t = leaveError s) := by
  unfold step at h
  split at h
  · rename_i hs
    unfold dispatchFrame at h
    split at h
    · rename_i i hd; exact .inl ⟨hs, i, hd, h⟩
    · rename_i op hd; exact .inr (.inl ⟨hs, ⟨op, hd⟩, (Host.Outcome.next.inj h).symm⟩)
  · rename_i hs; exact .inr (.inr (.inl ⟨.inl hs, h⟩))
  · rename_i hs; exact .inr (.inr (.inl ⟨.inr hs, h⟩))
  · rename_i hs; exact .inr (.inr (.inr ⟨hs, (Host.Outcome.next.inj h).symm⟩))

/-- Everything a move of the environment can answer as a next state (R131, R135, R314, R341, R317). -/
theorem envMove_cases {s t : State} {e : EnvEvent} (h : envMove s e = .next t) :
    (∃ bytes, e = .frameDelivered bytes ∧ 1 ≤ bytes.length ∧ bytes.length ≤ Config.rxBufSize ∧
      t = { s with disp := { s.disp with
        rx := overlay bytes s.disp.rx, rxLen := bytes.length, session := .writeRequested } }) ∨
    (∃ n, e = .readPhase n ∧ s.disp.session = .writeReadRequested ∧
      t = emit [.response (masterReceives n s)]
        (countDraw { s with disp := { s.disp with session := .idle } })) ∨
    (e = .clearError ∧ t = { s with disp := { s.disp with err := false } }) ∨
    (e = .powerOn ∧ t = resetBlock s) ∨
    (∃ m, e = .irq m ∧ t = irqMove s m) ∨ t = s := by
  cases e with
  | frameDelivered bytes =>
    simp only [envMove, deliverFrame] at h
    split at h
    · exact .inr (.inr (.inr (.inr (.inr (Host.Outcome.next.inj h).symm))))
    · split at h
      · refine .inl ⟨bytes, rfl, by omega, by assumption, (Host.Outcome.next.inj h).symm⟩
      · exact .inr (.inr (.inr (.inr (.inr (unsourced_next h).2))))
  | readPhase n =>
    simp only [envMove, readPhase] at h
    split at h
    · exact .inr (.inl ⟨n, rfl, by assumption, (Host.Outcome.next.inj h).symm⟩)
    · exact .inr (.inr (.inr (.inr (.inr (unsourced_next h).2))))
  | clearError => exact .inr (.inr (.inl ⟨rfl, (Host.Outcome.next.inj h).symm⟩))
  | powerOn => exact .inr (.inr (.inr (.inl ⟨rfl, (Host.Outcome.next.inj h).symm⟩)))
  | irq m => exact .inr (.inr (.inr (.inr (.inl ⟨m, rfl, (Host.Outcome.next.inj h).symm⟩))))

end Sys2Proof.Machine
end

