-- ==== Sys2Proof/Tests/Slice0.lean ====
section
/-! SUPPORT. Tests: what well-formedness refuses, the decoding of a word of every command, one step of every
command on the vectors of 95_test_vectors.md section 2, and for every claim with hypotheses a state and operands that
meet them. Expected values are the spec's, by the vector's number. -/

namespace Sys2Proof.Tests

open Sys2Proof.Machine

/-! ## Helpers -/

/-- The parameter values 95_test_vectors.md section 0 assumes. -/
def vecParams : Params where
  eepromExtra := 0x2000 - 207
  spiCpol := false
  spiAddrCpha := false
  adcErrMask := 0xF0#32
  rstOnAvgRead := false
  rstOnOffsetRecord := false
  rstOnHvOn := false
  rstOnSafetyEn := false
  unsourced := .refuse

/-- The reset state under those parameters. -/
def base : State := State.afterReset vecParams Env.initial

/-- The reset state where what the spec refuses has no effect. -/
def calm : State := { base with params := { vecParams with unsourced := .noEffect } }

/-- A state with this EEPROM. -/
def withEe (ee : Memory) (s : State) : State := { s with env := { s.env with ee := ee } }

/-- A state with the SPI initialised and these answers of the ASICs in line. -/
def withSpi (answers : List Byte) (s : State) : State :=
  { s with spi := { s.spi with inited := true }, env := { s.env with miso := ⟨answers, 0⟩ } }

/-- A state with this accumulator. -/
def withAcc (ch : BitVec 4) (a : Acc) (s : State) : State := setAcc ch a s

/-- A state with the ADC loop on, this word in the device and its conversion pending. -/
def withWord (w : Word32) (s : State) : State :=
  { s with adc := { s.adc with loopEn := true, irqPending := true }, env := { s.env with adcWord := w } }

/-- A state with these interrupt windows in line. -/
def withWindows (windows : List (List IrqMove)) (s : State) : State :=
  { s with env := { s.env with irq := ⟨windows, 0⟩ } }

/-- A state with both maps marked loaded. -/
def withMaps (s : State) : State := { s with disp := { s.disp with mapLoaded := ⟨true, true⟩ } }

/-- A state in which the transport has just delivered these bytes. -/
def sent (bytes : List Byte) (s : State) : State :=
  { s with disp := { s.disp with
      rx := overlay bytes s.disp.rx, rxLen := bytes.length, session := .writeRequested } }

/-- A state with these events of the environment in line. -/
def withBus (events : List EnvEvent) (s : State) : State := { s with env := { s.env with bus := ⟨events, 0⟩ } }

/-- A state with this event of the environment in line. -/
def withEvent (e : EnvEvent) (s : State) : State := withBus [e] s

/-- What a next state shows. -/
def see {α : Type} (f : State → α) : Host.Outcome State Fault Refusal → Option α
  | .next t => some (f t)
  | _ => none

/-- The session and the response. -/
def reply (s : State) : Session × List Byte := (s.disp.session, responseBytes s)

/-! ## Well-formedness -/

theorem test_wf_refuses_load_chip2 : WellFormed (.musicLoad 2#2) = false := by decide
theorem test_wf_refuses_print_chip3 : WellFormed (.musicPrint 3#2) = false := by decide
theorem test_wf_refuses_apply_chip2 : WellFormed (.musicApply 2#2) = false := by decide
theorem test_wf_refuses_rd_chip3 : WellFormed (.musicRd 3#2 0x08#8) = false := by decide
theorem test_wf_refuses_rd_bit7 : WellFormed (.musicRd 0#2 0x80#8) = false := by decide
theorem test_wf_refuses_wr_chip2 : WellFormed (.musicWr 2#2 0x08#8 0x01FF#16) = false := by decide
theorem test_wf_refuses_wr_bit7 : WellFormed (.musicWr 1#2 0xFF#8 0x01FF#16) = false := by decide
theorem test_wf_accepts_wr : WellFormed (.musicWr 1#2 0x7F#8 0xFFFF#16) = true := by decide

/-! ## Decoding: words written out from the opcode map (R105), the formats (R101) and the field rules (R102 to R104);
the first byte of the frame is the least significant byte of the word. -/

theorem test_decode_reset : decodeTableWord 8 0x01 = some .reset := by decide
theorem test_decode_ledOn : decodeTableWord 8 0x02 = some .ledOn := by decide
theorem test_decode_ledOff : decodeTableWord 8 0x03 = some .ledOff := by decide
theorem test_decode_p3v3On : decodeTableWord 8 0x04 = some .p3v3On := by decide
theorem test_decode_p3v3Off : decodeTableWord 8 0x05 = some .p3v3Off := by decide
theorem test_decode_p5vOn : decodeTableWord 8 0x06 = some .p5vOn := by decide
theorem test_decode_p5vOff : decodeTableWord 8 0x07 = some .p5vOff := by decide
theorem test_decode_pallOn : decodeTableWord 8 0x08 = some .pallOn := by decide
theorem test_decode_pallOff : decodeTableWord 8 0x09 = some .pallOff := by decide
theorem test_decode_tempSipm : decodeTableWord 8 0x0A = some .tempSipm := by decide
theorem test_decode_tempUc : decodeTableWord 8 0x0B = some .tempUc := by decide
theorem test_decode_eeRdb : decodeTableWord 24 0x00100C = some (.eeRdb 0x1000#16) := by decide
theorem test_decode_eeRdw : decodeTableWord 16 0x420D = some (.eeRdw 0x42#8) := by decide
theorem test_decode_eeWrb : decodeTableWord 32 0x5AC8000E = some (.eeWrb 0x00C8#16 0x5A#8) := by decide
theorem test_decode_eeWrw : decodeTableWord 32 0xFF01420F = some (.eeWrw 0x42#8 0x01#8 0xFF#8) := by decide
theorem test_decode_musicSpiInit : decodeTableWord 8 0x10 = some .musicSpiInit := by decide
theorem test_decode_musicLoad : decodeTableWord 16 0xFD11 = some (.musicLoad 1#2) := by decide
theorem test_decode_musicPrint : decodeTableWord 16 0x0012 = some (.musicPrint 0#2) := by decide
theorem test_decode_musicApply : decodeTableWord 16 0x0313 = some (.musicApply 3#2) := by decide
theorem test_decode_musicRd : decodeTableWord 24 0x220114 = some (.musicRd 1#2 0x22#8) := by decide
theorem test_decode_musicWr :
    decodeTableWord 40 0xFF01080015 = some (.musicWr 0#2 0x08#8 0x01FF#16) := by decide
theorem test_decode_adcRate : decodeTableWord 16 0x0316 = some (.adcRate 0x03#8) := by decide
theorem test_decode_adcInit : decodeTableWord 8 0x17 = some .adcInit := by decide
theorem test_decode_adcStart : decodeTableWord 8 0x18 = some .adcStart := by decide
theorem test_decode_adcStop : decodeTableWord 8 0x19 = some .adcStop := by decide
theorem test_decode_adcRdavg : decodeTableWord 16 0x521A = some (.adcRdavg 2#4) := by decide
theorem test_decode_adcRdall : decodeTableWord 8 0x1B = some .adcRdall := by decide
theorem test_decode_adcRecoff : decodeTableWord 8 0x1C = some .adcRecoff := by decide
theorem test_decode_adcRdoff : decodeTableWord 16 0xF01D = some (.adcRdoff 0#4) := by decide
theorem test_decode_hvOn : decodeTableWord 8 0x1E = some .hvOn := by decide
theorem test_decode_hvOff : decodeTableWord 8 0x1F = some .hvOff := by decide
theorem test_decode_hvsafeEn : decodeTableWord 8 0x20 = some .hvsafeEn := by decide
theorem test_decode_hvStat : decodeTableWord 8 0x21 = some .hvStat := by decide
theorem test_decode_hvSetmax : decodeTableWord 24 0x900122 = some (.hvSetmax 400#16) := by decide
theorem test_decode_devId : decodeTableWord 8 0x25 = some .devId := by decide
theorem test_decode_rejects_00 : decodeTableWord 8 0x00 = none := by decide
theorem test_decode_rejects_23 : decodeTableWord 8 0x23 = none := by decide
theorem test_decode_rejects_24 : decodeTableWord 8 0x24 = none := by decide
theorem test_decode_rejects_26 : decodeTableWord 8 0x26 = none := by decide
theorem test_decode_rejects_FF : decodeTableWord 8 0xFF = none := by decide

/-! ## One step of each command (95_test_vectors.md section 2) -/

theorem test_V1_reset :
    see id (exec .reset { base with gpio := ⟨true, true, true, true⟩, disp := { base.disp with err := true } })
    = some base := by decide
theorem test_V2_ledOn : see (·.gpio) (exec .ledOn base) = some ⟨true, false, false, false⟩ := by decide
theorem test_V3_ledOff : see (·.gpio) (exec .ledOff { base with gpio := ⟨true, true, true, true⟩ }) =
    some ⟨false, true, true, true⟩ := by decide
theorem test_V4_p3v3On : see (fun t => (t.gpio, t.disp.txLen, t.disp.session)) (exec .p3v3On base) =
    some (⟨false, true, false, false⟩, 0, .idle) := by decide
theorem test_V5_p3v3Off : see (·.gpio) (exec .p3v3Off { base with gpio := ⟨true, true, true, true⟩ }) =
    some ⟨true, false, true, true⟩ := by decide
theorem test_V6_p5vOn : see (·.gpio) (exec .p5vOn base) = some ⟨false, false, true, false⟩ := by decide
theorem test_V7_p5vOff : see (·.gpio) (exec .p5vOff { base with gpio := ⟨true, true, true, true⟩ }) =
    some ⟨true, true, false, true⟩ := by decide
theorem test_V8_pallOn : see (fun t => (t.gpio, t.env.trace)) (exec .pallOn base) =
    some (⟨false, true, true, false⟩, [.gpio .en3v3 true, .gpio .en5v true]) := by decide
theorem test_V9_pallOff : see (·.gpio) (exec .pallOff { base with gpio := ⟨true, true, true, true⟩ }) =
    some ⟨true, false, false, true⟩ := by decide
theorem test_V10_tempSipm :
    see reply (exec .tempSipm { base with env := { base.env with analog := ⟨[0x0234#16], 0⟩ } }) =
    some (.writeReadRequested, [0x34#8, 0x02#8]) := by decide
theorem test_V11_tempUc :
    see reply (exec .tempUc { base with env := { base.env with analog := ⟨[0xFFFF#16], 0⟩ } }) =
    some (.writeReadRequested, [0xFF#8, 0xFF#8]) := by decide
theorem test_V12_eeRdb : see reply (exec (.eeRdb 0x0041#16) (withEe [(0x41, 0x08#8)] base)) =
    some (.writeReadRequested, [0x08#8, 0x00#8]) := by decide
theorem test_V64_eeRdb_outside : exec (.eeRdb 0x2000#16) base = .fault (.eeOutOfRange 0x2000) := rfl
theorem test_V13_eeRdw : see reply (exec (.eeRdw 0x42#8) (withEe [(0x42, 0x01#8), (0x44, 0x77#8)] base)) =
    some (.writeReadRequested, [0xFF#8, 0x01#8]) := by decide
theorem test_V62_eeRdw_no_wrap :
    see reply (exec (.eeRdw 0xFF#8) (withEe [(0xFF, 0xAB#8), (0x100, 0xCD#8)] base)) =
    some (.writeReadRequested, [0xCD#8, 0xAB#8]) := by decide
theorem test_V14_eeWrb :
    see (fun t => (t.env.ee, t.env.trace)) (exec (.eeWrb 0x00C8#16 0x5A#8) (withEe [(0xC8, 0x00#8)] base)) =
    some ([(0xC8, 0x5A#8)], [.eeRead 0xC8 0x00#8, .eeProgram 0xC8 0x5A#8]) := by decide
theorem test_V60_eeWrb_same :
    see (·.env.trace) (exec (.eeWrb 0x00C8#16 0x5A#8) (withEe [(0xC8, 0x5A#8)] base)) =
    some [.eeRead 0xC8 0x5A#8] := by decide
theorem test_V15_eeWrw : see (fun t => (t.env.ee, programCount t.env.trace))
    (exec (.eeWrw 0x42#8 0x01#8 0xFF#8) (withEe [(0x42, 0x00#8), (0x43, 0x00#8)] base)) =
    some ([(0x42, 0x01#8)], 2) := by decide
theorem test_V61_eeWrw_one :
    see (·.env.trace) (exec (.eeWrw 0x42#8 0x01#8 0xFF#8) (withEe [(0x42, 0x01#8), (0x43, 0x00#8)] base)) =
    some [.eeRead 0x42 0x01#8, .eeRead 0x43 0x00#8, .eeProgram 0x43 0xFF#8] := by decide
theorem test_V16_spiInit :
    see (·.spi) (exec .musicSpiInit { base with spi := ⟨.data, false, ⟨false, true⟩, true, true, true⟩ }) =
    some ⟨.addr, true, ⟨true, true⟩, false, false, true⟩ := by decide
theorem test_V17_load : see (fun t => ((t.disp.map.bottom)[1], t.disp.mapLoaded))
    (exec (.musicLoad 0#2) (withEe [(68, 0x01#8), (69, 0x00#8), (70, 0x10#8)] base)) =
    some (⟨0x01#8, 0x0010#16⟩, ⟨true, false⟩) := by decide +kernel
theorem test_V53_load_chip : exec (.musicLoad 2#2) base = .refused .badChipId := rfl
theorem test_V18_print :
    see (fun t => t.env.trace.length) (exec (.musicPrint 0#2) (withMaps base)) = some 1 := by decide
theorem test_U7_print_unloaded : exec (.musicPrint 1#2) base = .refused .mapNotLoaded := rfl
theorem test_V77_apply_unloaded : exec (.musicApply 0#2) (withSpi [] base) = .refused .mapNotLoaded := rfl
theorem test_V19_apply : ∃ (t : State) (b : VerifyAnswers),
    exec (.musicApply 1#2) (withMaps (withSpi [] base)) = .next t ∧ t.disp.session = .idle ∧
    ((foreground t.env.trace).filter byteLevel).take 9 = writeEvents .top 0x00#8 0x0000#16 b.w1 b.w2 b.w3 := by
  have he : exec (.musicApply 1#2) (withMaps (withSpi [] base)) =
      .next (complete .writeOnly (applyMap .top (beginDispatch (withMaps (withSpi [] base))))) := rfl
  have hm : mapEntries .top (beginDispatch (withMaps (withSpi [] base))) = List.replicate 23 ⟨0x00#8, 0x0000#16⟩ := rfl
  have hf : foreground (beginDispatch (withMaps (withSpi [] base))).env.trace = [] := rfl
  generalize beginDispatch (withMaps (withSpi [] base)) = u at he hm hf
  obtain ⟨bs, evs, hl, h, hb, -⟩ := verifiedWrites_spec .top (mapEntries .top u) u
  obtain ⟨b, bs, rfl⟩ : ∃ b r, bs = b :: r := by
    cases bs with
    | nil => rw [hm] at hl; cases hl
    | cons b r => exact ⟨b, r, rfl⟩
  have hr : foreground (complete .writeOnly (applyMap .top u)).env.trace = evs :=
    h.record.trans (by rw [hf, List.nil_append])
  have hb : evs.filter byteLevel = _ := hb
  exact ⟨_, b, he, rfl, by rw [hr, hb, hm]; rfl⟩
theorem test_V20_rd : see (fun t => (reply t, sentBytes t.env.trace))
    (exec (.musicRd 1#2 0x22#8) (withSpi [0x00#8, 0x12#8, 0x34#8] base)) =
    some ((.writeReadRequested, [0x12#8, 0x34#8]), [0xA2#8, 0x00#8, 0x00#8]) := by decide +kernel
theorem test_V75_rd_uninit : exec (.musicRd 0#2 0x22#8) base = .refused .spiNotInitialised := rfl
theorem test_V30_wr : see (fun t => (t.spi.mismatch, t.env.trace.filter byteLevel))
    (exec (.musicWr 0#2 0x08#8 0x01FF#16) (withSpi [0#8, 0#8, 0#8, 0#8, 0x01#8, 0xFF#8] base)) =
    some (false, writeEvents .bottom 0x08#8 0x01FF#16 0#8 0#8 0#8 ++
      readEvents .bottom 0x08#8 0#8 0x01#8 0xFF#8) := by decide +kernel
theorem test_V78_wr_mismatch : see (fun t => (t.spi.mismatch, t.disp.err, t.disp.session))
    (exec (.musicWr 0#2 0x08#8 0x01FF#16) (withSpi [0#8, 0#8, 0#8, 0#8, 0x01#8, 0xFE#8] base)) =
    some (true, false, .idle) := by decide +kernel
theorem test_V22_rate : see (·.adc.rateCode) (exec (.adcRate 0x03#8) base) = some 3#3 := by decide
theorem test_V112_rate :
    see (·.adc.rateCode) (exec (.adcRate 0x07#8) { base with adc := { base.adc with rateCode := 3#3 } }) =
    some 3#3 := by decide
theorem test_V23_init : see (·.adc.inited) (exec .adcInit base) = some true := by decide
theorem test_V24_start : see (·.adc.loopEn) (exec .adcStart (withWindows [[]] base)) = some true := by decide
theorem test_V25_stop : see (fun t => (t.adc.loopEn, t.adc.irqPending))
    (exec .adcStop (withWindows [[], [], []] (withWord 0#32 base))) =
    some (false, false) := by decide
theorem test_V26_rdavg : see reply (exec (.adcRdavg 2#4) (withAcc 2#4 ⟨0x024690#32, 2#16, 0#32, 0#32⟩ base)) =
    some (.writeReadRequested, [0x12#8, 0x34#8]) := by decide
theorem test_V108_rdavg_reset :
    see (fun t => accOf t 2#4) (exec (.adcRdavg 2#4)
    (withAcc 2#4 ⟨0x024690#32, 2#16, 5#32, 6#32⟩ { base with params := { vecParams with rstOnAvgRead := true } })) =
    some ⟨0#32, 0#16, 5#32, 6#32⟩ :=
  by decide
theorem test_V27_rdall : see id (exec .adcRdall base) = some base := by decide
theorem test_V28_recoff :
    see (fun t => ((accOf t 0#4).offset, t.hv.offsetValid, (accOf t 0#4).sum))
    (exec .adcRecoff (withAcc 0#4 ⟨300#32, 3#16, 0#32, 0#32⟩ base)) = some (100#32, true, 300#32) :=
  by decide +kernel
theorem test_V29_rdoff : see reply (exec (.adcRdoff 0#4) (withAcc 0#4 ⟨0#32, 0#16, 0#32, 0x012348#32⟩ base)) =
    some (.writeReadRequested, [0x12#8, 0x34#8]) := by decide
theorem test_V32_hvOn : see (·.gpio) (exec .hvOn base) = some ⟨false, false, false, true⟩ := by decide
theorem test_V33_hvOff :
    see (fun t => (t.gpio.hvEn, t.hv.safetyEn)) (exec .hvOff { base with
    gpio := ⟨true, true, true, true⟩, hv := { base.hv with safetyEn := true } }) = some (false, true) :=
  by decide
theorem test_V34_hvsafeEn : see (fun t => (t.hv.safetyEn, t.gpio.hvEn))
    (exec .hvsafeEn { base with gpio := ⟨false, false, false, true⟩ }) = some (true, true) := by decide
theorem test_V35_hvStat : see reply (exec .hvStat { base with gpio := ⟨false, false, false, true⟩ }) =
    some (.writeReadRequested, [0x01#8, 0x00#8]) := by decide
theorem test_V36_hvSetmax :
    see (·.hv) (exec (.hvSetmax 400#16) base) = some ⟨false, false, 400#16, 15520#32⟩ := by decide
theorem test_V111_hvSetmax : see (·.hv.maxDelta) (exec (.hvSetmax 65535#16) base) = some 2542758#32 := by decide
theorem test_V37_devId :
    see reply (exec .devId (withEe [(0, 0x03#8), (1, 0x41#8), (2, 0x42#8), (3, 0x43#8)] base)) =
    some (.writeReadRequested, [0x03#8, 0x41#8, 0x42#8, 0x43#8]) := by decide
theorem test_V65_devId_erased :
    see (fun t => (reply t, programCount t.env.trace, eeRead 64 t, eeRead 65 t)) (exec .devId base) =
    some ((.writeReadRequested, [0x00#8]), 65, 0x00#8, 0xFF#8) := by decide +kernel

/-! ## The dispatcher and the interrupt (95_test_vectors.md sections 2.2 and 2.5) -/

theorem test_V40_unknown :
    see (fun t => (t.disp.err, t.disp.session, t.disp.txLen)) (step (sent [0x00#8] base)) = some (true, .idle, 0) :=
  by decide
theorem test_V45_readPhase :
    see (fun t => (t.env.trace, t.disp.session, t.disp.txLen)) (step (withEvent (.readPhase 2)
    { respond [0x34#8, 0x02#8] base with disp := { (respond [0x34#8, 0x02#8] base).disp with
      session := .writeReadRequested } })) =
    some ([.response [0x34#8, 0x02#8]], .idle, 2) := by decide
theorem test_V48_six_bytes :
    step (withEvent (.frameDelivered (List.replicate 6 0x04#8)) base) = .refused .frameTooLong := rfl
theorem test_V50_long_frame :
    see (·.gpio.en3v3) (step (sent [0x04#8, 0x99#8, 0x98#8] base)) = some true := by decide
theorem test_V80_isr :
    accOf (takeInterrupt (withWord 0x12345603#32 (withAcc 3#4 ⟨10#32, 1#16, 0#32, 0#32⟩ base))) 3#4 =
    ⟨1193056#32, 2#16, 0x123456#32, 0#32⟩ := by decide
theorem test_V85_isr_wraps :
    accOf (takeInterrupt (withWord 0x00010000#32 (withAcc 0#4 ⟨0xFFFFFF00#32, 0xFFFF#16, 0#32, 0#32⟩ base))) 0#4 =
    ⟨0#32, 0#16, 0x100#32, 0#32⟩ :=
  by decide
theorem test_V86_isr_not_above :
    (takeInterrupt (withWord 0x00408800#32 (withAcc 0#4 ⟨0#32, 0#16, 0#32, 1000#32⟩ { base with
    hv := ⟨true, true, 400#16, 15520#32⟩, gpio := ⟨false, false, false, true⟩ }))).gpio.hvEn = true := by decide
theorem test_V87_isr_cuts :
    (takeInterrupt (withWord 0x00408900#32 (withAcc 0#4 ⟨0#32, 0#16, 0#32, 1000#32⟩ { base with
    hv := ⟨true, true, 400#16, 15520#32⟩, gpio := ⟨false, false, false, true⟩ }))).gpio.hvEn = false :=
  by decide

/-- The `ISR` between the two writes of one command (R9, R86): the third window lies behind the first write. -/
theorem test_R86_isr_between_two_writes :
    see (·.env.trace) (exec .pallOn (withWindows [[], [], [.convReady 0x00000100#32, .serve], []]
      { base with adc := { base.adc with loopEn := true } })) =
    some [.gpio .en3v3 true, .isrReadWord 0x00000100#32, .gpio .en5v true] := by decide
/-- A conversion under the mask waits for the end of the section and is then compared with the new threshold (R316):
the third window lies inside the section of `HV_SETMAX`, the fourth behind it. -/
theorem test_R316_mask_holds_the_isr :
    see (fun t => (t.gpio.hvEn, t.env.trace)) (exec (.hvSetmax 0#16)
      (withWindows [[], [], [.convReady 0x00000100#32, .serve], [.serve]] { base with
        adc := { base.adc with loopEn := true }, gpio := ⟨false, false, false, true⟩
        hv := ⟨true, true, 400#16, 15520#32⟩ })) =
    some (false, [.isrReadWord 0x00000100#32, .isrCutoff]) := by decide

/-! ## Witnesses: for each claim with hypotheses, values that meet them, at the boundaries of its clauses. -/

theorem witness_DecodeRejectsExactlyUnassignedOpcodes_rejected :
    ∀ op ∈ [0x00#8, 0x23#8, 0x24#8, 0x26#8, 0xFF#8], decode ⟨op, 0#8, 0#8, 0#8, 0#8⟩ = .error (.unknownOpcode op) :=
  by
  intro op h; fin_cases h <;> rfl
theorem witness_DecodeRejectsExactlyUnassignedOpcodes_accepted :
    (∃ i, decode ⟨0x01#8, 0#8, 0#8, 0#8, 0#8⟩ = .ok i) ∧ (∃ i, decode ⟨0x22#8, 0#8, 0#8, 0#8, 0#8⟩ = .ok i) ∧
    ∃ i, decode ⟨0x25#8, 0#8, 0#8, 0#8, 0#8⟩ = .ok i := ⟨⟨_, rfl⟩, ⟨_, rfl⟩, ⟨_, rfl⟩⟩
theorem witness_EncodeOfDecodedIsMeaningfulFrame :
    decode ⟨0x11#8, 0xFD#8, 0xFF#8, 0xFF#8, 0xFF#8⟩ = .ok (.musicLoad 1#2) :=
  congrArg (fun c => Except.ok (Instr.musicLoad c)) (by decide)
theorem witness_StepRunsTheDecodedCommand :
    (sent [0x04#8] base).disp.session = .writeRequested ∧ decode (frameOf (sent [0x04#8] base)) = .ok .p3v3On ∧
    0 < (sent [0x04#8] base).disp.rxLen := ⟨rfl, rfl, by decide⟩
theorem witness_StepRunsTheDecodedCommand_stale :
    let s := sent [0x04#8] base
    let rx' : Vector Byte Config.rxBufSize := s.disp.rx.set 1 0x99#8
    rx' ≠ s.disp.rx ∧ ∀ k, (h : k < Config.rxBufSize) → k < s.disp.rxLen → rx'[k] = s.disp.rx[k] := by decide
theorem witness_UnknownOpcodeIsTheOnlyFaultThatSetsErr_raised :
    ∀ op ∈ [0x00#8, 0x23#8, 0x24#8, 0x26#8, 0xFF#8],
    (sent [op] base).disp.session = .writeRequested ∧ 1 ≤ (sent [op] base).disp.rxLen ∧
    (sent [op] base).disp.rx[0] = op :=
  by decide
theorem witness_UnknownOpcodeIsTheOnlyFaultThatSetsErr_kept :
    see (·.disp.err) (step (sent [0x02#8] { base with disp := { base.disp with err := true } })) = some true :=
  by decide
theorem witness_FrameDeliveryFillsTheReceiveBuffer :
    ∀ n ∈ [0, 1, 5, 6], ∀ k ∈ [Session.idle, .writeReadRequested],
    let s := withEvent (.frameDelivered (List.replicate n 0x04#8)) { base with disp := { base.disp with session := k } }
    (s.disp.session = .idle ∨ s.disp.session = .writeReadRequested) ∧
      s.env.bus.queued = [.frameDelivered (List.replicate n 0x04#8)] :=
  by decide
theorem witness_ReadPhaseReturnsTheResponse_pending :
    ∀ n ∈ [0, 65], let s : State := withEvent (.readPhase 66) { base with disp := { base.disp with
      txLen := n, session := .writeReadRequested } }
    s.env.bus.queued = [.readPhase 66] ∧ s.disp.session = .writeReadRequested ∧ s.disp.txLen ≤ Config.txBufSize :=
  by decide
theorem witness_ReadPhaseReturnsTheResponse_idle :
    (withEvent (.readPhase 2) base).env.bus.queued = [.readPhase 2] ∧
    (withEvent (.readPhase 2) base).disp.session = .idle := by decide
theorem witness_ErrIsClearedOnlyByClearErrorOrReset_reset :
    see (·.disp.err) (step (sent [0x01#8] { base with disp := { base.disp with err := true } })) = some false :=
  by decide
theorem witness_ErrIsClearedOnlyByClearErrorOrReset_clear :
    see (·.disp.err) (step (withEvent .clearError { base with disp := { base.disp with err := true } })) = some false :=
  by decide
theorem witness_ErrIsClearedOnlyByClearErrorOrReset_powerOn :
    see (·.disp.err) (step (withEvent .powerOn { base with disp := { base.disp with err := true } })) = some false :=
  by decide
theorem witness_ClearErrorOnlyClearsErr :
    (withEvent .clearError base).disp.session = .idle ∧ (withEvent .clearError base).env.bus.queued = [.clearError] :=
  by decide
theorem witness_WriteOnlyCommandsEndIdle :
    Instr.ledOn.kind = .writeOnly ∧ ∃ t, exec .ledOn base = .next t := ⟨rfl, _, rfl⟩
theorem witness_WriteThenReadCommandsLeaveAResponse :
    Instr.hvStat.kind = .writeThenRead ∧ ∃ t, exec .hvStat base = .next t := ⟨rfl, _, rfl⟩
theorem witness_WriteThenReadCommandsLeaveAResponse_devId :
    Instr.devId.kind = .writeThenRead ∧ ∃ t, exec .devId (withEe [(0, 0x40#8)] base) = .next t := ⟨rfl, _, rfl⟩
theorem witness_WriteThenReadCommandsLeaveAResponse_refused :
    (Instr.eeRdb 0x2000#16).kind = .writeThenRead ∧ (∃ t, exec (.eeRdb 0x2000#16) calm = .next t ∧ t.disp.txLen = 0) ∧
    calm.params.unsourced = .noEffect ∧ exec (.eeRdb 0x2000#16) base = .fault (.eeOutOfRange 0x2000) :=
  ⟨rfl, ⟨_, rfl, rfl⟩, rfl, rfl⟩
theorem witness_StepKeepsTheInvariant :
    Inv (sent [0x04#8] base) ∧ ∃ t, step (sent [0x04#8] base) = .next t := by
  refine ⟨⟨rfl, by simp [base, sent, State.afterReset, Env.initial], by decide, by decide, by decide, by decide,
    ⟨rfl, rfl, rfl⟩, rfl, by decide, by decide, by decide⟩, _, rfl⟩
theorem witness_StepKeepsTheParameters : ∃ t, step (sent [0x04#8] base) = .next t := ⟨_, rfl⟩
theorem witness_DevIdAnswersLengthAndSerial :
    (eeRead 0 (withEe [(0, 0x00#8)] base)).toNat = 0 ∧ (eeRead 0 (withEe [(0, 0x40#8)] base)).toNat = 64 :=
  by decide
theorem witness_DevIdErasesAVirginDevice : eeRead 0 base = 0xFF#8 := by decide
theorem witness_DevIdRefusesALengthBeyondTheRegion :
    (eeRead 0 (withEe [(0, 0x41#8)] base)).toNat = 65 ∧ (eeRead 0 (withEe [(0, 0xFE#8)] base)).toNat = 254 :=
  by decide
theorem witness_EeRdbAnswersTheByteThenZero :
    (0x1FFF#16).toNat < base.params.eepromSize ∧ ¬ (0x2000#16).toNat < base.params.eepromSize ∧
    base.params.unsourced = .refuse := by decide
theorem witness_EeRdbOutsideTheEepromHasNoEffect :
    calm.params.eepromSize ≤ (0x2000#16).toNat ∧ calm.params.unsourced = .noEffect := by decide
theorem witness_EeRdwAnswersTheWordLowByteFirst :
    let small : State := { base with params := { vecParams with eepromExtra := 0 } }
    (205#8).toNat + 1 < small.params.eepromSize ∧ ¬ (206#8).toNat + 1 < small.params.eepromSize ∧
    ¬ (207#8).toNat < small.params.eepromSize := by decide
theorem witness_EeWrbWritesOneByteIfChanged :
    (0x1FFF#16).toNat < base.params.eepromSize ∧ ¬ (0x2000#16).toNat < base.params.eepromSize ∧
    eeRead 0x1FFF base = 0xFF#8 := by decide
theorem witness_EeWrwWritesTwoBytesIfChanged :
    let small : State := { base with params := { vecParams with eepromExtra := 0 } }
    (205#8).toNat + 1 < small.params.eepromSize ∧ ¬ (206#8).toNat + 1 < small.params.eepromSize ∧
    ¬ (207#8).toNat < small.params.eepromSize := by decide
theorem witness_WordWriteReadsBackAndSecondWriteProgramsNothing :
    (0xFF#8).toNat + 1 < base.params.eepromSize := by decide
theorem witness_EepromIsChangedOnlyByItsThreeCommands :
    (see (fun t => decide (t.env.ee ≠ base.env.ee)) (step (sent [0x0E#8, 0x00#8, 0xC8#8, 0x5A#8] base)) = some true ∧
    see (fun t => decide (t.env.ee ≠ base.env.ee)) (step (sent [0x0F#8, 0xFF#8, 0x01#8, 0xFF#8] base)) = some true ∧
    see (fun t => decide (t.env.ee ≠ base.env.ee)) (step (sent [0x25#8] base)) = some true) :=
  by decide +kernel
theorem witness_MusicLoadFillsTheMapFromEeprom : chipOf 0#2 = some .bottom ∧ chipOf 1#2 = some .top := by decide
theorem witness_MusicPrintOnlyLogs :
    chipOf 1#2 = some .top ∧ (withMaps base).disp.mapLoaded.get .top = true := by decide
theorem witness_MusicApplySendsEveryEntryVerified :
    let s := withMaps (withSpi [] base)
    chipOf 0#2 = some .bottom ∧ s.disp.mapLoaded.get .bottom = true ∧ s.spi.inited = true ∧
    (∀ e ∈ (s.disp.map.get .bottom).toList, e.addr.msb = false) ∧ SpiIdle s :=
  ⟨rfl, rfl, rfl, by decide, rfl, rfl, rfl⟩
theorem witness_MusicRdAnswersTheRegisterHighByteFirst :
    chipOf 1#2 = some .top ∧ (withSpi [] base).spi.inited = true ∧ (0x7F#8).msb = false ∧
    (withSpi [0x00#8, 0x12#8, 0x34#8] base).env.miso.queued = 0x00#8 :: 0x12#8 :: 0x34#8 :: [] := by decide
theorem witness_MusicWrWritesAndVerifies :
    chipOf 0#2 = some .bottom ∧ (withSpi [] base).spi.inited = true ∧ (0x00#8).msb = false := by decide
theorem witness_MusicCommandsStopWithoutTheirPreconditions_chip :
    chipOf 2#2 = none ∧ chipOf 3#2 = none := by decide
theorem witness_MusicCommandsStopWithoutTheirPreconditions_map :
    chipOf 0#2 = some .bottom ∧ base.disp.mapLoaded.get .bottom = false ∧ base.spi.inited = false := by decide
theorem witness_MusicCommandsStopWithoutTheirPreconditions_bit7 :
    let s := withMaps (withSpi [] { base with disp := { base.disp with
      map := ⟨Vector.replicate _ ⟨0x80#8, 0#16⟩, base.disp.map.top⟩ } })
    chipOf 0#2 = some .bottom ∧ s.spi.inited = true ∧ (0x80#8).msb = true ∧ s.disp.mapLoaded.get .bottom = true ∧
    (∃ e ∈ (s.disp.map.get .bottom).toList, e.addr.msb = true) :=
  by decide
theorem witness_MusicCommandsStopWithoutTheirPreconditions_loaded :
    (withMaps base).disp.mapLoaded.get .bottom = true ∧ (withMaps base).spi.inited = false := by decide
theorem witness_WriteThenReadOnTheMockAsicReturnsTheData :
    let k : MockAsic := ⟨fun _ => 0#16, false, 0, false, 0#7, 0#8, false⟩
    let s := withSpi [0#8, 0#8, 0#8, 0#8, 0x01#8, 0xFF#8, 0#8, 0x01#8, 0xFF#8] base
    chipOf 0#2 = some .bottom ∧ s.spi.inited = true ∧ (0x08#8).msb = false ∧
    (see (fun t => see (fun r => MockAsic.agrees 0#16 .bottom k (newEvents s r)) (exec (.musicRd 0#2 0x08#8) t))
      (exec (.musicWr 0#2 0x08#8 0x01FF#16) s)) = some (some true) := by decide +kernel
theorem witness_AdcRateStoresCodesOneToSix :
    (1 ≤ (1#8).toNat ∧ (6#8).toNat ≤ 6) ∧ ¬ 1 ≤ (0#8).toNat ∧ ¬ (7#8).toNat ≤ 6 := by decide
theorem witness_AdcRecoffRecordsEveryAverage : Quiet (withAcc 0#4 ⟨300#32, 3#16, 0#32, 0#32⟩ base) ∧
    (accOf (withAcc 0#4 ⟨300#32, 3#16, 0#32, 0#32⟩ base) 0#4).count ≠ 0#16 := ⟨⟨rfl, rfl⟩, by decide⟩
theorem witness_HvOnRaisesHvEnUnconditionally :
    base.params.rstOnHvOn = false ∧ Quiet { base with params := { vecParams with rstOnHvOn := true } } ∧
    ¬ Armed { base with hv := ⟨true, false, 0#16, 0#32⟩ } := ⟨rfl, ⟨rfl, rfl⟩, by simp [Armed]⟩
theorem witness_HvsafeEnArmsTheController :
    base.params.rstOnSafetyEn = false ∧ Quiet { base with params := { vecParams with rstOnSafetyEn := true } } :=
  ⟨rfl, rfl, rfl⟩
theorem witness_HvEnIsRaisedOnlyByHvOn :
    base.gpio.hvEn = false ∧ see (·.gpio.hvEn) (step (sent [0x1E#8] base)) = some true := by decide
theorem witness_SafetyFlagsAreSetByTheirCommandAndClearedByReset_safety :
    see (·.hv.safetyEn) (step (sent [0x20#8] base)) = some true ∧
    see (·.hv.safetyEn) (step (sent [0x01#8] { base with hv := ⟨true, true, 0#16, 0#32⟩ })) = some false :=
  by decide
theorem witness_SafetyFlagsAreSetByTheirCommandAndClearedByReset_offset :
    see (·.hv.offsetValid) (step (sent [0x1C#8] (withAcc 0#4 ⟨300#32, 3#16, 0#32, 0#32⟩ base))) = some true ∧
    see (·.hv.offsetValid) (step (withEvent .powerOn { base with hv := ⟨true, true, 0#16, 0#32⟩ })) = some false :=
  by decide +kernel
theorem witness_InterruptDropsAWordWithAnErrorBit :
    (withWord 0x12345613#32 base).env.adcWord &&& base.params.adcErrMask ≠ 0#32 := by decide
theorem witness_InterruptComparesThenAccumulates :
    (withWord 0x1234560F#32 base).env.adcWord &&& base.params.adcErrMask = 0#32 := by decide
theorem witness_CutoffHappensAtTheFirstExceedingSample :
    (withWord 0#32 base).adc.loopEn = true ∧ (withWord 0#32 base).irqMasked = false := by decide
theorem witness_ConversionIsGatedPendsAndWaitsForTheMask :
    base.adc.loopEn = false ∧ (withWord 0#32 base).adc.loopEn = true ∧ base.adc.irqPending = false ∧
    ({ withWord 0#32 base with irqMasked := true } : State).irqMasked = true ∧
    (withWord 0#32 base).irqMasked = false ∧ (withWord 0#32 base).adc.irqPending = true := by decide

theorem witness_ConversionIsGatedPendsAndWaitsForTheMask_step :
    let s := withEvent (.irq .serve) (withWord 0x00000100#32 base)
    s.disp.session = .idle ∧ s.env.bus.queued = [.irq .serve] ∧
    see (·.env.trace) (step s) = some [.isrReadWord 0x00000100#32] := by decide
theorem witness_CutoffHappensAtTheFirstExceedingSample_stream :
    let s := withBus [.irq (.convReady 1#32), .irq .serve, .irq (.convReady 2#32), .irq .serve] (withWord 0#32 base)
    s.disp.session = .idle ∧ s.env.bus.queued =
      [1#32, 2#32].flatMap (fun w => [.irq (.convReady w), .irq .serve]) ++ [] := by decide
theorem witness_ResetCommandRestoresTheResetState :
    (withEvent .powerOn base).disp.session = .idle ∧ (withEvent .powerOn base).env.bus.queued = [.powerOn] := by decide
theorem witness_InterruptsRunBetweenTheStepsOfACommand :
    let s := withWindows [[], [], [.convReady 0x00000100#32, .serve], [.serve]] (withWord 0#32 base)
    s.adc.loopEn = true ∧ s.irqMasked = false ∧
    s.env.irq.queued = [] :: [] :: [.convReady 0x00000100#32, .serve] :: [.serve] :: [] ∧
    (countDraw s).adc.loopEn = true := by decide
theorem witness_InterruptCommutesWithForegroundDeviceAccesses :
    byInterrupt (.csN .bottom false) = false ∧ byInterrupt (.eeRead 0 0#8) = false ∧ Latch.led ≠ .hvEn := by decide
theorem witness_InterruptsDoNotReachTheForegroundOfACommand :
    let s := withSpi [] base
    let s' := withWord 0x00000100#32 (withAcc 0#4 ⟨1#32, 1#16, 1#32, 1#32⟩ s)
    s ≠ s' ∧ foregroundPart s = foregroundPart s' ∧ foreground s.env.trace = foreground s'.env.trace ∧
    ∃ t, exec (.musicWr 0#2 0x08#8 0x01FF#16) s = .next t := ⟨by decide, by decide, rfl, _, rfl⟩

/-- A run in which one conversion is pending and is served by the first step. -/
def servedRun : Nat → State
  | 0 => withWord 0x00000100#32 base
  | _ + 1 => takeInterrupt { withWord 0x00000100#32 base with env :=
      { (withWord 0x00000100#32 base).env with bus := ⟨[], 1⟩ } }

theorem witness_FairRunsServeEveryPendingInterrupt :
    Run servedRun ∧ WeaklyFair servedRun ∧ Inv (servedRun 0) ∧ (servedRun 0).adc.irqPending = true := by
  refine ⟨fun n => ⟨⟨[.irq .serve], 0⟩, Feed.empty, ?_⟩, fun n h => ?_, ?_, rfl⟩
  · cases n <;> rfl
  · exact absurd (h (n + 1) (by omega)).1 (by simp [servedRun, takeInterrupt_eq])
  · exact ⟨rfl, by simp [servedRun, withWord, base, State.afterReset, Env.initial], by decide, by decide, by decide,
      by decide, ⟨rfl, rfl, rfl⟩, rfl, by decide, by decide, by decide⟩

end Sys2Proof.Tests
end

/-! ## The session after a command (R132 to R134) -/

namespace Sys2Proof.Machine

/-- The first act of `Dispatch` clears the response, and no interrupt puts one back (R132). -/
@[simp] theorem beginDispatch_txLen (s : State) : (beginDispatch s).disp.txLen = 0 :=
  congrArg (·.disp.txLen) (beginDispatch_does s).part

/-- The handler of a write-only command keeps the response that `Dispatch` cleared (R132, R133). -/
theorem handler_beginDispatch_txLen {i : Instr} (hi : i ≠ .reset) (hk : i.kind = .writeOnly) (s : State) :
    (handler i (beginDispatch s)).disp.txLen = 0 :=
  ((handler_effects hi (beginDispatch s)).txLen hk).trans (beginDispatch_txLen s)

/-- Settles O11. `RESET` ends in the reset state. Any other write-only command either runs its handler after the
response was cleared, or is refused and, by the parameters, clears the response; both complete in `Idle`. -/
theorem writeOnlyCommandsEndIdle : Obligations.WriteOnlyCommandsEndIdle := by
  intro i s t hk he
  by_cases hi : i = .reset
  · subst hi
    rw [exec_reset] at he
    obtain rfl := Host.Outcome.next.inj he
    exact ⟨rfl, rfl⟩
  · obtain ⟨-, rfl⟩ | ⟨-, -, rfl⟩ := exec_next hi he
    · exact ⟨handler_beginDispatch_txLen hi hk s, congrArg sessionAfter hk⟩
    · exact ⟨rfl, congrArg sessionAfter hk⟩

end Sys2Proof.Machine

/-! ## Commands that write one GPIO latch (R151 to R156) -/

namespace Sys2Proof.Machine

/-- The latch holds what was written: no interrupt moves the 3V3 latch (R40, R318). -/
@[simp] theorem gpioWrite_en3v3 (b : Bool) (s : State) : (gpioWrite .en3v3 b s).gpio.en3v3 = b :=
  window_en3v3 (latchWrite .en3v3 b s)

/-- A latch command is one step of the foreground behind the cleared response, interrupts before and behind it. -/
theorem gpioWrite_beginDispatch_interleaved (l : Latch) (b : Bool) (s : State) :
    Interleaved [latchWrite l b] (clearResponse s) (gpioWrite l b (beginDispatch s)) :=
  (gpioWrite_interleaved l b (beginDispatch s)).before (beginDispatch_interrupts s)

/-- Settles O18. The handler is the write of the 3V3 latch, behind the cleared response; `RESET` apart, a command the
spec does not refuse runs its handler and completes as its kind says. -/
theorem p3v3OnSetsTheLatchHigh : Obligations.P3v3OnSetsTheLatchHigh := by
  intro s
  have hne : Instr.p3v3On ≠ .reset := by decide
  exact ⟨rfl, gpioWrite .en3v3 true (beginDispatch s), gpioWrite_beginDispatch_interleaved .en3v3 true s,
    exec_completes hne rfl, gpioWrite_en3v3 true (beginDispatch s), handler_beginDispatch_txLen hne rfl s⟩

end Sys2Proof.Machine

/-! ## Commands that answer a response (R134) -/

namespace Sys2Proof.Machine

/-- Interrupts leave the foreground's part as clearing the response made it (R132, R318). -/
theorem foregroundPart_beginDispatch (s : State) :
    foregroundPart (beginDispatch s) = foregroundPart (clearResponse s) :=
  (beginDispatch_interrupts s).only.part

theorem beginDispatch_disp (s : State) : (beginDispatch s).disp = (clearResponse s).disp :=
  congrArg ForegroundPart.disp (foregroundPart_beginDispatch s)

@[simp] theorem beginDispatch_analog (s : State) : (beginDispatch s).env.analog = s.env.analog :=
  congrArg ForegroundPart.analog (foregroundPart_beginDispatch s)

/-- A response laid over the transmit buffer is an answer (R22, R134). -/
theorem answersWith_of_overlay {bytes : List Byte} {u t : State}
    (h : t.disp = { u.disp with
      tx := overlay bytes u.disp.tx, txLen := bytes.length, session := .writeReadRequested }) :
    AnswersWith bytes u t := by
  refine ⟨by rw [h], fun i hi => ?_⟩
  rw [h]
  exact overlay_getElem bytes u.disp.tx i hi

/-- A handler that lays a response over the transmit buffer, completed: the command works beside the interrupt and
answers the response; what else it did to the foreground's part is read off `p` (R134, R318). -/
theorem Does.answers {h : State → State} {s : State} {p : ForegroundPart} {evs : List Event} {bytes : List Byte}
    (d : Does (beginDispatch s) (h (beginDispatch s)) p evs)
    (hp : p.disp = { (clearResponse s).disp with
      tx := overlay bytes (clearResponse s).disp.tx, txLen := bytes.length }) :
    ∃ u, WorksBeside evs s u (complete .writeThenRead (h (beginDispatch s))) ∧
      AnswersWith bytes u (complete .writeThenRead (h (beginDispatch s))) ∧
      foregroundPart u = foregroundPart (clearResponse s) ∧
      interruptPart u = interruptPart (complete .writeThenRead (h (beginDispatch s))) := by
  obtain ⟨u, hw, hf, hi⟩ := d.worksBeside (k := .writeThenRead)
  have hu : u.disp = (clearResponse s).disp := congrArg ForegroundPart.disp hf
  have ht : (h (beginDispatch s)).disp = _ := (congrArg ForegroundPart.disp d.part).trans hp
  refine ⟨u, hw, answersWith_of_overlay ?_, hf, hi⟩
  rw [hu]
  exact congrArg (fun x : Dispatcher => { x with session := .writeReadRequested }) ht

end Sys2Proof.Machine

/-! ## The temperature commands (R171, R172) -/

namespace Sys2Proof.Machine

/-- Two states that share the foreground's part but for the dispatcher and the conversions, and the interrupt's part,
are one but for these and the record. -/
theorem eq_but_disp_analog_trace {u t : State} {d : Dispatcher} {f : Feed Word16}
    (hf : foregroundPart t = { foregroundPart u with disp := d, analog := f })
    (hi : interruptPart u = interruptPart t) :
    { t with disp := u.disp, env := { t.env with analog := u.env.analog, trace := u.env.trace } } = u := by
  refine state_ext ?_ ?_ rfl
  · exact congrArg (fun x : ForegroundPart => { x with disp := u.disp, analog := u.env.analog }) hf
  · exact congrArg (fun x : InterruptPart => { x with events := interrupt u.env.trace }) hi.symm

/-- A command whose handler reports one conversion of `src` (R170 to R172): the reading is the next of its source,
since the beginning of `Dispatch` takes none, and the response is its low byte, then its high byte. -/
theorem reportAnalog_answers {i : Instr} {src : AnalogSource} {s : State}
    (he : exec i s = .next (complete .writeThenRead (reportAnalog src (beginDispatch s)))) :
    ∃ u t v, v = (s.env.analog.take (Config.analogReading src)).1 ∧
      WorksBeside [.singleShot src v] s u t ∧ exec i s = .next t ∧
      AnswersWith [v.extractLsb' 0 8, v.extractLsb' 8 8] u t ∧
      { t with disp := u.disp, env := { t.env with analog := u.env.analog, trace := u.env.trace } } = u ∧
      t.env.analog = (s.env.analog.take (Config.analogReading src)).2 := by
  have d := reportAnalog_does src (beginDispatch s)
  rw [beginDispatch_analog, beginDispatch_disp, foregroundPart_beginDispatch] at d
  have ha : (reportAnalog src (beginDispatch s)).env.analog = _ := congrArg ForegroundPart.analog d.part
  have hc : foregroundPart (complete .writeThenRead (reportAnalog src (beginDispatch s))) = _ :=
    congrArg (fun x : ForegroundPart => { x with disp := { x.disp with session := .writeReadRequested } }) d.part
  obtain ⟨u, hw, hr, hf, hi⟩ := d.answers rfl
  rw [← hf] at hc
  exact ⟨u, _, _, rfl, hw, he, hr, eq_but_disp_analog_trace hc hi, ha⟩

/-- Settles O24. Both handlers report one conversion, each of its own source, and the spec refuses neither command. -/
theorem temperatureCommandsAnswerLowByteFirst : Obligations.TemperatureCommandsAnswerLowByteFirst := by
  intro s
  exact ⟨rfl, rfl, reportAnalog_answers (exec_completes (by decide) rfl),
    reportAnalog_answers (exec_completes (by decide) rfl)⟩

end Sys2Proof.Machine

/-! ## The commands that read the EEPROM (R180, R181) -/

namespace Sys2Proof.Machine

/-- The beginning of `Dispatch` writes no EEPROM byte, and no interrupt does (R132, R318). -/
@[simp] theorem eeRead_beginDispatch (a : Nat) (s : State) : eeRead a (beginDispatch s) = eeRead a s :=
  eeRead_of_part (foregroundPart_beginDispatch s) a

/-- Two states that share the foreground's part but for the dispatcher, and the interrupt's part, are one but for the
dispatcher and the record. -/
theorem eq_but_disp_trace {u t : State} {d : Dispatcher}
    (hf : foregroundPart t = { foregroundPart u with disp := d }) (hi : interruptPart u = interruptPart t) :
    { t with disp := u.disp, env := { t.env with trace := u.env.trace } } = u := by
  refine state_ext ?_ ?_ rfl
  · exact congrArg (fun x : ForegroundPart => { x with disp := u.disp }) hf
  · exact congrArg (fun x : InterruptPart => { x with events := interrupt u.env.trace }) hi.symm

/-- A handler that lays a response over the transmit buffer and does no more to the foreground's part, completed: the
command answers the response and changes nothing else, interrupts apart (R134, R318). -/
theorem Does.answersOnly {h : State → State} {s : State} {evs : List Event} {bytes : List Byte}
    (d : Does (beginDispatch s) (h (beginDispatch s))
      { foregroundPart (beginDispatch s) with
        disp := { (beginDispatch s).disp with
          tx := overlay bytes (beginDispatch s).disp.tx, txLen := bytes.length } } evs) :
    ∃ u, WorksBeside evs s u (complete .writeThenRead (h (beginDispatch s))) ∧
      AnswersWith bytes u (complete .writeThenRead (h (beginDispatch s))) ∧
      { complete .writeThenRead (h (beginDispatch s)) with
        disp := u.disp
        env := { (complete .writeThenRead (h (beginDispatch s))).env with trace := u.env.trace } } = u := by
  rw [beginDispatch_disp, foregroundPart_beginDispatch] at d
  have hc : foregroundPart (complete .writeThenRead (h (beginDispatch s))) = _ :=
    congrArg (fun x : ForegroundPart => { x with disp := { x.disp with session := .writeReadRequested } }) d.part
  obtain ⟨u, hw, hr, hf, hi⟩ := d.answers rfl
  rw [← hf] at hc
  exact ⟨u, hw, hr, eq_but_disp_trace hc hi⟩

/-- Settles O25. Inside the EEPROM the command completes, and its handler reads the one byte and lays it, with a zero
behind it, over the transmit buffer; outside, the check of R71 stops it with the fault that names the address. -/
theorem eeRdbAnswersTheByteThenZero : Obligations.EeRdbAnswersTheByteThenZero := by
  intro s a
  have hne : Instr.eeRdb a ≠ .reset := nofun
  refine ⟨rfl, ?_⟩
  split
  next inside =>
    have d := reportByte_does a.toNat (beginDispatch s)
    rw [eeRead_beginDispatch] at d
    obtain ⟨u, hw, hr, hu⟩ := Does.answersOnly (bytes := [eeRead a.toNat s, 0x00#8]) d
    exact ⟨u, _, hw, exec_completes hne (eeStop_one inside), hr, hu⟩
  next outside =>
    intro hrefuse
    have stopped := exec_stopped hne (eeStop_one_outside outside)
    rwa [notSourced, if_pos hrefuse] at stopped

end Sys2Proof.Machine

/-! ## A word with an error bit (R253) -/

namespace Sys2Proof.Machine

theorem sampleError_iff {p : Params} {w : Word32} : sampleError p w = true ↔ w &&& p.adcErrMask ≠ 0#32 :=
  bne_iff_ne

/-- The `ISR` on a dropped word: the pending flag cleared and the word read, without the sample part (R252, R253). -/
theorem takeInterrupt_of_sampleError {s : State} (h : sampleError s.params s.env.adcWord = true) :
    takeInterrupt s = emit [.isrReadWord s.env.adcWord] (clearPending s) :=
  if_pos h

/-- Settles O53. The error bit takes the branch of the `ISR` that drops the word; its two acts, clearing the flag and
recording the read, are the state claimed. -/
theorem interruptDropsAWordWithAnErrorBit : Obligations.InterruptDropsAWordWithAnErrorBit := by
  intro s hbit
  exact takeInterrupt_of_sampleError (sampleError_iff.mpr hbit)

end Sys2Proof.Machine

/-! ## Frames (R100 to R107) -/

namespace Sys2Proof

open Machine

/-- An opcode of the map selects its row's command (R100, R132). -/
theorem decode_of_row {f : Frame} {r : OpcodeRow} (h : rowOf f.op = some r) : decode f = .ok (r.build f) := by
  simp only [decode, h]

theorem decode_error_iff {f : Frame} {op : Byte} :
    decode f = .error (.unknownOpcode op) ↔ rowOf f.op = none ∧ op = f.op := by
  unfold decode
  cases rowOf f.op with
  | none => simp [eq_comm]
  | some r => simp

/-- A decoded command is built by the row of its opcode, a row of the map (R105). -/
theorem row_of_decode {f : Frame} {i : Instr} (h : decode f = .ok i) :
    ∃ r ∈ opcodeTable, rowOf f.op = some r ∧ r.op = f.op ∧ i = r.build f := by
  cases hr : rowOf f.op with
  | none => simp [decode, hr] at h
  | some r =>
    rw [decode_of_row hr] at h
    exact ⟨r, List.mem_of_find?_eq_some hr, rfl, by simpa using List.find?_some hr, (Except.ok.inj h).symm⟩

/-- The opcodes that are not in the map (R106). -/
theorem rowOf_eq_none_iff (op : Byte) :
    rowOf op = none ↔ op = 0x00#8 ∨ op = 0x23#8 ∨ op = 0x24#8 ∨ 0x26#8 ≤ op := by
  rw [← Option.isNone_iff_eq_none]
  revert op
  decide

/-- The chip byte the encoder sends is the chip byte with the ignored bits cleared (R103). -/
theorem zeroExtend_chipField (b : Byte) : (chipField b).zeroExtend 8 = b &&& 0x03#8 := by
  revert b; decide

/-- The channel byte the encoder sends is the channel byte with the ignored bits cleared (R104). -/
theorem zeroExtend_channelField (b : Byte) : (channelField b).zeroExtend 8 = b &&& 0x0F#8 := by
  revert b; decide

/-- Settles O1. The opcode the encoder writes selects the command's own row, and the row's fields join what the encoder
split: the bytes of a word, the chip field and the channel field. -/
theorem decodeInvertsEncode : Obligations.DecodeInvertsEncode := by
  intro i rest
  cases i with
  | eeRdb a => exact congrArg (Except.ok ∘ Instr.eeRdb) (joinBytes_hiByte_loByte a)
  | eeWrb a v => exact congrArg (fun w => Except.ok (Instr.eeWrb w v)) (joinBytes_hiByte_loByte a)
  | hvSetmax uA => exact congrArg (Except.ok ∘ Instr.hvSetmax) (joinBytes_hiByte_loByte uA)
  | musicLoad c => exact congrArg (Except.ok ∘ Instr.musicLoad) (chipField_zeroExtend c)
  | musicPrint c => exact congrArg (Except.ok ∘ Instr.musicPrint) (chipField_zeroExtend c)
  | musicApply c => exact congrArg (Except.ok ∘ Instr.musicApply) (chipField_zeroExtend c)
  | musicRd c a => exact congrArg (fun x => Except.ok (Instr.musicRd x a)) (chipField_zeroExtend c)
  | musicWr c a d =>
    exact congrArg₂ (fun x w => Except.ok (Instr.musicWr x a w)) (chipField_zeroExtend c) (joinBytes_hiByte_loByte d)
  | adcRdavg ch => exact congrArg (Except.ok ∘ Instr.adcRdavg) (channelField_zeroExtend ch)
  | adcRdoff ch => exact congrArg (Except.ok ∘ Instr.adcRdoff) (channelField_zeroExtend ch)
  | _ => rfl

/-- Settles O2. A frame is rejected when its opcode has no row, and the map has a row for every opcode but these. -/
theorem decodeRejectsExactlyUnassignedOpcodes : Obligations.DecodeRejectsExactlyUnassignedOpcodes := by
  intro f
  refine ⟨?_, fun op h => (decode_error_iff.mp h).2⟩
  rw [← rowOf_eq_none_iff]
  exact decode_error_iff.trans (and_iff_left rfl)

/-- The row's command encodes to the frame it was built from, the ignored bits cleared (R101 to R104, R107). -/
def RowEncodes (r : OpcodeRow) : Prop :=
  ∀ f : Frame, f.op = r.op → encode (r.build f) = (meaningfulFrame f).bytes.take r.fmt.length

theorem opcodeRowsLow_encode : ∀ r ∈ opcodeRowsLow, RowEncodes r := by
  simp only [opcodeRowsLow, List.forall_mem_cons]
  refine ⟨?_, ?_, ?_, ?_, ?_, ?_, ?_, ?_, ?_, ?_, ?_, ?_, ?_, ?_, ?_, nofun⟩ <;> rintro ⟨op, p1, p2, p3, p4⟩ rfl
  all_goals simp [meaningfulFrame, encode, Frame.bytes, Format.length]

theorem opcodeRowsHigh_encode : ∀ r ∈ opcodeRowsHigh, RowEncodes r := by
  simp only [opcodeRowsHigh, List.forall_mem_cons]
  refine ⟨?_, ?_, ?_, ?_, ?_, ?_, ?_, ?_, ?_, ?_, ?_, ?_, ?_, ?_, ?_, ?_, ?_, ?_, ?_, ?_, nofun⟩ <;>
    rintro ⟨op, p1, p2, p3, p4⟩ rfl
  all_goals
    simp [meaningfulFrame, encode, Frame.bytes, Format.length, zeroExtend_chipField, zeroExtend_channelField]

theorem Format.length_le (k : Format) : k.length ≤ 5 := by cases k <;> decide

/-- Settles O3. The command is built by the row of its opcode; every row encodes back to the bytes its format reads. -/
theorem encodeOfDecodedIsMeaningfulFrame : Obligations.EncodeOfDecodedIsMeaningfulFrame := by
  intro f i h
  obtain ⟨r, hr, hrow, hop, rfl⟩ := row_of_decode h
  have hlen : frameLength f.op = r.fmt.length := by simp only [frameLength, hrow]
  have henc : RowEncodes r := (List.mem_append.mp hr).elim (opcodeRowsLow_encode r) (opcodeRowsHigh_encode r)
  have hfits : r.fmt.length ≤ (meaningfulFrame f).bytes.length := r.fmt.length_le
  rw [hlen, henc f hop.symm]
  exact ⟨rfl, List.length_take_of_le hfits⟩

/-- Settles O4. Five of the frames are those the encoder writes; the other two carry bits the decoder ignores. -/
theorem decodeReadsTheFramesOfTheSpec : Obligations.DecodeReadsTheFramesOfTheSpec := by
  intro rest
  have hload : chipField 0xFD#8 = 1#2 := by decide
  have hrdoff : channelField 0xF0#8 = 0#4 := by decide
  exact ⟨decodeInvertsEncode .p3v3On rest, decodeInvertsEncode (.eeRdb 0x1000#16) rest,
    decodeInvertsEncode (.hvSetmax 400#16) rest, decodeInvertsEncode (.musicWr 0#2 0x08#8 0x01FF#16) rest,
    decodeInvertsEncode (.eeWrw 0x42#8 0x01#8 0xFF#8) rest,
    congrArg (Except.ok ∘ Instr.musicLoad) hload, congrArg (Except.ok ∘ Instr.adcRdoff) hrdoff⟩

end Sys2Proof

/-! ## The frame and the transport (R130 to R136) -/

namespace Sys2Proof.Machine

/-- A byte of the frame that was delivered is the byte in `rx` (R136). -/
theorem rxByte_delivered {s : State} {k : Nat} (hk : k < Config.rxBufSize) (h : k < s.disp.rxLen) :
    rxByte k hk s = s.disp.rx[k] := if_pos h

/-- A byte of the frame depends on `rx` only where it was delivered (R136). -/
theorem rxByte_congr {s t : State} {k : Nat} (hk : k < Config.rxBufSize) (hl : t.disp.rxLen = s.disp.rxLen)
    (hd : t.env.draws = s.env.draws) (h : k < s.disp.rxLen → t.disp.rx[k] = s.disp.rx[k]) :
    rxByte k hk t = rxByte k hk s := by
  unfold rxByte
  rw [hl, hd]
  split
  next delivered => exact h delivered
  next => rfl

theorem frameOf_bytes (s : State) :
    (frameOf s).bytes = (List.finRange Config.rxBufSize).map (fun k => rxByte k.val k.isLt s) := rfl

/-- A waiting frame with an opcode of the map is run as the command it decodes to (R132). -/
theorem step_decoded {s : State} {i : Instr} (hs : s.disp.session = .writeRequested)
    (hd : decode (frameOf s) = .ok i) : step s = exec i (fetchFrame s).2 := by
  have hd : decode (fetchFrame s).1 = .ok i := hd
  simp only [step, hs, dispatchFrame, hd]

/-- A waiting frame with an opcode outside the map raises `UnknownOpcode` (R132, R137). -/
theorem step_unknown {s : State} {op : Byte} (hs : s.disp.session = .writeRequested)
    (hd : decode (frameOf s) = .error (.unknownOpcode op)) :
    step s = .next (raiseUnknownOpcode (fetchFrame s).2) := by
  have hd : decode (fetchFrame s).1 = .error (.unknownOpcode op) := hd
  simp only [step, hs, dispatchFrame, hd]

/-- Settles O5. The bytes of the frame are those of `rx` where they were delivered, and free values elsewhere. -/
theorem stepRunsTheDecodedCommand : Obligations.StepRunsTheDecodedCommand := by
  intro s i hs hd
  refine ⟨step_decoded hs hd, fun k hk hl => ?_, fun rx' hrx => ?_⟩
  · have hfin : (List.finRange Config.rxBufSize)[k]? = some ⟨k, hk⟩ := by simp [hk]
    rw [frameOf_bytes, List.getElem?_map, hfin, Option.map_some, rxByte_delivered hk hl]
  · have same : ∀ k (hk : k < Config.rxBufSize),
        rxByte k hk { s with disp := { s.disp with rx := rx' } } = rxByte k hk s :=
      fun k hk => rxByte_congr hk rfl rfl (hrx k hk)
    simp only [frameOf, same]

/-- Settles O6. The step is the delivery, whose three branches are those of the claim. -/
theorem frameDeliveryFillsTheReceiveBuffer : Obligations.FrameDeliveryFillsTheReceiveBuffer := by
  intro s bytes rest hs hq
  dsimp only
  rw [step_bus hs hq]
  simp only [envMove, deliverFrame, Config.rxBufSize]
  split
  · rfl
  split
  · exact ⟨_, rfl, rfl, fun k hk => overlay_getElem bytes s.disp.rx k hk⟩
  · unfold unsourced
    cases s.params.unsourced <;> rfl

/-- Settles O7. The bytes the master reads are the response, cut to what it asks for, then the surplus. -/
theorem readPhaseReturnsTheResponse : Obligations.ReadPhaseReturnsTheResponse := by
  intro s n rest hq
  refine ⟨fun hs _ => ?_, fun hs => ?_⟩
  · refine ⟨(List.range (n - s.disp.txLen)).map (fun k => Config.surplusByte s.env.draws k), by simp, ?_⟩
    rw [step_bus (.inr hs) hq]
    simp only [envMove, readPhase, hs]
    rfl
  · rw [step_bus (.inl hs) hq]
    simp only [envMove, readPhase, hs]
    unfold unsourced
    cases s.params.unsourced <;> rfl

/-- Settles O10. The step is the environment's next move. -/
theorem clearErrorOnlyClearsErr : Obligations.ClearErrorOnlyClearsErr :=
  fun _ _ hs hq => step_bus hs hq

end Sys2Proof.Machine

/-! ## The unknown opcode (R106, R137, R311) -/

namespace Sys2Proof.Machine

/-- A step the interrupt does not see may be made behind its window. -/
theorem Unseen.prim_eq {f : State → State} (hf : Unseen f) (s : State) : prim f s = f (Machine.window s) :=
  (hf.window s).symm

/-- Taking `UnknownOpcode` (R137): interrupts, then the flag, with the response cleared and the session `Idle`. -/
theorem raiseUnknownOpcode_eq (s : State) : ∃ u, Interrupts (clearResponse s) u ∧
    raiseUnknownOpcode s = { u with disp := { s.disp with err := true, txLen := 0, session := .idle } } := by
  have hu := ((beginDispatch_interrupts s).trans (window_interrupts _)).trans (window_interrupts _)
  have herr : Unseen setErr := unseen_disp (fun d => { d with err := true })
  have hsession : Unseen (setSession .error) := unseen_disp (fun d => { d with session := .error })
  refine ⟨_, hu, ?_⟩
  have hd : (window (window (beginDispatch s))).disp = (clearResponse s).disp :=
    congrArg ForegroundPart.disp hu.only.part
  rw [raiseUnknownOpcode, hsession.prim_eq, herr.prim_eq, ← herr.window]
  simp only [setSession, setErr, hd]
  rfl

/-- An opcode outside the map is classified by its first byte (R106). -/
theorem frameLength_unknown {op : Byte} (h : rowOf op = none) : frameLength op = 1 := by
  simp only [frameLength, h]

/-- A command but `RESET` is its handler, or nothing, behind the cleared response (R132); then it completes. -/
theorem exec_run {i : Instr} {s t : State} (hi : i ≠ .reset) (e : exec i s = .next t) :
    ∃ u, t = complete i.kind u ∧ HandlerKeeps s u ∧
      (u = clearResponse s ∨ (stopOf i s = none ∧ u = handler i (beginDispatch s))) := by
  have hbegin : HandlerKeeps s (beginDispatch s) := (beginDispatch_does s).keeps ⟨rfl, rfl, rfl, rfl, rfl, rfl⟩
  obtain ⟨hstop, rfl⟩ | ⟨-, -, rfl⟩ := exec_next hi e
  · exact ⟨_, rfl, hbegin.trans (handler_keeps hi _), .inr ⟨hstop, rfl⟩⟩
  · exact ⟨_, rfl, ⟨rfl, rfl, rfl, rfl, rfl, rfl, rfl, List.prefix_refl _⟩, .inl rfl⟩

theorem exec_err {i : Instr} {s t : State} (hi : i ≠ .reset) (e : exec i s = .next t) :
    t.disp.err = s.disp.err := by
  obtain ⟨u, rfl, hkeeps, -⟩ := exec_run hi e
  exact hkeeps.err

theorem raiseUnknownOpcode_err (s : State) : (raiseUnknownOpcode s).disp.err = true := by
  obtain ⟨u, -, h⟩ := raiseUnknownOpcode_eq s
  rw [h]

@[simp] theorem fetchFrame_disp (s : State) : (fetchFrame s).2.disp = s.disp := by
  obtain ⟨draws, h⟩ := fetchFrame_eq s
  rw [h]

/-- A command but `RESET` keeps `err`, and `RESET` clears it (R24). -/
theorem exec_err_cases {i : Instr} {s t : State} (e : exec i s = .next t) :
    (i = .reset ∧ t.disp.err = false) ∨ t.disp.err = s.disp.err := by
  by_cases hi : i = .reset
  · subst hi
    rw [exec_reset] at e
    obtain rfl := Host.Outcome.next.inj e
    exact .inl ⟨rfl, rfl⟩
  · exact .inr (exec_err hi e)

/-- A move of the environment keeps `err`, or is the external clear or power-on and clears it (R24, R314). -/
theorem envMove_err {s t : State} {e : EnvEvent} (h : envMove s e = .next t) :
    ((e = .clearError ∨ e = .powerOn) ∧ t.disp.err = false) ∨ t.disp.err = s.disp.err := by
  obtain ⟨_, -, -, -, rfl⟩ | ⟨_, -, -, rfl⟩ | ⟨rfl, rfl⟩ | ⟨rfl, rfl⟩ | ⟨m, -, rfl⟩ | rfl := envMove_cases h
  · exact .inr rfl
  · exact .inr rfl
  · exact .inl ⟨.inl rfl, rfl⟩
  · exact .inl ⟨.inr rfl, rfl⟩
  · exact .inr (congrArg (·.disp.err) (foregroundPart_irqMove s m))
  · exact .inr rfl

/-- Settles O8. An unknown opcode is a frame of one byte, so nothing is drawn for it; every other step keeps the flag or
clears it. -/
theorem unknownOpcodeIsTheOnlyFaultThatSetsErr : Obligations.UnknownOpcodeIsTheOnlyFaultThatSetsErr := by
  intro s
  refine ⟨fun hs hlen hop => ?_, fun t h ht => ?_⟩
  · have hfirst : (frameOf s).op = s.disp.rx[0] := rxByte_delivered (by decide) hlen
    have hrow : rowOf (frameOf s).op = none := by rw [hfirst]; exact (rowOf_eq_none_iff _).mpr hop
    have hfetch : (fetchFrame s).2 = s := by
      rw [fetchFrame_snd, frameLength_unknown hrow, if_neg (Nat.not_lt.mpr hlen)]
    obtain ⟨u, hu, hr⟩ := raiseUnknownOpcode_eq s
    exact ⟨u, hu, by rw [step_unknown hs (decode_error_iff.mpr ⟨hrow, rfl⟩), hfetch, hr]⟩
  · obtain ⟨-, i, -, he⟩ | ⟨hs, ⟨op, hd⟩, -⟩ | ⟨-, hm⟩ | ⟨-, rfl⟩ := step_cases h
    · obtain ⟨-, hf⟩ | hk := exec_err_cases he
      · rw [hf] at ht; cases ht
      · rw [hk, fetchFrame_disp] at ht; exact .inl ht
    · exact .inr ⟨hs, (rowOf_eq_none_iff _).mp (decode_error_iff.mp hd).1⟩
    · obtain ⟨-, hf⟩ | hk := envMove_err hm
      · rw [hf] at ht; cases ht
      · rw [hk] at ht; exact .inl ht
    · exact .inl ht

/-- Settles O9. Of the four kinds of step only a `RESET`, the external clear and power-on clear the flag. -/
theorem errIsClearedOnlyByClearErrorOrReset : Obligations.ErrIsClearedOnlyByClearErrorOrReset := by
  intro s t h hs ht
  obtain ⟨hw, i, hd, he⟩ | ⟨-, -, rfl⟩ | ⟨hb, hm⟩ | ⟨-, rfl⟩ := step_cases h
  · obtain ⟨rfl, -⟩ | hk := exec_err_cases he
    · exact .inl ⟨hw, hd⟩
    · rw [hk, fetchFrame_disp, hs] at ht; cases ht
  · rw [raiseUnknownOpcode_err] at ht; cases ht
  · obtain ⟨hc, -⟩ | hk := envMove_err hm
    · exact .inr ⟨hb, hc⟩
    · have ht : s.disp.err = false := hk.symm.trans ht
      rw [hs] at ht; cases ht
  · have ht : s.disp.err = false := ht
    rw [hs] at ht; cases ht

end Sys2Proof.Machine

/-! ## The responses of the write-then-read commands (R109, R134) -/

namespace Sys2Proof.Machine

/-- Whether the spec refuses a command does not depend on what becomes of it then (93 section 1). -/
theorem stopOf_unsourced (i : Instr) (s : State) (k : Treatment) :
    stopOf i { s with params := { s.params with unsourced := k } } = stopOf i s := by
  cases i <;> rfl

/-- A command the spec refuses has no next state under the treatment `refuse` (93 section 1). -/
theorem exec_refused {i : Instr} {s : State} (hi : i ≠ .reset) (hstop : stopOf i s ≠ none)
    (hp : s.params.unsourced = .refuse) (r : State) : exec i s ≠ .next r := by
  intro e
  obtain ⟨h, -⟩ | ⟨-, h, -⟩ := exec_next hi e
  · exact hstop h
  · rw [hp] at h; cases h

theorem serialLengthKnown_of_stopOf {s : State} (h : stopOf .devId s = none) : serialLengthKnown s = true :=
  refuseUnless_eq_none.mp h

/-- The beginning of `Dispatch` does not change whether the spec refuses a command (R132, R318). -/
theorem stopOf_beginDispatch (i : Instr) (s : State) : stopOf i (beginDispatch s) = stopOf i s := by
  have hsame : SameForeground (beginDispatch s) (clearResponse s) :=
    ⟨foregroundPart_beginDispatch s, (beginDispatch_interrupts s).does.record.trans (List.append_nil _)⟩
  refine (stopOf_sameForeground i hsame).trans ?_
  cases i <;> rfl

/-- Settles O12. A command that runs answers two bytes, `DEV_ID` one and the serial; one the spec refuses clears the
response. -/
theorem writeThenReadCommandsLeaveAResponse : Obligations.WriteThenReadCommandsLeaveAResponse := by
  intro i s t hk e
  have hi : i ≠ .reset := by rintro rfl; cases hk
  obtain ⟨hstop, rfl⟩ | ⟨hstop, hp, rfl⟩ := exec_next hi e
  · refine ⟨congrArg sessionAfter hk, ?_⟩
    by_cases hid : i = .devId
    · subst hid
      exact .inr (.inl ⟨rfl, reportDeviceId_txLen _
        (serialLengthKnown_of_stopOf ((stopOf_beginDispatch .devId s).trans hstop))⟩)
    · exact .inl ⟨hid, (handler_effects hi (beginDispatch s)).answered hk hid⟩
  · refine ⟨congrArg sessionAfter hk, .inr (.inr ⟨hp, rfl, ?_⟩)⟩
    exact exec_refused hi (by rw [stopOf_unsourced]; exact hstop) rfl

end Sys2Proof.Machine

/-! ## Reset (R60, R150, R340 to R342) -/

namespace Sys2Proof.Machine

theorem resetBlock_eq (s : State) : resetBlock s = State.afterReset s.params s.env := rfl

theorem accOf_afterReset (p : Params) (e : Env) (ch : BitVec 4) :
    accOf (State.afterReset p e) ch = ⟨0#32, 0#16, 0#32, 0#32⟩ := by
  revert ch
  show ∀ ch, Adc.afterReset.acc.get (channelIndex ch) = _
  decide

/-- Settles O13. Behind the interrupts of the beginning of `Dispatch`, `RESET` and power-on are the same reset of the
block; what they start from differs in the environment alone. -/
theorem resetCommandRestoresTheResetState : Obligations.ResetCommandRestoresTheResetState := by
  intro s
  have hp : (beginDispatch s).params = s.params := congrArg ForegroundPart.params (foregroundPart_beginDispatch s)
  have hreset : resetBlock (beginDispatch s) = State.afterReset s.params (beginDispatch s).env := by
    rw [resetBlock_eq, hp]
  refine ⟨rfl, beginDispatch s, State.afterReset s.params (beginDispatch s).env, beginDispatch_interrupts s,
    congrArg Host.Outcome.next hreset, rfl, rfl, fun rest hs hq => step_bus hs hq, ?_⟩
  exact ⟨rfl, rfl, rfl, rfl, rfl, rfl, rfl, accOf_afterReset _ _, rfl, rfl, rfl, rfl, rfl, rfl, rfl⟩

/-- Settles O14. The reset state is written out in the model. -/
theorem powerOnLeavesHvOffAndUnarmed : Obligations.PowerOnLeavesHvOffAndUnarmed :=
  ⟨rfl, rfl, rfl, rfl, rfl, rfl⟩

end Sys2Proof.Machine

/-! ## What a step leaves of the parameters, the EEPROM and the HV safety state -/

namespace Sys2Proof.Machine

/-- What every step but a command or a reset leaves. -/
structure StepLeaves (s t : State) : Prop where
  params : t.params = s.params
  ee : t.env.ee = s.env.ee
  hv : t.hv = s.hv
  hvEn : t.gpio.hvEn = true → s.gpio.hvEn = true

theorem Interrupts.leaves {s u : State} (h : Interrupts s u) : StepLeaves s u :=
  ⟨congrArg ForegroundPart.params h.only.part, congrArg ForegroundPart.ee h.only.part, h.only.hv, h.only.hvEnFalls⟩

/-- What a command but `RESET` leaves. -/
structure CommandLeaves (i : Instr) (s t : State) : Prop where
  params : t.params = s.params
  ee : (∀ a v, i ≠ .eeWrb a v) → (∀ a h l, i ≠ .eeWrw a h l) → i ≠ .devId → t.env.ee = s.env.ee
  hv : t.hv = s.hv ∨ t.hv = hvAfter i s.hv
  hvEn : i ≠ .hvOn → t.gpio.hvEn = true → s.gpio.hvEn = true

theorem exec_leaves {i : Instr} {s t : State} (hi : i ≠ .reset) (e : exec i s = .next t) : CommandLeaves i s t := by
  have hbegin := (beginDispatch_interrupts s).leaves
  obtain ⟨u, rfl, hkeeps, rfl | ⟨-, rfl⟩⟩ := exec_run hi e
  · exact ⟨rfl, fun _ _ _ => rfl, .inl rfl, fun _ => id⟩
  · obtain ⟨hhv, hhvEn⟩ := handler_hv hi (beginDispatch s)
    exact ⟨hkeeps.params, fun h1 h2 h3 => ((handler_effects hi _).ee h1 h2 h3).trans hbegin.ee,
      .inr (hhv.trans (congrArg (hvAfter i) hbegin.hv)), fun h e => hbegin.hvEn (hhvEn h e)⟩

/-- The block reset, its environment but for what the step took and showed (R340, R342). -/
def ResetsTheBlock (s t : State) : Prop := t = resetBlock { s with env := t.env } ∧ t.env.ee = s.env.ee

theorem exec_reset_resets {s t : State} (e : exec .reset s = .next t) : ResetsTheBlock s t := by
  have hbegin := (beginDispatch_interrupts s).leaves
  rw [exec_reset] at e
  obtain rfl := Host.Outcome.next.inj e
  refine ⟨?_, hbegin.ee⟩
  rw [resetBlock_eq, hbegin.params]
  rfl

theorem raiseUnknownOpcode_leaves (s : State) : StepLeaves s (raiseUnknownOpcode s) := by
  obtain ⟨u, hu, h⟩ := raiseUnknownOpcode_eq s
  obtain ⟨hp, he, hh, hl⟩ := hu.leaves
  rw [h]
  exact ⟨hp, he, hh, hl⟩

theorem envMove_leaves {s t : State} {e : EnvEvent} (h : envMove s e = .next t) :
    ResetsTheBlock s t ∨ StepLeaves s t := by
  obtain ⟨_, -, -, -, rfl⟩ | ⟨_, -, -, rfl⟩ | ⟨-, rfl⟩ | ⟨-, rfl⟩ | ⟨m, -, rfl⟩ | rfl := envMove_cases h
  · exact .inr ⟨rfl, rfl, rfl, id⟩
  · exact .inr ⟨rfl, rfl, rfl, id⟩
  · exact .inr ⟨rfl, rfl, rfl, id⟩
  · exact .inl ⟨rfl, rfl⟩
  · have ho := irqMove_only s m
    exact .inr ⟨congrArg ForegroundPart.params ho.part, congrArg ForegroundPart.ee ho.part, ho.hv, ho.hvEnFalls⟩
  · exact .inr ⟨rfl, rfl, rfl, id⟩

/-- A step resets the block, runs a command, or leaves all of this as it was (R132, R138). -/
theorem step_leaves {s t : State} (h : step s = .next t) :
    ResetsTheBlock s t ∨
    (∃ i, s.disp.session = .writeRequested ∧ decode (frameOf s) = .ok i ∧ CommandLeaves i s t) ∨
    StepLeaves s t := by
  obtain ⟨draws, hf⟩ := fetchFrame_eq s
  obtain ⟨hw, i, hd, he⟩ | ⟨-, -, rfl⟩ | ⟨-, hm⟩ | ⟨-, rfl⟩ := step_cases h
  · rw [hf] at he
    by_cases hi : i = .reset
    · subst hi
      obtain ⟨hr, hee⟩ := exec_reset_resets he
      exact .inl ⟨hr, hee⟩
    · obtain ⟨hp, hee, hh, hl⟩ := exec_leaves hi he
      exact .inr (.inl ⟨i, hw, hd, hp, hee, hh, hl⟩)
  · rw [hf]
    obtain ⟨hp, hee, hh, hl⟩ := raiseUnknownOpcode_leaves { s with env := { s.env with draws := draws } }
    exact .inr (.inr ⟨hp, hee, hh, hl⟩)
  · obtain ⟨hr, hee⟩ | ⟨hp, hee, hh, hl⟩ := envMove_leaves hm
    · exact .inl ⟨hr, hee⟩
    · exact .inr (.inr ⟨hp, hee, hh, hl⟩)
  · exact .inr (.inr ⟨rfl, rfl, rfl, id⟩)

/-- Settles O17. Each of the three kinds of step keeps them. -/
theorem stepKeepsTheParameters : Obligations.StepKeepsTheParameters := by
  intro s t h
  obtain ⟨hr, -⟩ | ⟨_, -, -, hc⟩ | hl := step_leaves h
  · rw [hr]; rfl
  · exact hc.params
  · exact hl.params

/-- Settles O31. Resets and moves of the environment keep the contents, and so does a command but these three. -/
theorem eepromIsChangedOnlyByItsThreeCommands : Obligations.EepromIsChangedOnlyByItsThreeCommands := by
  intro s t h hne
  obtain ⟨-, hee⟩ | ⟨i, hw, hd, hc⟩ | hl := step_leaves h
  · exact absurd hee hne
  · refine ⟨hw, ?_⟩
    by_contra hother
    simp only [not_or, not_exists, hd, Except.ok.injEq] at hother
    obtain ⟨hb, hword, hid⟩ := hother
    exact hne (hc.ee hb hword hid)
  · exact absurd hl.ee hne

/-- Settles O51. Reset puts the latch low; in every other step but the command `HV_ON` it can only fall. -/
theorem hvEnIsRaisedOnlyByHvOn : Obligations.HvEnIsRaisedOnlyByHvOn := by
  intro s t h hs ht
  obtain ⟨hr, -⟩ | ⟨i, hw, hd, hc⟩ | hl := step_leaves h
  · rw [hr] at ht; cases ht
  · by_cases hi : i = .hvOn
    · exact ⟨hw, hi ▸ hd⟩
    · rw [hc.hvEn hi ht] at hs; cases hs
  · rw [hl.hvEn ht] at hs; cases hs

/-- `HVSAFE_EN` alone sets the enable of the controller (R45, R292). -/
theorem hvAfter_safetyEn {i : Instr} {h : HvSafety} (hne : (hvAfter i h).safetyEn ≠ h.safetyEn) :
    i = .hvsafeEn ∧ (hvAfter i h).safetyEn = true := by
  cases i with
  | hvsafeEn => exact ⟨rfl, rfl⟩
  | _ => exact absurd rfl hne

/-- `ADC_RECOFF` alone sets the validity of the offsets (R46, R276). -/
theorem hvAfter_offsetValid {i : Instr} {h : HvSafety} (hne : (hvAfter i h).offsetValid ≠ h.offsetValid) :
    i = .adcRecoff ∧ (hvAfter i h).offsetValid = true := by
  cases i with
  | adcRecoff => exact ⟨rfl, rfl⟩
  | _ => exact absurd rfl hne

/-- Settles O52. Reset clears both flags, a command sets at most its own, and no other step changes them. -/
theorem safetyFlagsAreSetByTheirCommandAndClearedByReset :
    Obligations.SafetyFlagsAreSetByTheirCommandAndClearedByReset := by
  intro s t h
  obtain ⟨hr, -⟩ | ⟨i, hw, hd, hc⟩ | hl := step_leaves h
  · have hhv : t.hv = ⟨false, false, 0#16, 0#32⟩ := congrArg State.hv hr
    rw [hhv]
    exact ⟨fun _ => .inr ⟨rfl, hr⟩, fun _ => .inr ⟨rfl, hr⟩⟩
  · obtain hhv | hhv := hc.hv
    · rw [hhv]
      exact ⟨fun hne => absurd rfl hne, fun hne => absurd rfl hne⟩
    · rw [hhv]
      refine ⟨fun hne => ?_, fun hne => ?_⟩
      · obtain ⟨rfl, hset⟩ := hvAfter_safetyEn hne
        exact .inl ⟨hset, hw, hd⟩
      · obtain ⟨rfl, hset⟩ := hvAfter_offsetValid hne
        exact .inl ⟨hset, hw, hd⟩
  · rw [hl.hv]
    exact ⟨fun hne => absurd rfl hne, fun hne => absurd rfl hne⟩

end Sys2Proof.Machine

/-! ## The invariant -/

namespace Sys2Proof.Machine

/-- The reset state meets the invariant over any environment whose EEPROM does (R60, R340). -/
theorem inv_afterReset {p : Params} {e : Env} (hwf : Memory.wf e.ee = true)
    (hrange : ∀ c ∈ e.ee, c.1 < p.eepromSize) : Inv (State.afterReset p e) where
  eeCanonical := hwf
  eeInRange := hrange
  rxLen := Nat.zero_le _
  txLen := Nat.zero_le _
  session := nofun
  frame := nofun
  spiIdle := ⟨rfl, rfl, rfl⟩
  unmasked := rfl
  pending := nofun
  rate := (by decide : 0#3 ≤ 6#3)
  delta := (by decide : 0#32 = deltaOf 0#16)

/-- Settles O15. Nothing is listed in the EEPROM that power-on finds. -/
theorem powerOnMeetsTheInvariant : Obligations.PowerOnMeetsTheInvariant :=
  inv_afterReset rfl nofun

theorem Inv.resetBlock {s : State} (h : Inv s) : Inv (resetBlock s) := inv_afterReset h.eeCanonical h.eeInRange

/-- A write to the dispatcher that keeps the buffer lengths and the session legal keeps the invariant. -/
theorem Inv.setDisp {s : State} (h : Inv s) {d : Dispatcher} (hrx : d.rxLen ≤ Config.rxBufSize)
    (htx : d.txLen ≤ Config.txBufSize) (hsession : d.session ≠ .error)
    (hframe : d.session = .writeRequested → 1 ≤ d.rxLen) : Inv { s with disp := d } :=
  { h with rxLen := hrx, txLen := htx, session := hsession, frame := hframe }

/-- Of the environment the invariant speaks of the EEPROM alone. -/
theorem Inv.setEnv {s : State} (h : Inv s) {e : Env} (hee : e.ee = s.env.ee) : Inv { s with env := e } :=
  { h with eeCanonical := by simpa only [hee] using h.eeCanonical,
           eeInRange := by simpa only [hee] using h.eeInRange }

/-- Interrupt moves keep the invariant (R250, R318). -/
theorem InterruptsOnly.inv {s u : State} (k : InterruptsOnly s u) (h : Inv s) : Inv u := by
  have hd : u.disp = s.disp := congrArg ForegroundPart.disp k.part
  have hs : u.spi = s.spi := congrArg ForegroundPart.spi k.part
  have hp : u.params = s.params := congrArg ForegroundPart.params k.part
  have hr : u.adc.rateCode = s.adc.rateCode := congrArg ForegroundPart.rateCode k.part
  have he : u.env.ee = s.env.ee := congrArg ForegroundPart.ee k.part
  have hpending : u.adc.irqPending = true → s.adc.loopEn = true := by
    intro hu
    by_contra hoff
    exact hoff (h.pending (k.pending (by simpa using hoff) hu))
  constructor
  case pending => rw [k.loopEn]; exact hpending
  all_goals simp only [SpiIdle, hd, hs, hp, hr, he, k.hv, k.irqMasked]
  exacts [h.eeCanonical, h.eeInRange, h.rxLen, h.txLen, h.session, h.frame, h.spiIdle, h.unmasked, h.rate, h.delta]

theorem Inv.clearResponse {s : State} (h : Inv s) : Inv (clearResponse s) :=
  h.setDisp h.rxLen (Nat.zero_le _) h.session h.frame

theorem Inv.beginDispatch {s : State} (h : Inv s) : Inv (beginDispatch s) :=
  (beginDispatch_interrupts s).only.inv h.clearResponse

theorem Inv.complete {s : State} (h : Inv s) (k : Kind) : Inv (complete k s) := by
  cases k <;> exact h.setDisp h.rxLen h.txLen nofun nofun

/-- After a handler an event is pending only while the loop is enabled (R250, R272, R273). -/
theorem handler_pending {i : Instr} (hi : i ≠ .reset) {s : State} (h : Inv s)
    (hp : (handler i s).adc.irqPending = true) : (handler i s).adc.loopEn = true := by
  by_cases hstart : i = .adcStart
  · subst hstart
    exact window_loopEn (setLoopEn s)
  by_cases hstop : i = .adcStop
  · subst hstop
    have hp : (stopLoop s).adc.irqPending = true := hp
    rw [stopLoop_eq] at hp
    cases hp
  · have hgate := handler_gate hi hstart hstop s
    rw [hgate.loopEn]
    by_contra hoff
    exact hoff (h.pending (hgate.pending (by simpa using hoff) hp))

/-- What becomes of the threshold in a handler keeps it the conversion of the current (R48, R294). -/
theorem hvAfter_delta (i : Instr) {h : HvSafety} (hd : h.maxDelta = deltaOf h.maxUA) :
    (hvAfter i h).maxDelta = deltaOf (hvAfter i h).maxUA := by
  cases i with
  | hvSetmax uA => rfl
  | _ => exact hd

/-- The response of a handler fits the buffer (R20, R109). -/
theorem handler_txLen {i : Instr} (hi : i ≠ .reset) {s : State} (hstop : stopOf i s = none)
    (h : s.disp.txLen ≤ Config.txBufSize) : (handler i s).disp.txLen ≤ Config.txBufSize := by
  have heff := handler_effects hi s
  cases hk : i.kind with
  | writeOnly => rw [heff.txLen hk]; exact h
  | writeThenRead =>
    by_cases hid : i = .devId
    · subst hid
      exact (reportDeviceId_txLen s (serialLengthKnown_of_stopOf hstop)).2
    · rw [heff.answered hk hid]; decide

/-- Every handler the spec does not refuse keeps the invariant. -/
theorem Inv.handler {i : Instr} (hi : i ≠ .reset) {s : State} (hstop : stopOf i s = none) (h : Inv s) :
    Inv (handler i s) := by
  have hkeeps := handler_keeps hi s
  have heff := handler_effects hi s
  have hidle := heff.idle h.spiIdle
  constructor
  case eeCanonical => exact heff.eeCanonical h.eeCanonical
  case eeInRange => rw [hkeeps.params]; exact heff.eeInRange hstop h.eeInRange
  case rxLen => rw [hkeeps.rxLen]; exact h.rxLen
  case txLen => exact handler_txLen hi hstop h.txLen
  case session => rw [hkeeps.session]; exact h.session
  case frame => rw [hkeeps.session, hkeeps.rxLen]; exact h.frame
  case spiIdle => simp only [SpiIdle, hkeeps.params]; exact hidle
  case unmasked => rw [hkeeps.irqMasked]; exact h.unmasked
  case pending => exact handler_pending hi h
  case rate => exact heff.rate h.rate
  case delta => rw [(handler_hv hi s).1]; exact hvAfter_delta i h.delta

theorem Inv.exec {i : Instr} {s t : State} (h : Inv s) (e : exec i s = .next t) : Inv t := by
  by_cases hi : i = .reset
  · subst hi
    rw [exec_reset] at e
    obtain rfl := Host.Outcome.next.inj e
    exact h.beginDispatch.resetBlock
  · obtain ⟨hstop, rfl⟩ | ⟨-, -, rfl⟩ := exec_next hi e
    · exact (h.beginDispatch.handler hi ((stopOf_beginDispatch i s).trans hstop)).complete _
    · exact h.clearResponse.complete _

theorem Inv.raiseUnknownOpcode {s : State} (h : Inv s) : Inv (raiseUnknownOpcode s) := by
  obtain ⟨u, hu, e⟩ := raiseUnknownOpcode_eq s
  rw [e]
  exact (hu.only.inv h.clearResponse).setDisp h.rxLen (Nat.zero_le _) nofun nofun

theorem Inv.envMove {s t : State} {e : EnvEvent} (h : Inv s) (hm : envMove s e = .next t) : Inv t := by
  obtain ⟨bytes, -, hlen, hfits, rfl⟩ | ⟨n, -, -, rfl⟩ | ⟨-, rfl⟩ | ⟨-, rfl⟩ | ⟨m, -, rfl⟩ | rfl := envMove_cases hm
  · exact h.setDisp hfits h.txLen nofun fun _ => hlen
  · exact (h.setDisp (d := { s.disp with session := .idle }) h.rxLen h.txLen nofun nofun).setEnv rfl
  · exact h.setDisp h.rxLen h.txLen h.session h.frame
  · exact h.resetBlock
  · exact (irqMove_only s m).inv h
  · exact h

/-- Settles O16. Each of the four kinds of step keeps the invariant; a state that shows `Error` does not meet it. -/
theorem stepKeepsTheInvariant : Obligations.StepKeepsTheInvariant := by
  intro s t h hstep
  obtain ⟨draws, hf⟩ := fetchFrame_eq s
  have hfetch : Inv (fetchFrame s).2 := by rw [hf]; exact h.setEnv rfl
  obtain ⟨-, i, -, he⟩ | ⟨-, -, rfl⟩ | ⟨-, hm⟩ | ⟨herror, -⟩ := step_cases hstep
  · exact hfetch.exec he
  · exact hfetch.raiseUnknownOpcode
  · refine Inv.envMove ?_ hm
    exact h.setEnv rfl
  · exact absurd herror h.session

end Sys2Proof.Machine

/-! ## Fair runs (R258, R317) -/

namespace Sys2Proof.Machine

/-- A pending interrupt stays pending or is taken, and the record grows (R250, R317). -/
def Serves (s t : State) : Prop :=
  s.env.trace <+: t.env.trace ∧ (s.adc.irqPending = true → t.adc.irqPending = true ∨ InterruptTaken s t)

theorem Serves.trans {s t u : State} (h : Serves s t) (k : Serves t u) : Serves s u := by
  refine ⟨h.1.trans k.1, fun hp => ?_⟩
  obtain hp | htaken := h.2 hp
  · obtain hp | htaken := k.2 hp
    · exact .inl hp
    · exact .inr (htaken.mono h.1 k.1 (List.prefix_refl _))
  · exact .inr (htaken.mono (List.prefix_refl _) h.1 k.1)

/-- A step that leaves the pending event serves it later. -/
theorem Serves.ofStep {s t : State} (hr : s.env.trace <+: t.env.trace) (hp : t.adc.irqPending = s.adc.irqPending) :
    Serves s t :=
  ⟨hr, fun h => .inl (hp.trans h)⟩

theorem Beside.serves {s t : State} (h : Beside s t) : Serves s t := ⟨h.1, h.shared.served⟩

theorem Interrupts.serves {s u : State} (h : Interrupts s u) : Serves s u := h.beside.serves

theorem irqMove_serves (s : State) (m : IrqMove) : Serves s (irqMove s m) := by
  obtain ⟨evs, htrace, -, hserved⟩ := (irqMove_only s m).record
  refine ⟨⟨evs, htrace.symm⟩, fun hp => (hserved hp).imp_right fun ⟨w, hw⟩ => ⟨w, ?_⟩⟩
  rwa [newEvents, htrace, List.drop_left]

theorem clearResponse_serves (s : State) : Serves s (clearResponse s) := .ofStep (List.prefix_refl _) rfl

theorem beginDispatch_serves (s : State) : Serves s (beginDispatch s) :=
  (clearResponse_serves s).trans (beginDispatch_interrupts s).serves

/-- Every handler but those that drop the event, of `RESET` and `ADC_STOP`, serves it (R273, R340). -/
theorem handler_serves {i : Instr} (hi : i ≠ .reset) (hstop : i ≠ .adcStop) (s : State) : Serves s (handler i s) := by
  by_cases hstart : i = .adcStart
  · subst hstart
    exact (Serves.ofStep (t := setLoopEn s) (List.prefix_refl _) rfl).trans (window_interrupts _).serves
  · exact ⟨(handler_keeps hi s).record, (handler_gate hi hstart hstop s).served⟩

/-- A command serves a pending interrupt or leaves the loop disabled. -/
theorem exec_serves {i : Instr} {s t : State} (e : exec i s = .next t) : Serves s t ∨ t.adc.loopEn = false := by
  by_cases hi : i = .reset
  · subst hi
    rw [exec_reset] at e
    obtain rfl := Host.Outcome.next.inj e
    exact .inr rfl
  obtain ⟨-, rfl⟩ | ⟨-, -, rfl⟩ := exec_next hi e
  · by_cases hstop : i = .adcStop
    · subst hstop
      exact .inr (congrArg (·.adc.loopEn) (stopLoop_eq (beginDispatch s)))
    · exact .inl (((beginDispatch_serves s).trans (handler_serves hi hstop _)).trans (.ofStep (List.prefix_refl _) rfl))
  · exact .inl ((clearResponse_serves s).trans (.ofStep (List.prefix_refl _) rfl))

theorem envMove_serves {s t : State} {e : EnvEvent} (h : envMove s e = .next t) :
    Serves s t ∨ t.adc.loopEn = false := by
  obtain ⟨_, -, -, -, rfl⟩ | ⟨_, -, -, rfl⟩ | ⟨-, rfl⟩ | ⟨-, rfl⟩ | ⟨m, -, rfl⟩ | rfl := envMove_cases h
  · exact .inl (.ofStep (List.prefix_refl _) rfl)
  · exact .inl (.ofStep (List.prefix_append _ _) rfl)
  · exact .inl (.ofStep (List.prefix_refl _) rfl)
  · exact .inr rfl
  · exact .inl (irqMove_serves s m)
  · exact .inl (.ofStep (List.prefix_refl _) rfl)

/-- A step serves a pending interrupt or leaves the loop disabled. -/
theorem step_serves {s t : State} (h : step s = .next t) : Serves s t ∨ t.adc.loopEn = false := by
  obtain ⟨draws, hf⟩ := fetchFrame_eq s
  have hfetch : Serves s (fetchFrame s).2 := by rw [hf]; exact .ofStep (List.prefix_refl _) rfl
  obtain ⟨-, i, -, he⟩ | ⟨-, -, rfl⟩ | ⟨-, hm⟩ | ⟨-, rfl⟩ := step_cases h
  · exact (exec_serves he).imp_left hfetch.trans
  · obtain ⟨u, hu, e⟩ := raiseUnknownOpcode_eq (fetchFrame s).2
    have hserves := ((hfetch.trans (clearResponse_serves _)).trans hu.serves)
    rw [e]
    exact .inl (hserves.trans (.ofStep (List.prefix_refl _) rfl))
  · exact (envMove_serves hm).imp_left (Serves.ofStep (List.prefix_refl _) rfl).trans
  · exact .inl (.ofStep (List.prefix_refl _) rfl)

theorem run_inv {σ : Nat → State} (hrun : Run σ) (h0 : Inv (σ 0)) (n : Nat) : Inv (σ n) := by
  induction n with
  | zero => exact h0
  | succ n ih =>
    obtain ⟨bus, irq, hstep⟩ := hrun n
    exact stepKeepsTheInvariant _ _ (ih.setEnv rfl : Inv (withInputs bus irq (σ n))) hstep

/-- In one step of a run a pending interrupt stays pending, is taken, or the loop ends disabled. -/
theorem run_serves {σ : Nat → State} (hrun : Run σ) {n : Nat} (hp : (σ n).adc.irqPending = true) :
    (σ (n + 1)).adc.irqPending = true ∨ InterruptTaken (σ n) (σ (n + 1)) ∨ (σ (n + 1)).adc.loopEn = false := by
  obtain ⟨bus, irq, hstep⟩ := hrun n
  obtain hserves | hoff := step_serves hstep
  · exact (hserves.2 hp).imp_right .inl
  · exact .inr (.inr hoff)

/-- Settles O59. Were the interrupt never taken and the loop never disabled, it would stay pending, and unmasked by the
invariant; fairness takes an interrupt that stays enabled. -/
theorem fairRunsServeEveryPendingInterrupt : Obligations.FairRunsServeEveryPendingInterrupt := by
  intro σ hrun hfair h0 n hp
  by_contra hnever
  simp only [not_exists, not_and, not_or] at hnever
  have hstays : ∀ m, n ≤ m → (σ m).adc.irqPending = true := by
    intro m hm
    induction m, hm using Nat.le_induction with
    | base => exact hp
    | succ m hm ih =>
      obtain hp | htaken | hoff := run_serves hrun ih
      · exact hp
      · exact absurd htaken (hnever m hm).1
      · exact absurd hoff (hnever m hm).2
  obtain ⟨m, hm, htaken⟩ := hfair n fun m hm => ⟨hstays m hm, (run_inv hrun h0 m).unmasked⟩
  exact (hnever m hm).1 htaken

end Sys2Proof.Machine

/-! ## The latch commands (R151 to R158, R291) -/

namespace Sys2Proof.Machine

@[simp] theorem gpioWrite_led (b : Bool) (s : State) : (gpioWrite .led b s).gpio.led = b :=
  window_led (latchWrite .led b s)

@[simp] theorem gpioWrite_en5v (b : Bool) (s : State) : (gpioWrite .en5v b s).gpio.en5v = b :=
  window_en5v (latchWrite .en5v b s)

/-- No interrupt raises `HV_EN` (R40, R255). -/
@[simp] theorem gpioWrite_hvEn_low (s : State) : (gpioWrite .hvEn false s).gpio.hvEn = false :=
  Bool.eq_false_iff.mpr fun h => Bool.false_ne_true ((window_only (latchWrite .hvEn false s)).hvEnFalls h)

/-- Settles O19. Each handler is the write of its own latch, behind the cleared response. -/
theorem latchCommandsWriteTheirOwnLatch : Obligations.LatchCommandsWriteTheirOwnLatch := by
  intro s
  refine ⟨⟨_, gpioWrite_beginDispatch_interleaved .led true s, exec_completes (by decide) rfl, gpioWrite_led ..⟩,
    ⟨_, gpioWrite_beginDispatch_interleaved .led false s, exec_completes (by decide) rfl, gpioWrite_led ..⟩,
    ⟨_, gpioWrite_beginDispatch_interleaved .en3v3 false s, exec_completes (by decide) rfl, gpioWrite_en3v3 ..⟩,
    ⟨_, gpioWrite_beginDispatch_interleaved .en5v true s, exec_completes (by decide) rfl, gpioWrite_en5v ..⟩,
    ⟨_, gpioWrite_beginDispatch_interleaved .en5v false s, exec_completes (by decide) rfl, gpioWrite_en5v ..⟩,
    ⟨_, gpioWrite_beginDispatch_interleaved .hvEn false s, exec_completes (by decide) rfl, gpioWrite_hvEn_low _⟩⟩

/-- Both rails, 3V3 first, behind the cleared response (R157, R158). -/
theorem rails_beginDispatch_interleaved (b : Bool) (s : State) :
    Interleaved [latchWrite .en3v3 b, latchWrite .en5v b] (clearResponse s)
      (gpioWrite .en5v b (gpioWrite .en3v3 b (beginDispatch s))) :=
  (gpioWrites_interleaved .en3v3 .en5v b (beginDispatch s)).before (beginDispatch_interrupts s)

/-- The write of the 5V latch leaves the 3V3 latch (R40). -/
theorem gpioWrite_en5v_en3v3 (b c : Bool) (s : State) :
    (gpioWrite .en5v b (gpioWrite .en3v3 c s)).gpio.en3v3 = c :=
  (window_en3v3 (latchWrite .en5v b (gpioWrite .en3v3 c s))).trans (gpioWrite_en3v3 c s)

/-- Settles O20. Each handler is the write of the 3V3 latch, then that of the 5V latch, which leaves the first. -/
theorem combinedRailCommandsWrite3v3First : Obligations.CombinedRailCommandsWrite3v3First := by
  intro s
  exact ⟨⟨_, rails_beginDispatch_interleaved true s, exec_completes (by decide) rfl, gpioWrite_en5v_en3v3 ..,
      gpioWrite_en5v ..⟩,
    ⟨_, rails_beginDispatch_interleaved false s, exec_completes (by decide) rfl, gpioWrite_en5v_en3v3 ..,
      gpioWrite_en5v ..⟩⟩

end Sys2Proof.Machine

/-! ## The EEPROM passthrough (R180 to R183) -/

namespace Sys2Proof.Machine

@[simp] theorem beginDispatch_ee (s : State) : (beginDispatch s).env.ee = s.env.ee :=
  congrArg ForegroundPart.ee (foregroundPart_beginDispatch s)

/-- Settles O26. The check of R71 stops the command, and the treatment is that of the parameters. -/
theorem eeRdbOutsideTheEepromHasNoEffect : Obligations.EeRdbOutsideTheEepromHasNoEffect := by
  intro s a hout hp
  have hne : Instr.eeRdb a ≠ .reset := nofun
  rw [exec_stopped hne (eeStop_one_outside (Nat.not_lt.mpr hout)), notSourced, hp]
  rfl

/-- Settles O27. Two reads, their bytes swapped in the response; the check of R71 names a missing address. -/
theorem eeRdwAnswersTheWordLowByteFirst : Obligations.EeRdwAnswersTheWordLowByteFirst := by
  intro s a8
  have hne : Instr.eeRdw a8 ≠ .reset := nofun
  dsimp only
  split
  next inside =>
    have d := reportWord_does a8.toNat (beginDispatch s)
    simp only [eeRead_beginDispatch] at d
    obtain ⟨u, hw, hr, hu⟩ := Does.answersOnly (bytes := [eeRead (a8.toNat + 1) s, eeRead a8.toNat s]) d
    exact ⟨u, _, hw, exec_completes hne (eeStop_two inside), hr, hu⟩
  next outside =>
    obtain ⟨a, ha, hout, hstop⟩ := eeStop_two_outside outside
    exact ⟨a, ha, hout, exec_stopped hne hstop⟩

/-- A write-only handler that changes the EEPROM and nothing else of the foreground's part, completed: nothing else
changes, interrupts apart (R133, R318). -/
theorem Does.writesEeprom {h : State → State} {s : State} {m : Memory} {evs : List Event}
    (d : Does (beginDispatch s) (h (beginDispatch s)) { foregroundPart (beginDispatch s) with ee := m } evs) :
    ∃ u, WorksBeside evs s u (complete .writeOnly (h (beginDispatch s))) ∧
      { complete .writeOnly (h (beginDispatch s)) with
        env := { (h (beginDispatch s)).env with ee := u.env.ee, trace := u.env.trace } } = endIn .idle u := by
  obtain ⟨u, hw, hf, hi⟩ := d.worksBeside (k := .writeOnly)
  have hp : foregroundPart (h (beginDispatch s)) = { foregroundPart u with ee := m } := by
    rw [hf, ← foregroundPart_beginDispatch]; exact d.part
  refine ⟨u, hw, state_ext ?_ ?_ rfl⟩
  · exact congrArg (fun x : ForegroundPart =>
      { x with ee := u.env.ee, disp := { x.disp with session := .idle } }) hp
  · exact congrArg (fun x : InterruptPart => { x with events := interrupt u.env.trace }) hi.symm

/-- Settles O28. Inside the EEPROM the handler is `EeWriteIfChanged`; outside, the check of R71 stops it. -/
theorem eeWrbWritesOneByteIfChanged : Obligations.EeWrbWritesOneByteIfChanged := by
  intro s a v
  have hne : Instr.eeWrb a v ≠ .reset := nofun
  dsimp only
  split
  next inside =>
    have d := eeWriteIfChanged_does a.toNat v (beginDispatch s)
    obtain ⟨u, hw, hu⟩ := d.writesEeprom
    refine ⟨u, _, ?_, exec_completes hne (eeStop_one inside), hu, fun x => ?_⟩
    · rw [beginDispatch_ee] at hw; exact hw
    · exact (eeRead_eeWriteIfChanged ..).trans (by rw [eeRead_beginDispatch]; rfl)
  next outside => exact exec_stopped hne (eeStop_one_outside outside)

/-- What the EEPROM holds after `EeWriteWordIfChanged` (R76). -/
theorem read_writeWord (m : Memory) (a x : Nat) (hi lo : Byte) :
    ((m.writeIfChanged a hi).writeIfChanged (a + 1) lo).read x =
      if x = a then hi else if x = a + 1 then lo else m.read x := by
  rw [Memory.read_writeIfChanged, Memory.read_writeIfChanged]
  by_cases h : x = a
  · subst h; simp
  · simp only [h, if_false]

/-- The low byte's address is read as it was before the high byte was written (R75, R76). -/
theorem writeAccesses_next (m : Memory) (a : Nat) (hi lo : Byte) :
    (m.writeIfChanged a hi).writeAccesses (a + 1) lo = m.writeAccesses (a + 1) lo := by
  unfold Memory.writeAccesses
  rw [Memory.read_writeIfChanged, if_neg (Nat.succ_ne_self a)]

theorem eeWriteWordIfChanged_ee (a : Nat) (hi lo : Byte) (s : State) :
    (eeWriteWordIfChanged a hi lo s).env.ee = (s.env.ee.writeIfChanged a hi).writeIfChanged (a + 1) lo :=
  congrArg ForegroundPart.ee (eeWriteWordIfChanged_does a hi lo s).part

/-- Settles O29. The handler is `EeWriteIfChanged` twice; the second address is not the first. -/
theorem eeWrwWritesTwoBytesIfChanged : Obligations.EeWrwWritesTwoBytesIfChanged := by
  intro s a8 hi lo
  have hne : Instr.eeWrw a8 hi lo ≠ .reset := nofun
  dsimp only
  split
  next inside =>
    have d := eeWriteWordIfChanged_does a8.toNat hi lo (beginDispatch s)
    rw [writeAccesses_next, beginDispatch_ee] at d
    obtain ⟨u, hw, hu⟩ := d.writesEeprom
    refine ⟨u, _, hw, exec_completes hne (eeStop_two inside), hu, fun x => ?_⟩
    have hee : (eeWriteWordIfChanged a8.toNat hi lo (beginDispatch s)).env.ee = _ := eeWriteWordIfChanged_ee ..
    rw [beginDispatch_ee] at hee
    exact (congrArg (fun m => Memory.read m x) hee).trans (read_writeWord ..)
  next outside =>
    obtain ⟨b, hb, hout, hstop⟩ := eeStop_two_outside outside
    exact ⟨b, hb, hout, exec_stopped hne hstop⟩

/-- A byte that holds the value already is read and not programmed (R74). -/
theorem writeIfChanged_of_read {m : Memory} {a : Nat} {v : Byte} (h : m.read a = v) :
    m.writeIfChanged a v = m ∧ m.writeAccesses a v = [.eeRead a v] := by
  simp [Memory.writeIfChanged, Memory.writeAccesses, h]

/-- A word that the EEPROM holds already is written without a physical write (R76). -/
theorem writeWord_of_read {a8 hi lo : Byte} {s : State} (hin : a8.toNat + 1 < s.params.eepromSize)
    (hhi : eeRead a8.toNat s = hi) (hlo : eeRead (a8.toNat + 1) s = lo) :
    ∃ r, exec (.eeWrw a8 hi lo) s = .next r ∧ programCount (newEvents s r) = 0 ∧ r.env.ee = s.env.ee := by
  obtain ⟨hkeep, hread⟩ := writeIfChanged_of_read hhi
  obtain ⟨hkeep', hread'⟩ := writeIfChanged_of_read hlo
  have d := eeWriteWordIfChanged_does a8.toNat hi lo (beginDispatch s)
  rw [writeAccesses_next, beginDispatch_ee, hread, hread', hkeep, hkeep'] at d
  obtain ⟨u, ⟨-, hforeground, -⟩, -⟩ := d.writesEeprom
  refine ⟨_, exec_completes nofun (eeStop_two hin), ?_, congrArg ForegroundPart.ee d.part⟩
  rw [← programCount_foreground]
  exact (congrArg programCount hforeground).trans rfl

/-- `EE_RDW` on a word (R181). -/
theorem eeRdw_responseBytes {a8 : Byte} {s : State} (hin : a8.toNat + 1 < s.params.eepromSize) :
    ∃ r, exec (.eeRdw a8) s = .next r ∧ responseBytes r = [eeRead (a8.toNat + 1) s, eeRead a8.toNat s] := by
  have d := reportWord_does a8.toNat (beginDispatch s)
  simp only [eeRead_beginDispatch] at d
  have hdisp : (reportWord a8.toNat (beginDispatch s)).disp = _ := congrArg ForegroundPart.disp d.part
  refine ⟨_, exec_completes nofun (eeStop_two hin), (responseBytes_complete ..).trans ?_⟩
  exact responseBytes_of_tx (congrArg Dispatcher.tx hdisp) (congrArg Dispatcher.txLen hdisp)
    (show 2 ≤ 65 by decide)

/-- Settles O30. After the first write the two addresses hold the two bytes, which is what the read and the second
write start from. -/
theorem wordWriteReadsBackAndSecondWriteProgramsNothing :
    Obligations.WordWriteReadsBackAndSecondWriteProgramsNothing := by
  intro s a8 hi lo hin
  have he := exec_completes (i := .eeWrw a8 hi lo) nofun (eeStop_two hin)
  have hp := (exec_leaves (i := .eeWrw a8 hi lo) nofun he).params
  have hread : ∀ x, eeRead x (complete .writeOnly (eeWriteWordIfChanged a8.toNat hi lo (beginDispatch s))) =
      if x = a8.toNat then hi else if x = a8.toNat + 1 then lo else (beginDispatch s).env.ee.read x := fun x =>
    (congrArg (fun m => Memory.read m x) (eeWriteWordIfChanged_ee a8.toNat hi lo (beginDispatch s))).trans
      (read_writeWord ..)
  refine ⟨_, he, ?_⟩
  generalize hc : complete (Instr.eeWrw a8 hi lo).kind _ = t at hp
  have hread : ∀ x, eeRead x t = _ := hc ▸ hread
  have hhi : eeRead a8.toNat t = hi := (hread _).trans (if_pos rfl)
  have hlo : eeRead (a8.toNat + 1) t = lo := by rw [hread, if_neg (Nat.succ_ne_self _), if_pos rfl]
  rw [← hp] at hin
  obtain ⟨r, hr, hbytes⟩ := eeRdw_responseBytes hin
  exact ⟨⟨r, hr, by rw [hbytes, hhi, hlo]⟩, writeWord_of_read hin hhi hlo⟩

end Sys2Proof.Machine

/-! ## `DEV_ID` (R166, R321) -/

namespace Sys2Proof.Machine

@[simp] theorem serialLength_beginDispatch (s : State) : serialLength (beginDispatch s) = eeRead 0 s :=
  eeRead_beginDispatch 0 s

/-- A serial length of at most 64 is known, and is not the erased value (R166). -/
theorem serialLength_small {s : State} (h : (eeRead 0 s).toNat ≤ 64) :
    serialLengthKnown s = true ∧ eeRead 0 s ≠ Config.erased := by
  refine ⟨?_, fun e => ?_⟩
  · exact Bool.or_eq_true_iff.mpr (.inr (decide_eq_true (Nat.lt_succ_of_le h)))
  · rw [e] at h
    exact absurd h (by decide)

/-- Settles O23. Such a length is neither in the region nor the erased value. -/
theorem devIdRefusesALengthBeyondTheRegion : Obligations.DevIdRefusesALengthBeyondTheRegion := by
  intro s hlong hnotErased
  have hunknown : serialLengthKnown s = false := by
    have herased : eeRead 0 s ≠ Config.erased := by
      intro e
      rw [e] at hnotErased
      exact absurd hnotErased (by decide)
    exact Bool.or_eq_false_iff.mpr ⟨beq_eq_false_iff_ne.mpr herased, decide_eq_false (Nat.not_lt.mpr hlong)⟩
  have hstop : stopOf .devId s = some (.refusal .serialTooLong) := by simp [stopOf, refuseUnless, hunknown]
  exact exec_stopped (by decide) hstop

/-- Settles O21. The handler reads the length at address 0, then the bytes at the addresses behind it. -/
theorem devIdAnswersLengthAndSerial : Obligations.DevIdAnswersLengthAndSerial := by
  intro s hlen
  obtain ⟨hknown, herased⟩ := serialLength_small hlen
  have d := reportDeviceId_serial (s := beginDispatch s) (by rwa [serialLength_beginDispatch])
  simp only [serialLength_beginDispatch, eeRead_beginDispatch] at d
  have hrange : ∀ {α : Type} (f : Nat → α) (n : Nat),
      (List.range (1 + n)).map f = f 0 :: (List.range n).map (fun k => f (k + 1)) := by
    intro α f n
    rw [Nat.add_comm, List.range_succ_eq_map, List.map_cons, List.map_map]
    rfl
  dsimp only
  rw [hrange, hrange]
  obtain ⟨u, hw, hr, hu⟩ := Does.answersOnly (h := reportDeviceId)
    (bytes := eeRead 0 s :: (List.range (eeRead 0 s).toNat).map (fun k => eeRead (k + 1) s))
    (d.cast (by simp [Nat.add_comm]) rfl)
  exact ⟨u, _, hw, exec_completes (by decide) (refuseUnless_eq_none.mpr hknown), hr, hu⟩

/-- Zero-filling distinct addresses reads each as it was before the filling (R77). -/
theorem eraseAccesses_eq {addrs : List Nat} (h : addrs.Nodup) (m : Memory) :
    m.eraseAccesses addrs = addrs.flatMap (fun a => m.writeAccesses a 0x00#8) := by
  induction addrs generalizing m with
  | nil => rfl
  | cons a rest ih =>
    obtain ⟨ha, hrest⟩ := List.nodup_cons.mp h
    rw [Memory.eraseAccesses, ih hrest, List.flatMap_cons]
    refine congrArg _ (List.flatMap_congr fun b hb => ?_)
    have hba : b ≠ a := fun e => ha (e ▸ hb)
    simp only [Memory.writeAccesses, Memory.read_writeIfChanged, if_neg hba]

/-- A handler that lays a response over the transmit buffer and writes the EEPROM, completed: nothing else changes,
interrupts apart (R134, R318). -/
theorem Does.answersAndWrites {h : State → State} {s : State} {m : Memory} {evs : List Event} {bytes : List Byte}
    (d : Does (beginDispatch s) (h (beginDispatch s))
      { foregroundPart (beginDispatch s) with
        disp := { (beginDispatch s).disp with
          tx := overlay bytes (beginDispatch s).disp.tx, txLen := bytes.length }
        ee := m } evs) :
    ∃ u, WorksBeside evs s u (complete .writeThenRead (h (beginDispatch s))) ∧
      AnswersWith bytes u (complete .writeThenRead (h (beginDispatch s))) ∧
      { complete .writeThenRead (h (beginDispatch s)) with
        disp := u.disp
        env := { (h (beginDispatch s)).env with ee := u.env.ee, trace := u.env.trace } } = u := by
  rw [beginDispatch_disp, foregroundPart_beginDispatch] at d
  have hc : foregroundPart (complete .writeThenRead (h (beginDispatch s))) = _ :=
    congrArg (fun x : ForegroundPart => { x with disp := { x.disp with session := .writeReadRequested } }) d.part
  obtain ⟨u, hw, hr, hf, hi⟩ := d.answers rfl
  rw [← hf] at hc
  refine ⟨u, hw, hr, state_ext ?_ ?_ rfl⟩
  · exact congrArg (fun x : ForegroundPart => { x with disp := u.disp, ee := u.env.ee }) hc
  · exact congrArg (fun x : InterruptPart => { x with events := interrupt u.env.trace }) hi.symm

/-- Settles O22. The handler zero-fills the region and reports length 0; the addresses of the region are distinct, so
each is read as it was. -/
theorem devIdErasesAVirginDevice : Obligations.DevIdErasesAVirginDevice := by
  intro s herased
  have hknown : serialLengthKnown s = true := by simp [serialLengthKnown, serialLength, herased]
  have d := reportDeviceId_erased (s := beginDispatch s) (by rw [serialLength_beginDispatch, herased])
  have he := exec_completes (i := .devId) (by decide) (refuseUnless_eq_none.mpr hknown)
  have hmem : ∀ a, a ∈ List.range 65 ↔ a < 65 := fun a => List.mem_range
  have hnodup : (List.range 65).Nodup := List.nodup_range
  rw [eeRead_beginDispatch, beginDispatch_ee, herased, ← List.range_eq_range'] at d
  generalize List.range 65 = region at d hmem hnodup ⊢
  have hcount := programCount_eraseAccesses _ hnodup s.env.ee
  have haccesses := eraseAccesses_eq hnodup s.env.ee
  have hread := Memory.read_erase region s.env.ee
  obtain ⟨u, hw, hr, hu⟩ := Does.answersAndWrites (h := reportDeviceId) (bytes := [0x00#8]) d
  have hee : (reportDeviceId (beginDispatch s)).env.ee = _ := congrArg ForegroundPart.ee d.part
  refine ⟨u, _, _, hw, he, hr, hu, fun a => ?_, ?_, ?_⟩
  · refine (congrArg (fun m => Memory.read m a) hee).trans ((hread a).trans ?_)
    simp only [hmem]
    rfl
  · rw [haccesses]
    rfl
  · rw [← programCount_foreground, hw.2.1, programCount_cons, hcount]
    exact Nat.zero_add _

end Sys2Proof.Machine

/-! ## The preconditions of the MUSIC commands (R103, R213, R233, R234) -/

namespace Sys2Proof.Machine

theorem chipOr_of_chipOf {f : BitVec 2} {c : Chip} (h : chipOf f = some c) : chipOr f = c := by
  simp [chipOr, h]

theorem refuseUnless_false (r : Refusal) : refuseUnless false r = some (.refusal r) := rfl

theorem refuseUnless_true (r : Refusal) : refuseUnless true r = none := rfl

section
variable {f : BitVec 2} {c : Chip} (h : chipOf f = some c) (s : State)
include h

theorem stopOf_musicLoad : stopOf (.musicLoad f) s = none := by
  simp [stopOf, h]

theorem stopOf_musicPrint : stopOf (.musicPrint f) s = mapStop c s := by
  simp [stopOf, h, chipOr_of_chipOf h, refuseUnless_true]

theorem stopOf_musicApply : stopOf (.musicApply f) s =
    (mapStop c s).or (spiStop ((mapEntries c s).map MapEntry.addr) s) := by
  simp [stopOf, h, chipOr_of_chipOf h, refuseUnless_true]

theorem stopOf_musicRd (a : Byte) : stopOf (.musicRd f a) s = spiStop [a] s := by
  simp [stopOf, h, refuseUnless_true]

theorem stopOf_musicWr (a : Byte) (d : Word16) : stopOf (.musicWr f a d) s = spiStop [a] s := by
  simp [stopOf, h, refuseUnless_true]

end

theorem mapStop_loaded {c : Chip} {s : State} (h : s.disp.mapLoaded.get c = true) : mapStop c s = none := by
  rw [mapStop, h, refuseUnless_true]

theorem mapStop_unloaded {c : Chip} {s : State} (h : s.disp.mapLoaded.get c = false) :
    mapStop c s = some (.refusal .mapNotLoaded) := by
  rw [mapStop, h, refuseUnless_false]

theorem spiStop_uninitialised {addrs : List Byte} {s : State} (h : s.spi.inited = false) :
    spiStop addrs s = some (.refusal .spiNotInitialised) := by
  rw [spiStop, h, refuseUnless_false, Option.some_or]

theorem spiStop_initialised {addrs : List Byte} {s : State} (h : s.spi.inited = true) :
    spiStop addrs s = refuseUnless (addrs.all spiAddrClear) .spiAddrBit7 := by
  rw [spiStop, h, refuseUnless_true, Option.none_or]

theorem spiStop_clear {addrs : List Byte} {s : State} (h : s.spi.inited = true) (ha : ∀ a ∈ addrs, a.msb = false) :
    spiStop addrs s = none := by
  have hall : addrs.all spiAddrClear = true := List.all_eq_true.mpr fun a hm => by simp [spiAddrClear, ha a hm]
  rw [spiStop_initialised h, hall, refuseUnless_true]

theorem spiStop_bit7 {addrs : List Byte} {s : State} (h : s.spi.inited = true) (ha : ∃ a ∈ addrs, a.msb = true) :
    spiStop addrs s = some (.refusal .spiAddrBit7) := by
  obtain ⟨a, hm, hbit⟩ := ha
  have hall : addrs.all spiAddrClear = false :=
    List.all_eq_false.mpr ⟨a, hm, by simp [spiAddrClear, hbit]⟩
  rw [spiStop_initialised h, hall, refuseUnless_false]

theorem spiStop_one {a : Byte} {s : State} (h : s.spi.inited = true) (ha : a.msb = false) : spiStop [a] s = none :=
  spiStop_clear h fun b hb => by rw [List.mem_singleton.mp hb]; exact ha

/-- Settles O38. The checks are made in the order chip code, map, SPI initialised, address bit 7. -/
theorem musicCommandsStopWithoutTheirPreconditions : Obligations.MusicCommandsStopWithoutTheirPreconditions := by
  refine ⟨rfl, rfl, fun s f a d => ⟨fun hf => ?_, fun c hc => ⟨fun hmap => ?_, fun hspi => ?_, fun hspi ha => ?_,
    fun hspi hmap ⟨e, he, hbit⟩ => ?_⟩⟩⟩
  · have hchip : (chipOf f).isSome = false := by rw [(chipOf_none_iff f).mpr hf]; rfl
    have stops : ∀ {o : Option Stop},
        (refuseUnless (chipOf f).isSome .badChipId).or o = some (.refusal .badChipId) := by
      intro o
      rw [hchip, refuseUnless_false, Option.some_or]
    have hload : stopOf (.musicLoad f) s = some (.refusal .badChipId) := by
      rw [stopOf, hchip, refuseUnless_false]
    exact ⟨exec_stopped nofun hload, exec_stopped nofun stops, exec_stopped nofun stops, exec_stopped nofun stops,
      exec_stopped nofun stops⟩
  · have hstop := mapStop_unloaded hmap
    exact ⟨exec_stopped nofun ((stopOf_musicPrint hc s).trans hstop),
      exec_stopped nofun ((stopOf_musicApply hc s).trans (by rw [hstop, Option.some_or]))⟩
  · refine ⟨exec_stopped nofun ((stopOf_musicRd hc s a).trans (spiStop_uninitialised hspi)),
      exec_stopped nofun ((stopOf_musicWr hc s a d).trans (spiStop_uninitialised hspi)), fun hmap => ?_⟩
    refine exec_stopped nofun ((stopOf_musicApply hc s).trans ?_)
    rw [mapStop_loaded hmap, Option.none_or, spiStop_uninitialised hspi]
  · have hstop := spiStop_bit7 (addrs := [a]) hspi ⟨a, List.mem_singleton_self a, ha⟩
    exact ⟨exec_stopped nofun ((stopOf_musicRd hc s a).trans hstop),
      exec_stopped nofun ((stopOf_musicWr hc s a d).trans hstop)⟩
  · refine exec_stopped nofun ((stopOf_musicApply hc s).trans ?_)
    rw [mapStop_loaded hmap, Option.none_or]
    exact spiStop_bit7 hspi ⟨e.addr, List.mem_map_of_mem he, hbit⟩

end Sys2Proof.Machine

/-! ## The MUSIC lifecycle commands (R230 to R236) -/

namespace Sys2Proof.Machine

@[simp] theorem beginDispatch_spi (s : State) : (beginDispatch s).spi = s.spi :=
  congrArg ForegroundPart.spi (foregroundPart_beginDispatch s)

@[simp] theorem beginDispatch_params (s : State) : (beginDispatch s).params = s.params :=
  congrArg ForegroundPart.params (foregroundPart_beginDispatch s)

@[simp] theorem beginDispatch_miso (s : State) : (beginDispatch s).env.miso = s.env.miso :=
  congrArg ForegroundPart.miso (foregroundPart_beginDispatch s)

@[simp] theorem beginDispatch_map (s : State) : (beginDispatch s).disp.map = s.disp.map :=
  (congrArg Dispatcher.map (beginDispatch_disp s)).trans rfl

@[simp] theorem beginDispatch_mapLoaded (s : State) : (beginDispatch s).disp.mapLoaded = s.disp.mapLoaded :=
  (congrArg Dispatcher.mapLoaded (beginDispatch_disp s)).trans rfl

@[simp] theorem mapEntries_beginDispatch (c : Chip) (s : State) :
    mapEntries c (beginDispatch s) = (s.disp.map.get c).toList := by
  rw [mapEntries, beginDispatch_map]

/-- A state that has the foreground's part and the record of `u`, and the interrupt's part of `t` but for the record, is
`u` if `t` shares the interrupt's part with `u`. -/
theorem eq_of_parts {x u : State} (t : State) (hi : interruptPart u = interruptPart t)
    (hf : foregroundPart x = foregroundPart u)
    (hx : interruptPart x = { interruptPart t with events := interrupt u.env.trace })
    (ht : x.env.trace = u.env.trace) : x = u := by
  refine state_ext hf (hx.trans ?_) ht
  rw [← hi]
  rfl

/-- A command whose handler works beside the interrupt (R133, R134, R318): `u` is what interrupts alone make of the
state, and the end `t` has the foreground's part of the handler, with the session its kind ends in. -/
theorem exec_does {i : Instr} {h : State → State} {s : State} {p : ForegroundPart} {evs : List Event}
    (hi : i ≠ .reset) (hstop : stopOf i s = none) (hh : handler i = h)
    (d : Does (beginDispatch s) (h (beginDispatch s)) p evs) :
    ∃ u t, exec i s = .next t ∧ WorksBeside evs s u t ∧
      foregroundPart u = foregroundPart (beginDispatch s) ∧
      foregroundPart t = { p with disp := { p.disp with session := sessionAfter i.kind } } ∧
      interruptPart u = interruptPart t := by
  subst hh
  obtain ⟨u, hw, hf, hirq⟩ := d.worksBeside (k := i.kind)
  exact ⟨u, _, exec_completes hi hstop, hw, hf.trans (foregroundPart_beginDispatch s).symm,
    congrArg (fun x : ForegroundPart => { x with disp := { x.disp with session := sessionAfter i.kind } }) d.part, hirq⟩

/-- Settles O32. The handler idles the lines and the mode by five writes, then allows transactions. -/
theorem spiInitIdlesThePins : Obligations.SpiInitIdlesThePins := by
  intro s
  have d := spiInit_does (beginDispatch s)
  rw [beginDispatch_spi, beginDispatch_params] at d
  obtain ⟨u, t, he, hw, hf, hp, hi⟩ := exec_does (i := .musicSpiInit) (by decide) rfl rfl d
  rw [← hf] at hp
  refine ⟨u, t, hw, he, congrArg ForegroundPart.spi hp, eq_of_parts t hi ?_ rfl rfl⟩
  exact congrArg (fun x : ForegroundPart => { x with spi := u.spi }) hp

/-- Settles O34. The handler is the one log; interrupts leave the map it logs. -/
theorem musicPrintOnlyLogs : Obligations.MusicPrintOnlyLogs := by
  intro s f c hc hmap
  refine ⟨printMap c (beginDispatch s), ?_, ?_⟩
  · rw [printMap, mapEntries_beginDispatch]
    exact (prim_interleaved _ (beginDispatch s)).before (beginDispatch_interrupts s)
  · have he := exec_completes (i := .musicPrint f) nofun ((stopOf_musicPrint hc s).trans (mapStop_loaded hmap))
    rw [show handler (.musicPrint f) = printMap c from congrArg printMap (chipOr_of_chipOf hc)] at he
    exact he

/-- Settles O33. The 69 bytes lie from `start` on, three to an entry, in the order they are read. -/
theorem musicLoadFillsTheMapFromEeprom : Obligations.MusicLoadFillsTheMapFromEeprom := by
  intro s f c hc start
  have haddress : ∀ i k, mapEntryAddress c i k = start + 3 * i + k := by
    cases c <;> exact fun _ _ => rfl
  clear_value start
  obtain ⟨m, d, hm⟩ := loadMap_does c (beginDispatch s)
  simp only [eeRead_beginDispatch, haddress, Nat.mul_zero, Nat.add_zero] at d
  obtain ⟨u, t, he, hw, hf, hp, hi⟩ := exec_does (i := .musicLoad f) nofun (stopOf_musicLoad hc s)
    (congrArg loadMap (chipOr_of_chipOf hc)) d
  have hu : u.disp = (beginDispatch s).disp := congrArg ForegroundPart.disp hf
  rw [← hf, ← hu] at hp
  have hd : t.disp = _ := congrArg ForegroundPart.disp hp
  have hmap : u.disp.map = s.disp.map := by rw [hu, beginDispatch_map]
  have hloaded : u.disp.mapLoaded = s.disp.mapLoaded := by rw [hu, beginDispatch_mapLoaded]
  refine ⟨u, t, hw, he, eq_of_parts t hi ?_ rfl rfl, ?_, fun other hother => ?_, fun i hlt => ?_⟩
  · exact congrArg (fun x : ForegroundPart => { x with
      disp := { x.disp with map := u.disp.map, mapLoaded := u.disp.mapLoaded } }) hp
  · rw [hd]
    exact PerChip.get_put_same ..
  · rw [hd, ← hmap, ← hloaded]
    exact ⟨PerChip.get_put_other _ _ hother, PerChip.get_put_other _ _ hother⟩
  · have hentry := hm ⟨i, hlt⟩
    simp only [storedEntry, eeRead_beginDispatch, haddress, Nat.add_zero] at hentry
    rw [hd]
    simp only [PerChip.get_put_same]
    exact hentry

/-- Settles O35. The handler is one verified write after the other; what they leave and take is said of the list of
entries. -/
theorem musicApplySendsEveryEntryVerified : Obligations.MusicApplySendsEveryEntryVerified := by
  intro s f c hc hmap hspi hclear
  obtain ⟨answers, evs, hlen, hrun⟩ := verifiedWrites_spec c (mapEntries c (beginDispatch s)) (beginDispatch s)
  rw [← applyMap_eq] at hrun
  obtain ⟨d, hevs, hinited, hidle, hmismatch, htaken⟩ := hrun
  have haddrs : ∀ a ∈ (mapEntries c s).map MapEntry.addr, a.msb = false := by
    intro a ha
    obtain ⟨e, he, rfl⟩ := List.mem_map.mp ha
    exact hclear e he
  have hstop : stopOf (.musicApply f) s = none := by
    rw [stopOf_musicApply hc, mapStop_loaded hmap, Option.none_or, spiStop_clear hspi haddrs]
  obtain ⟨u, t, he, hw, hf, hp, hi⟩ := exec_does (i := .musicApply f) nofun hstop
    (congrArg applyMap (chipOr_of_chipOf hc)) d
  have hts : t.spi = (applyMap c (beginDispatch s)).spi := congrArg ForegroundPart.spi hp
  have htm : t.env.miso = (applyMap c (beginDispatch s)).env.miso := congrArg ForegroundPart.miso hp
  have htp : t.params = (applyMap c (beginDispatch s)).params :=
    (congrArg ForegroundPart.params hp).trans (congrArg ForegroundPart.params d.part).symm
  rw [← hf] at hp
  rw [beginDispatch_miso, ← htm] at htaken
  rw [mapEntries_beginDispatch] at hlen hevs
  rw [mapEntries_beginDispatch, beginDispatch_spi, ← hts] at hmismatch
  rw [beginDispatch_spi, ← hts] at hinited
  have hsame : SpiIdle s → SpiIdle t := fun h => by
    have h' : SpiIdle (beginDispatch s) := by simpa only [SpiIdle, beginDispatch_spi, beginDispatch_params] using h
    simpa only [SpiIdle, hts, htp] using hidle h'
  refine ⟨u, t, evs, answers, he, hw, eq_of_parts t hi ?_ rfl rfl, hlen.trans Vector.length_toList, htaken, hevs,
    hinited.trans hspi, hsame, hmismatch⟩
  exact congrArg (fun x : ForegroundPart => { x with spi := u.spi, miso := u.env.miso }) hp

/-- The response waiting to be read after an answer (R134, R135). -/
theorem AnswersWith.responseBytes {bytes : List Byte} {u t : State} (h : AnswersWith bytes u t)
    (hfits : bytes.length ≤ Config.txBufSize) : responseBytes t = bytes := by
  obtain ⟨hdisp, hbytes⟩ := h
  have htx : t.disp.tx = overlay bytes u.disp.tx := by
    ext1 i hi
    rw [hbytes i hi, overlay_getElem]
  exact responseBytes_of_tx htx (congrArg Dispatcher.txLen hdisp) hfits

/-- Settles O36. The handler is one read transaction, its second and third bytes laid over the transmit buffer. -/
theorem musicRdAnswersTheRegisterHighByteFirst : Obligations.MusicRdAnswersTheRegisterHighByteFirst := by
  intro s f c a hc hspi ha
  obtain ⟨x, hi, lo, evs, d, hevs, htaken⟩ := reportRegister_does c a (beginDispatch s)
  rw [beginDispatch_spi, beginDispatch_params] at d
  obtain ⟨u, t, he, hw, hf, hp, hirq⟩ := exec_does (i := .musicRd f a) nofun
    ((stopOf_musicRd hc s a).trans (spiStop_one hspi ha))
    (congrArg (fun c => reportRegister c a) (chipOr_of_chipOf hc)) d
  have htm : t.env.miso = (reportRegister c a (beginDispatch s)).env.miso := congrArg ForegroundPart.miso hp
  rw [beginDispatch_miso, ← htm] at htaken
  have hu : u.disp = (beginDispatch s).disp := congrArg ForegroundPart.disp hf
  rw [← hf, ← hu] at hp
  have hanswer : AnswersWith [hi, lo] u t := answersWith_of_overlay (congrArg ForegroundPart.disp hp)
  refine ⟨u, t, evs, x, hi, lo, he, hw, hanswer, eq_of_parts t hirq ?_ rfl rfl, hevs, htaken,
    fun x' hi' lo' rest hq => ?_, congrArg ForegroundPart.spi hp⟩
  · exact congrArg (fun p : ForegroundPart => { p with disp := u.disp, spi := u.spi, miso := u.env.miso }) hp
  · obtain ⟨hgot, hleft⟩ := htaken.queued (b := [x', hi', lo']) hq rfl
    obtain ⟨-, rfl, rfl⟩ : x = x' ∧ hi = hi' ∧ lo = lo' := by simpa using hgot
    exact ⟨hanswer.responseBytes (show 2 ≤ 65 by decide), hleft⟩

/-- Settles O37. The handler is one verified write, and its answers are the six bytes taken. -/
theorem musicWrWritesAndVerifies : Obligations.MusicWrWritesAndVerifies := by
  intro s f c a w hc hspi ha
  obtain ⟨⟨x, y, z, x', hi, lo⟩, evs, d, hevs, htaken⟩ := spiWriteVerified_spec c a w (beginDispatch s)
  rw [beginDispatch_spi, beginDispatch_params] at d
  obtain ⟨u, t, he, hw, hf, hp, hirq⟩ := exec_does (i := .musicWr f a w) nofun
    ((stopOf_musicWr hc s a w).trans (spiStop_one hspi ha))
    (congrArg (fun c => spiWriteVerified c a w) (chipOr_of_chipOf hc)) d
  have htm : t.env.miso = (spiWriteVerified c a w (beginDispatch s)).env.miso := congrArg ForegroundPart.miso hp
  rw [beginDispatch_miso, ← htm] at htaken
  rw [← hf] at hp
  refine ⟨u, t, evs, x, y, z, x', hi, lo, he, hw, eq_of_parts t hirq ?_ rfl rfl, hevs, htaken,
    congrArg ForegroundPart.spi hp⟩
  exact congrArg (fun p : ForegroundPart => { p with spi := u.spi, miso := u.env.miso }) hp

end Sys2Proof.Machine

/-! ## One byte on the pins (R202 to R204) -/

namespace Sys2Proof.Machine

/-- The clock phase of a mode (R30, R202). -/
theorem clockPhase_eq (p : Params) (m : SpiMode) : clockPhase p m = ((m == .data) != p.spiAddrCpha) := by
  cases m with
  | addr => exact (Bool.false_xor _).symm
  | data => exact (Bool.true_xor _).symm

/-- The `ISR` does not drive the clock. -/
theorem clockWrites_foreground (level : Bool) (evs : List Event) :
    clockWrites level (foreground evs) = clockWrites level evs :=
  List.count_filter rfl

/-- Eight edges to either level in one byte (R203). -/
theorem clockWrites_byteActivity (level cpol cpha : Bool) (m : SpiMode) (out answer got : Byte) :
    clockWrites level (byteActivity cpol cpha out answer ++ [.xfer m out got]) = 8 := by
  cases level <;> cases cpol <;> cases cpha <;> rfl

/-- Settles O39. The pin events are those of the byte's activity, and the `ISR` drives none of the lines. -/
theorem byteTransferClocksEightBitsMostSignificantFirst :
    Obligations.ByteTransferClocksEightBitsMostSignificantFirst := by
  intro s c m out
  obtain ⟨hgot, d⟩ := spiXfer_does c m out s
  obtain ⟨u, hu, hf, hi, hforeground, hinterrupt⟩ := d.besides
  have hclock : ∀ level, clockWrites level (newEvents s (spiXfer c m out s).2) = 8 := fun level => by
    rw [← clockWrites_foreground, hforeground, clockWrites_byteActivity]
  refine ⟨hgot, congrArg ForegroundPart.miso d.part, ?_, hclock _, hclock _, congrArg ForegroundPart.spi d.part,
    u, hu, eq_of_parts (spiXfer c m out s).2 hi ?_ rfl rfl, hinterrupt⟩
  · rw [hforeground, clockPhase_eq]
    rfl
  · rw [← hf] at d
    exact congrArg (fun p : ForegroundPart => { p with spi := u.spi, miso := u.env.miso }) d.part

end Sys2Proof.Machine

/-! ## The mock ASIC of 95_test_vectors.md section 3 (R215) -/

namespace Sys2Proof.Machine

/-- The mock sees the byte-level accesses of the foreground alone. -/
theorem MockAsic.onEvent_unseen {junk : Word16} {c : Chip} {k : MockAsic} {e : Event}
    (h : (byteLevel e && !byInterrupt e) = false) : k.onEvent junk c e = k := by
  cases e with
  | csN | xfer | setMode | delay => cases h
  | _ => rfl

theorem filter_byteLevel_foreground (evs : List Event) :
    (foreground evs).filter byteLevel = evs.filter (fun e => byteLevel e && !byInterrupt e) := List.filter_filter

theorem MockAsic.after_byteLevel (junk : Word16) (c : Chip) (k : MockAsic) (evs : List Event) :
    k.after junk c evs = k.after junk c ((foreground evs).filter byteLevel) := by
  rw [filter_byteLevel_foreground]
  induction evs generalizing k with
  | nil => rfl
  | cons e evs ih =>
    cases h : byteLevel e && !byInterrupt e with
    | false =>
      rw [List.filter_cons_of_neg (by simp [h]), ← ih k]
      exact congrArg (fun k => MockAsic.after junk c k evs) (MockAsic.onEvent_unseen h)
    | true =>
      rw [List.filter_cons_of_pos (by simp [h])]
      exact ih _

theorem MockAsic.agrees_byteLevel (junk : Word16) (c : Chip) (k : MockAsic) (evs : List Event) :
    MockAsic.agrees junk c k evs = MockAsic.agrees junk c k ((foreground evs).filter byteLevel) := by
  rw [filter_byteLevel_foreground]
  induction evs generalizing k with
  | nil => rfl
  | cons e evs ih =>
    cases h : byteLevel e && !byInterrupt e with
    | false =>
      have hnone : MockAsic.agrees junk c k (e :: evs) = MockAsic.agrees junk c (k.onEvent junk c e) evs := by
        cases e with
        | csN | xfer | setMode | delay => cases h
        | _ => rfl
      rw [List.filter_cons_of_neg (by simp [h]), hnone, MockAsic.onEvent_unseen h, ih k]
    | true =>
      rw [List.filter_cons_of_pos (by simp [h])]
      simp only [MockAsic.agrees, ih]

theorem MockAsic.after_append (junk : Word16) (c : Chip) (k : MockAsic) (a b : List Event) :
    k.after junk c (a ++ b) = (k.after junk c a).after junk c b := List.foldl_append

theorem MockAsic.agrees_append (junk : Word16) (c : Chip) (k : MockAsic) (a b : List Event) :
    MockAsic.agrees junk c k (a ++ b) =
      (MockAsic.agrees junk c k a && MockAsic.agrees junk c (k.after junk c a) b) := by
  induction a generalizing k with
  | nil => rfl
  | cons e a ih =>
    simp only [List.cons_append, MockAsic.agrees, ih, Bool.and_assoc]
    rfl

/-- The address byte of a read carries the register address in its low bits (R110). -/
theorem addr_of_readByte (a : Byte) :
    (0x80#8 ||| a).msb = true ∧ (0x80#8 ||| a).extractLsb' 0 7 = a.extractLsb' 0 7 := by
  revert a; decide

/-- A write transaction puts its data into its register (R208, R215). -/
theorem MockAsic.reg_after_write (junk : Word16) {c : Chip} (k : MockAsic) {a : Byte} (d : Word16) (x y z : Byte)
    (ha : a.msb = false) : (k.after junk c (writeEvents c a d x y z)).reg =
      fun r => if r = a.extractLsb' 0 7 then d else k.reg r := by
  simp [MockAsic.after, writeEvents, MockAsic.onEvent, MockAsic.take, ha]

/-- A read transaction leaves the registers (R209). -/
theorem MockAsic.reg_after_read (junk : Word16) (c : Chip) (k : MockAsic) (a x hi lo : Byte) :
    (k.after junk c (readEvents c a x hi lo)).reg = k.reg := by
  simp [MockAsic.after, readEvents, MockAsic.onEvent, MockAsic.take, (addr_of_readByte a).1]

/-- What the mock answers to a read transaction (R209, R215). -/
theorem MockAsic.read_of_agrees {junk : Word16} {c : Chip} {k : MockAsic} {a x hi lo : Byte}
    (h : MockAsic.agrees junk c k (readEvents c a x hi lo) = true) :
    hi = hiByte (k.reg (a.extractLsb' 0 7)) ∧ lo = loByte (k.reg (a.extractLsb' 0 7)) := by
  simp [MockAsic.agrees, readEvents, MockAsic.onEvent, MockAsic.take, MockAsic.answer, addr_of_readByte a] at h
  exact ⟨h.2.1, h.2.2⟩

/-- The new events of two commands, one after the other. -/
theorem newEvents_trans {s t u : State} (h : s.env.trace <+: t.env.trace) (k : t.env.trace <+: u.env.trace) :
    newEvents s u = newEvents s t ++ newEvents t u := by
  obtain ⟨a, ha⟩ := h
  obtain ⟨b, hb⟩ := k
  simp only [newEvents, ← hb, ← ha, List.append_assoc, List.drop_left]
  rw [← List.append_assoc, List.drop_left]

theorem exec_record {i : Instr} {s t : State} (hi : i ≠ .reset) (e : exec i s = .next t) :
    s.env.trace <+: t.env.trace := by
  obtain ⟨u, rfl, hkeeps, -⟩ := exec_run hi e
  exact hkeeps.record

/-- A verified write leaves its data in its register and every other register alone (R208 to R210, R215). -/
theorem MockAsic.reg_after_verified (junk : Word16) {c : Chip} (k : MockAsic) {a : Byte} (d : Word16)
    (x y z x' hi lo : Byte) {report : List Event} (ha : a.msb = false)
    (hreport : report = [] ∨ ∃ r, report = [.debugMismatch c a d r]) :
    (k.after junk c (writeEvents c a d x y z ++ readEvents c a x' hi lo ++ report)).reg =
      fun r => if r = a.extractLsb' 0 7 then d else k.reg r := by
  have hquiet : ∀ k : MockAsic, k.after junk c report = k := by
    obtain rfl | ⟨r, rfl⟩ := hreport <;> exact fun _ => rfl
  rw [MockAsic.after_append, MockAsic.after_append, hquiet, MockAsic.reg_after_read,
    MockAsic.reg_after_write junk k d x y z ha]

/-- Settles O40. The mock sees the transactions of the two commands and no more: the write puts the data into the
register, and where the mock agrees with both reads they answer it. -/
theorem writeThenReadOnTheMockAsicReturnsTheData : Obligations.WriteThenReadOnTheMockAsicReturnsTheData := by
  intro s f c a d junk k hc hspi ha
  obtain ⟨_, t, _, x, y, z, x', hi, lo, ht, ⟨-, rfl, -⟩, -, hevs, -, htspi⟩ :=
    musicWrWritesAndVerifies s f c a d hc hspi ha
  obtain ⟨_, r, _, x2, hi2, lo2, hr, ⟨-, rfl, -⟩, hanswer, -, hevs', -, -, hrspi⟩ :=
    musicRdAnswersTheRegisterHighByteFirst t f c a hc (by rw [htspi]; exact hspi) ha
  have hreport : (if (hi ++ lo : Word16) = d then [] else [Event.debugMismatch c a d (hi ++ lo)]) = [] ∨
      ∃ r, (if (hi ++ lo : Word16) = d then [] else [Event.debugMismatch c a d (hi ++ lo)]) =
        [.debugMismatch c a d r] := by
    split
    · exact .inl rfl
    · exact .inr ⟨_, rfl⟩
  have hafter := MockAsic.reg_after_verified junk k d x y z x' hi lo ha hreport
  have hreg : (k.after junk c (newEvents s t)).reg = fun r => if r = a.extractLsb' 0 7 then d else k.reg r := by
    rw [MockAsic.after_byteLevel, hevs, hafter]
  refine ⟨t, r, ht, hr, by rw [hreg]; exact if_pos rfl, fun b hb => by rw [hreg]; exact if_neg hb, fun hagrees => ?_⟩
  rw [newEvents_trans (exec_record (i := .musicWr f a d) nofun ht) (exec_record (i := .musicRd f a) nofun hr),
    MockAsic.agrees_append, Bool.and_eq_true] at hagrees
  obtain ⟨hfirst, hread⟩ := hagrees
  rw [MockAsic.agrees_byteLevel, hevs, MockAsic.agrees_append, MockAsic.agrees_append] at hfirst
  simp only [Bool.and_eq_true] at hfirst
  obtain ⟨⟨-, hverify⟩, -⟩ := hfirst
  rw [MockAsic.agrees_byteLevel, hevs'] at hread
  obtain ⟨hhi, hlo⟩ := MockAsic.read_of_agrees hverify
  obtain ⟨hhi2, hlo2⟩ := MockAsic.read_of_agrees hread
  simp only [MockAsic.reg_after_write junk k d x y z ha, if_true] at hhi hlo
  simp only [hreg, if_true] at hhi2 hlo2
  have hsame : (hi ++ lo : Word16) = d := by
    rw [hhi, hlo]
    exact joinBytes_hiByte_loByte d
  refine ⟨?_, ?_⟩
  · rw [hanswer.responseBytes (show 2 ≤ 65 by decide), hhi2, hlo2]
    rfl
  · rw [hrspi, htspi]
    simp [hsame]

end Sys2Proof.Machine

/-! ## The ADC commands without a response (R270 to R273, R275) -/

namespace Sys2Proof.Machine

theorem rateCodeKnown_iff (code : Byte) : rateCodeKnown code = true ↔ 1 ≤ code.toNat ∧ code.toNat ≤ 6 := by
  simp [rateCodeKnown, BitVec.le_def]

/-- The rate code is the low bits of its byte (R38). -/
theorem setRateCode_eq (code : Byte) :
    setRateCode code = fun u => { u with adc := { u.adc with rateCode := BitVec.ofNat 3 code.toNat } } := rfl

/-- Settles O41. The handler's check is the claim's range, and its steps are the claim's two. -/
theorem adcRateStoresCodesOneToSix : Obligations.AdcRateStoresCodesOneToSix := by
  intro s code
  have h := (setRate_interleaved code (beginDispatch s)).before (beginDispatch_interrupts s)
  simp only [rateCodeKnown_iff, setRateCode_eq] at h
  exact ⟨_, h, exec_completes (i := .adcRate code) nofun rfl⟩

/-- Settles O42. Each handler is its flag's step, or nothing. -/
theorem adcInitStartAndReadAllTouchOnlyTheirFlag : Obligations.AdcInitStartAndReadAllTouchOnlyTheirFlag := by
  intro s
  have hbegin := beginDispatch_interrupts s
  exact ⟨⟨_, (initAdc_interleaved _).before hbegin, exec_completes (i := .adcInit) (by decide) rfl⟩,
    ⟨_, (prim_interleaved setLoopEn _).before hbegin, exec_completes (i := .adcStart) (by decide) rfl,
      window_loopEn (setLoopEn (beginDispatch s))⟩,
    ⟨_, hbegin, exec_completes (i := .adcRdall) (by decide) rfl⟩⟩

/-- Settles O43. The critical section is one step, behind which no window has an effect. -/
theorem adcStopClearsEnableAndPending : Obligations.AdcStopClearsEnableAndPending := by
  intro s
  have he := exec_completes (i := .adcStop) (s := s) (by decide) rfl
  rw [show handler .adcStop (beginDispatch s) = clearLoop (arrivals (beginDispatch s)) from stopLoop_eq _] at he
  exact ⟨_, _, (beginDispatch_interrupts s).trans (arrivals_interrupts _), he, rfl, rfl, rfl⟩

end Sys2Proof.Machine

/-! ## The commands that answer a value of the interrupt's part (R274, R278, R293) -/

namespace Sys2Proof.Machine

/-- Foreground work that makes no access leaves the record that interrupts alone leave (R318). -/
theorem Does.silent {s t : State} {p : ForegroundPart} (d : Does s t p []) :
    ∃ u, Interrupts s u ∧ foregroundPart u = foregroundPart s ∧ interruptPart u = interruptPart t ∧
      u.env.trace = t.env.trace := by
  obtain ⟨u, hu, hf, hi, hforeground, hinterrupt⟩ := d.besides
  refine ⟨u, hu, hf, hi, ?_⟩
  obtain ⟨evs, hevs, -⟩ := hu.only.record
  obtain ⟨new, hnew⟩ := d.beside.1
  rw [newEvents, ← hnew, List.drop_left] at hforeground hinterrupt
  rw [newEvents, hevs, List.drop_left] at hinterrupt
  have hall : interrupt new = new := by
    rw [interrupt, List.filter_eq_self]
    intro e he
    simpa using List.filter_eq_nil_iff.mp hforeground e he
  rw [hevs, ← hnew, ← hinterrupt, hall]

/-- A response is written beside the interrupt and makes no access (R134, R318). -/
theorem respond_interrupts (bytes : List Byte) (s : State) : ∃ w, Interrupts s w ∧
    respond bytes s = { w with disp := { w.disp with tx := overlay bytes w.disp.tx, txLen := bytes.length } } := by
  have d := respond_does bytes s
  obtain ⟨w, hw, hf, hi, htrace⟩ := d.silent
  have hd : w.disp = s.disp := congrArg ForegroundPart.disp hf
  refine ⟨w, hw, state_ext ?_ hi.symm htrace.symm⟩
  rw [d.part, ← hf, ← hd]
  rfl

/-- A handler that ends in a response, completed: the command answers it, and behind `s` changes nothing else,
interrupts apart (R134). -/
theorem respond_answers (bytes : List Byte) (s : State) : ∃ w, Interrupts s w ∧
    AnswersWith bytes w (complete .writeThenRead (respond bytes s)) ∧
    { complete .writeThenRead (respond bytes s) with disp := w.disp } = w := by
  obtain ⟨w, hw, he⟩ := respond_interrupts bytes s
  rw [he]
  exact ⟨w, hw, answersWith_of_overlay rfl, rfl⟩

/-- The two bytes of a 16-bit window at bit 4, high byte first (R279). -/
theorem avg16_bytes (v : Word32) :
    [hiByte (avg16 v), loByte (avg16 v)] = [v.extractLsb' 12 8, v.extractLsb' 4 8] := by
  have hhi : hiByte (avg16 v) = v.extractLsb' 12 8 := by
    ext i hi
    simp only [hiByte, avg16, BitVec.getElem_extractLsb', BitVec.getLsbD_extractLsb', Config.avgShift]
    simp [show 8 + i < 16 by omega, show 4 + (8 + i) = 12 + i by omega]
  have hlo : loByte (avg16 v) = v.extractLsb' 4 8 := by
    ext i hi
    simp only [loByte, avg16, BitVec.getElem_extractLsb', BitVec.getLsbD_extractLsb', Config.avgShift]
    simp [show i < 16 by omega]
  rw [hhi, hlo]

@[simp] theorem beginDispatch_draws (s : State) : (beginDispatch s).env.draws = s.env.draws :=
  congrArg ForegroundPart.draws (foregroundPart_beginDispatch s)

/-- Settles O44. The channel is read in one step behind the interrupts that come first; the response follows. -/
theorem adcRdavgAnswersTheMiddleOfTheAverage : Obligations.AdcRdavgAnswersTheMiddleOfTheAverage := by
  intro s ch
  have he := exec_completes (i := .adcRdavg ch) (s := s) nofun rfl
  rw [show handler (.adcRdavg ch) (beginDispatch s) = _ from reportAverage_eq ch _, respondBig, avg16_bytes,
    beginDispatch_params] at he
  have hu := (beginDispatch_interrupts s).trans (arrivals_interrupts _)
  have hdraws : (arrivals (beginDispatch s)).env.draws = s.env.draws := by rw [draws_arrivals, beginDispatch_draws]
  generalize arrivals (beginDispatch s) = u at he hu hdraws
  obtain ⟨w, hw, hanswer, hrest⟩ := respond_answers
    [(averageOf u ch).extractLsb' 12 8, (averageOf u ch).extractLsb' 4 8]
    (window (channelRead s.params.rstOnAvgRead ch u))
  refine ⟨u, channelRead s.params.rstOnAvgRead ch u, w, _, hu, (window_interrupts _).trans hw, he, ?_, rfl, ?_,
    fun d hd => ?_, hrest⟩
  · have hv : averageOf u ch = if (accOf u ch).count = 0#16 then Config.undefinedAverage s.env.draws
        else BitVec.ofNat 32 ((accOf u ch).sum.toNat / (accOf u ch).count.toNat) := by rw [averageOf, hdraws]
    dsimp only
    rw [← hv]
    exact hanswer
  · simp [accOf_channelRead]
  · simp [accOf_channelRead, hd]

/-- Settles O45. Interrupts leave the offsets, so the offset read is the one the command found. -/
theorem adcRdoffAnswersTheMiddleOfTheOffset : Obligations.AdcRdoffAnswersTheMiddleOfTheOffset := by
  intro s ch
  have he := exec_completes (i := .adcRdoff ch) (s := s) nofun rfl
  have hoffset : (accOf (beginDispatch s) ch).offset = (accOf s ch).offset :=
    (beginDispatch_interrupts s).only.offset ch
  rw [show handler (.adcRdoff ch) (beginDispatch s) = _ from reportOffset_eq ch _, respondBig, avg16_bytes,
    hoffset] at he
  obtain ⟨w, hw, hanswer, hrest⟩ := respond_answers
    [(accOf s ch).offset.extractLsb' 12 8, (accOf s ch).offset.extractLsb' 4 8] (window (arrivals (beginDispatch s)))
  have hbefore := ((beginDispatch_interrupts s).trans (arrivals_interrupts _)).trans (window_interrupts _)
  exact ⟨w, _, hbefore.trans hw, he, hanswer, hrest⟩

/-- A latch as a byte (R293). -/
theorem latchByte_eq (b : Bool) : (BitVec.ofBool b).zeroExtend 8 = if b then 0x01#8 else 0x00#8 := by
  cases b <;> rfl

/-- Settles O49. The latch is read where the dispatch's interrupts left it. -/
theorem hvStatAnswersTheLatch : Obligations.HvStatAnswersTheLatch := by
  intro s
  have he := exec_completes (i := .hvStat) (s := s) (by decide) rfl
  rw [handler, reportHv, latchByte_eq] at he
  obtain ⟨w, hw, hanswer, hrest⟩ := respond_answers
    [if (beginDispatch s).gpio.hvEn then 0x01#8 else 0x00#8, 0x00#8] (prim id (beginDispatch s))
  exact ⟨beginDispatch s, w, _, beginDispatch_interrupts s, (window_interrupts _).trans hw, he, hanswer, hrest⟩

end Sys2Proof.Machine

/-! ## The threshold (R294, R296) -/

namespace Sys2Proof.Machine

/-- The conversion of the current does not overflow (R296). -/
theorem deltaOf_toNat (uA : Word16) : (deltaOf uA).toNat = uA.toNat * 194 / 5 ∧ uA.toNat * 194 / 5 ≤ 2542758 := by
  have hlt := uA.isLt
  have hle : uA.toNat * 194 / 5 ≤ 2542758 := by omega
  refine ⟨?_, hle⟩
  rw [deltaOf, BitVec.toNat_ofNat]
  exact Nat.mod_eq_of_lt (by simp only [Config.uaToCountsFifths]; omega)

/-- Settles O50. The two fields are written in one critical section. -/
theorem hvSetmaxStoresTheConvertedThreshold : Obligations.HvSetmaxStoresTheConvertedThreshold := by
  intro s uA
  obtain ⟨hdelta, hle⟩ := deltaOf_toNat uA
  have hbegin := beginDispatch_interrupts s
  have hhv := (setMaxCurrent_stays uA (beginDispatch s)).hv
  rw [hbegin.only.hv] at hhv
  exact ⟨deltaOf uA, _, hdelta, hdelta ▸ hle, (setMaxCurrent_interleaved uA _).before hbegin,
    exec_completes (i := .hvSetmax uA) nofun rfl, hhv⟩

end Sys2Proof.Machine

/-! ## The commands that go through all channels (R276, R290, R292) -/

namespace Sys2Proof.Machine

/-- Work without an access of the foreground, interrupts in between. -/
structure Silent (s t : State) : Prop where
  record : s.env.trace <+: t.env.trace
  silent : foreground t.env.trace = foreground s.env.trace

theorem Silent.trans {s t u : State} (h : Silent s t) (k : Silent t u) : Silent s u :=
  ⟨h.record.trans k.record, k.silent.trans h.silent⟩

theorem Interrupts.silent {s u : State} (h : Interrupts s u) : Silent s u :=
  ⟨h.beside.1, h.does.record.trans (List.append_nil _)⟩

/-- The new events of a command that ends silent work with these accesses. -/
theorem Silent.foreground_newEvents {s t u : State} {evs : List Event} (h : Silent s t)
    (hr : t.env.trace <+: u.env.trace) (he : foreground u.env.trace = foreground t.env.trace ++ evs) :
    foreground (newEvents s u) = evs :=
  newEvents_foreground (h.record.trans hr) (he.trans (by rw [h.silent]))

theorem Silent.newEvents_nil {s t : State} (h : Silent s t) : foreground (newEvents s t) = [] :=
  h.foreground_newEvents (List.prefix_refl _) (List.append_nil _).symm

theorem Interleaved.silent {steps : List (State → State)} {s t : State} (h : Interleaved steps s t)
    (hf : ∀ f ∈ steps, ∀ u, (f u).env.trace = u.env.trace) : Silent s t :=
  Interleaved.rel (R := Silent) Silent.trans Interrupts.silent
    (fun f hm u => ⟨by rw [hf f hm u], by rw [hf f hm u]⟩) h

/-- What work on the channels keeps besides: the controller, and the latches while the comparator is unarmed
(R255, R277). -/
structure ChannelWork (s t : State) : Prop extends Silent s t where
  hv : t.hv = s.hv
  gpio : ¬ Armed s → t.gpio = s.gpio

theorem ChannelWork.trans {s t u : State} (h : ChannelWork s t) (k : ChannelWork t u) : ChannelWork s u where
  toSilent := h.toSilent.trans k.toSilent
  hv := k.hv.trans h.hv
  gpio e := (k.gpio (by simpa only [Armed, h.hv] using e)).trans (h.gpio e)

theorem Interrupts.channelWork {s u : State} (h : Interrupts s u) : ChannelWork s u := by
  refine ⟨h.silent, h.only.hv, fun e => ?_⟩
  have hp := h.only.part
  have hled : u.gpio.led = s.gpio.led := congrArg ForegroundPart.led hp
  have h3 : u.gpio.en3v3 = s.gpio.en3v3 := congrArg ForegroundPart.en3v3 hp
  have h5 : u.gpio.en5v = s.gpio.en5v := congrArg ForegroundPart.en5v hp
  have hhv := h.only.hvEnUnarmed e
  generalize u.gpio = g at hled h3 h5 hhv
  obtain ⟨_, _, _, _⟩ := g
  simp only at hled h3 h5 hhv
  rw [hled, h3, h5, hhv]

theorem beginDispatch_channelWork (s : State) : ChannelWork s (beginDispatch s) :=
  ChannelWork.trans (t := clearResponse s) ⟨⟨List.prefix_refl _, rfl⟩, rfl, fun _ => rfl⟩
    (beginDispatch_interrupts s).channelWork

theorem Interleaved.channelWork {steps : List (State → State)} {s t : State} (h : Interleaved steps s t)
    (hf : ∀ f ∈ steps, ∀ u, ChannelWork u (f u)) : ChannelWork s t :=
  Interleaved.rel (R := ChannelWork) ChannelWork.trans Interrupts.channelWork hf h

theorem channelRead_channelWork (rst : Bool) (ch : BitVec 4) (u : State) : ChannelWork u (channelRead rst ch u) :=
  ⟨⟨List.prefix_refl _, rfl⟩, rfl, fun _ => rfl⟩

/-- The steps that zero all channels (R290, R292). -/
def zeroingSteps (rst : Bool) : List (State → State) :=
  if rst then (List.range 16).map (fun n => channelRead true (BitVec.ofNat 4 n)) else []

theorem mem_zeroingSteps {rst : Bool} {f : State → State} (h : f ∈ zeroingSteps rst) :
    ∃ ch, f = channelRead true ch := by
  cases rst with
  | false => cases h
  | true =>
    obtain ⟨n, -, rfl⟩ := List.mem_map.mp h
    exact ⟨_, rfl⟩

theorem zeroAllIf_channelWork (rst : Bool) (s : State) : ChannelWork s (zeroAllIf rst s) := by
  refine (zeroAllIf_interleaved rst s).channelWork fun f hf u => ?_
  obtain ⟨ch, rfl⟩ := mem_zeroingSteps hf
  exact channelRead_channelWork true ch u

/-- What zeroing the channels and the steps behind it leave of the offsets, as interrupts do (R254, R277). -/
theorem zeroing_offset {rst : Bool} {last : State → State} {s t : State}
    (h : Interleaved (zeroingSteps rst ++ [last]) s t) (hlast : ∀ u, (last u).adc.acc = u.adc.acc) (ch : BitVec 4) :
    (accOf t ch).offset = (accOf s ch).offset := by
  refine Interleaved.rel (R := fun s t => (accOf t ch).offset = (accOf s ch).offset)
    (fun h k => k.trans h) (fun h => h.only.offset ch) (fun f hf u => ?_) h
  rcases List.mem_append.mp hf with hf | hf
  · obtain ⟨d, rfl⟩ := mem_zeroingSteps hf
    rw [accOf_channelRead]
    split <;> rfl
  · rw [List.mem_singleton.mp hf, accOf, hlast, accOf]

theorem newEvents_of_trace {s t : State} {evs : List Event} (h : t.env.trace = s.env.trace ++ evs) :
    newEvents s t = evs := by
  rw [newEvents, h, List.drop_left]

/-! ### One after the other, in a quiet machine -/

/-- What steps on the channels leave of everything but accumulators and draws. -/
def OnChannels (s t : State) : Prop :=
  t = { s with adc := { s.adc with acc := t.adc.acc }, env := { s.env with draws := t.env.draws } }

theorem OnChannels.trans {s t u : State} (h : OnChannels s t) (k : OnChannels t u) : OnChannels s u := by
  unfold OnChannels at h k ⊢
  rw [h] at k
  exact k

theorem OnChannels.params {s t : State} (h : OnChannels s t) : t.params = s.params := by
  unfold OnChannels at h
  rw [h]

/-- What becomes of the accumulators when each channel of a list is worked on once: `q` relates what a channel held to
what it holds then. -/
theorem foldl_channels {step : BitVec 4 → State → State} {q : Params → Acc → Acc → Prop}
    (hon : ∀ ch u, OnChannels u (step ch u)) (hsame : ∀ ch u, q u.params (accOf u ch) (accOf (step ch u) ch))
    (hother : ∀ ch d u, d ≠ ch → accOf (step ch u) d = accOf u d) (l : List (BitVec 4)) (hl : l.Nodup) (u : State) :
    OnChannels u (l.foldl (fun u ch => step ch u) u) ∧
      ∀ d, (d ∈ l → q u.params (accOf u d) (accOf (l.foldl (fun u ch => step ch u) u) d)) ∧
        (d ∉ l → accOf (l.foldl (fun u ch => step ch u) u) d = accOf u d) := by
  induction l generalizing u with
  | nil => exact ⟨rfl, fun d => ⟨fun h => absurd h List.not_mem_nil, fun _ => rfl⟩⟩
  | cons ch l ih =>
    obtain ⟨hch, hl⟩ := List.nodup_cons.mp hl
    obtain ⟨honrest, hrest⟩ := ih hl (step ch u)
    have hparams : (step ch u).params = u.params := (hon ch u).params
    rw [List.foldl_cons]
    refine ⟨(hon ch u).trans honrest, fun d => ?_⟩
    obtain ⟨hin, hout⟩ := hrest d
    by_cases hd : d = ch
    · subst hd
      rw [hout hch]
      exact ⟨fun _ => hsame d u, fun h => absurd List.mem_cons_self h⟩
    · rw [hparams, hother ch d u hd] at hin
      rw [hother ch d u hd] at hout
      exact ⟨fun h => hin ((List.mem_cons.mp h).resolve_left hd), fun h => hout fun hm => h (List.mem_cons_of_mem _ hm)⟩

theorem allChannels_nodup : allChannels.Nodup := by decide

theorem foldl_range16 (step : BitVec 4 → State → State) (u : State) :
    ((List.range 16).map (fun n => step (BitVec.ofNat 4 n))).foldl (fun u f => f u) u =
      allChannels.foldl (fun u ch => step ch u) u := by
  rw [allChannels_eq, List.foldl_map, List.foldl_map]

/-- All sixteen channels, each worked on once (R276, R290, R292). -/
theorem foldl_allChannels {step : BitVec 4 → State → State} {q : Params → Acc → Acc → Prop}
    (hon : ∀ ch u, OnChannels u (step ch u)) (hsame : ∀ ch u, q u.params (accOf u ch) (accOf (step ch u) ch))
    (hother : ∀ ch d u, d ≠ ch → accOf (step ch u) d = accOf u d) (u : State) :
    OnChannels u (((List.range 16).map (fun n => step (BitVec.ofNat 4 n))).foldl (fun u f => f u) u) ∧
      ∀ d, q u.params (accOf u d)
        (accOf (((List.range 16).map (fun n => step (BitVec.ofNat 4 n))).foldl (fun u f => f u) u) d) := by
  rw [foldl_range16]
  obtain ⟨h1, h2⟩ := foldl_channels hon hsame hother allChannels allChannels_nodup u
  exact ⟨h1, fun d => (h2 d).1 (mem_allChannels d)⟩

/-- The channels after the zeroing, in a quiet machine (R277, R290, R292). -/
theorem foldl_zeroing (rst : Bool) (u : State) :
    OnChannels u ((zeroingSteps rst).foldl (fun u f => f u) u) ∧
      ∀ ch, accOf ((zeroingSteps rst).foldl (fun u f => f u) u) ch =
        if rst then { accOf u ch with sum := 0#32, count := 0#16 } else accOf u ch := by
  cases rst with
  | false => exact ⟨rfl, fun _ => rfl⟩
  | true =>
    exact foldl_allChannels (step := channelRead true)
      (q := fun _ a b => b = { a with sum := 0#32, count := 0#16 }) (channelRead_eq true)
      (fun ch u => by simp [accOf_channelRead]) (fun ch d u hd => by simp [accOf_channelRead, hd]) u

/-- Zeroing and one more step, in a quiet machine. -/
theorem quiet_zeroing {rst : Bool} {last : State → State} {s t : State}
    (h : Interleaved (zeroingSteps rst ++ [last]) (clearResponse s) t) (hlast : ∀ u, Quiet u → Quiet (last u))
    (hq : Quiet s) : ∃ z, OnChannels (clearResponse s) z ∧ t = last z ∧
      ∀ ch, accOf z ch = if rst then { accOf s ch with sum := 0#32, count := 0#16 } else accOf s ch := by
  obtain ⟨hon, hacc⟩ := foldl_zeroing rst (clearResponse s)
  refine ⟨_, hon, ?_, hacc⟩
  rw [Interleaved.quiet (fun f hf u hu => ?_) (s := clearResponse s) hq h, List.foldl_append]
  · rfl
  · rcases List.mem_append.mp hf with hf | hf
    · obtain ⟨ch, rfl⟩ := mem_zeroingSteps hf
      exact hu
    · rw [List.mem_singleton.mp hf]
      exact hlast u hu

theorem OnChannels.gpio {s t : State} (h : OnChannels s t) : t.gpio = s.gpio := by
  unfold OnChannels at h
  rw [h]

theorem OnChannels.trace {s t : State} (h : OnChannels s t) : t.env.trace = s.env.trace := by
  unfold OnChannels at h
  rw [h]

theorem OnChannels.quiet {s t : State} (h : OnChannels s t) (hq : Quiet s) : Quiet t := by
  rw [h]
  exact hq

/-- Settles O47. The zeroing makes no access and touches no latch; the write of the latch is the last step. -/
theorem hvOnRaisesHvEnUnconditionally : Obligations.HvOnRaisesHvEnUnconditionally := by
  intro s
  have h := (hvOn_interleaved (beginDispatch s)).before (beginDispatch_interrupts s)
  rw [beginDispatch_params, ← zeroingSteps] at h
  have hz := (beginDispatch_channelWork s).trans (zeroAllIf_channelWork (beginDispatch s).params.rstOnHvOn _)
  have hw : hvOn (beginDispatch s) =
    window (latchWrite .hvEn true (zeroAllIf (beginDispatch s).params.rstOnHvOn (beginDispatch s))) := rfl
  have hwork := (window_interrupts
    (latchWrite .hvEn true (zeroAllIf (beginDispatch s).params.rstOnHvOn (beginDispatch s)))).channelWork
  rw [← hw] at hwork
  generalize zeroAllIf (beginDispatch s).params.rstOnHvOn (beginDispatch s) = z at hz hwork
  refine ⟨hvOn (beginDispatch s), exec_completes (i := .hvOn) (by decide) rfl, h, ?_, ?_,
    zeroing_offset (s := clearResponse s) (last := latchWrite .hvEn true) h (fun _ => rfl), fun harmed => ?_,
    fun hq => ?_⟩
  · exact hz.foreground_newEvents ((List.prefix_append _ _).trans hwork.record)
      (hwork.silent.trans (List.filter_append ..))
  · exact hwork.hv.trans hz.hv
  · have hunarmed : ¬ Armed (latchWrite .hvEn true z) := by
      rw [Armed, latchWrite_hv, hz.hv]
      exact harmed
    rw [hwork.gpio hunarmed, latchWrite_gpio, hz.gpio harmed]
    rfl
  · obtain ⟨y, hon, ht, hacc⟩ := quiet_zeroing (last := latchWrite .hvEn true) h (fun _ hu => hu) hq
    rw [ht]
    refine ⟨?_, newEvents_of_trace ?_, hacc⟩
    · rw [latchWrite_gpio, hon.gpio]
      rfl
    · exact congrArg (· ++ [Event.gpio .hvEn true]) hon.trace

/-- Settles O48. As `HV_ON`, but that the last step is the enable's. -/
theorem hvsafeEnArmsTheController : Obligations.HvsafeEnArmsTheController := by
  intro s
  have h := (enableSafety_interleaved (beginDispatch s)).before (beginDispatch_interrupts s)
  rw [beginDispatch_params, ← zeroingSteps] at h
  have hstays := enableSafety_stays (beginDispatch s)
  have hbegin := (beginDispatch_interrupts s).only
  refine ⟨enableSafety (beginDispatch s), exec_completes (i := .hvsafeEn) (by decide) rfl, h, ?_, ?_,
    fun he => hbegin.hvEnFalls (hstays.hvEn he),
    zeroing_offset (s := clearResponse s) (last := setSafetyEn) h (fun _ => rfl), fun hq => ?_⟩
  · rw [hstays.hv, hbegin.hv]
    rfl
  · refine Silent.newEvents_nil (s := clearResponse s) (Interleaved.silent h fun f hf u => ?_)
    rcases List.mem_append.mp hf with hf | hf
    · obtain ⟨ch, rfl⟩ := mem_zeroingSteps hf
      rfl
    · rw [List.mem_singleton.mp hf]
      rfl
  · obtain ⟨y, hon, ht, hacc⟩ := quiet_zeroing (last := setSafetyEn) h (fun _ hu => hu) hq
    rw [ht]
    exact ⟨hon.gpio, newEvents_of_trace (hon.trace.trans (List.append_nil _).symm), hacc⟩

/-- What recording its average leaves of a channel (R276, R277). -/
def Recorded (p : Params) (a b : Acc) : Prop :=
  (a.count ≠ 0#16 → b.offset = BitVec.ofNat 32 (a.sum.toNat / a.count.toNat)) ∧ b.last = a.last ∧
    b.sum = (if p.rstOnOffsetRecord then 0#32 else a.sum) ∧ b.count = (if p.rstOnOffsetRecord then 0#16 else a.count)

theorem recorded_channelRecorded (ch : BitVec 4) (u : State) :
    Recorded u.params (accOf u ch) (accOf (channelRecorded ch u) ch) := by
  rw [accOf_channelRecorded, if_pos rfl, accOf_channelRead]
  refine ⟨fun hcount => ?_, ?_⟩
  · simp only [averageOf, if_neg hcount]
  · cases u.params.rstOnOffsetRecord <;> simp

/-- Settles O46. In a quiet machine the sixteen steps follow each other, and each works on its own channel. -/
theorem adcRecoffRecordsEveryAverage : Obligations.AdcRecoffRecordsEveryAverage := by
  intro s
  have h := (recordOffsets_interleaved (beginDispatch s)).before (beginDispatch_interrupts s)
  have hsteps : ∀ f ∈ (List.range 16).map (fun n => channelRecorded (BitVec.ofNat 4 n)) ++ [setOffsetValid],
      ∀ u, (f u).env.trace = u.env.trace ∧ (Quiet u → Quiet (f u)) := fun f hf u => by
    rcases List.mem_append.mp hf with hf | hf
    · obtain ⟨n, -, rfl⟩ := List.mem_map.mp hf
      exact ⟨rfl, id⟩
    · rw [List.mem_singleton.mp hf]
      exact ⟨rfl, id⟩
  have he := exec_completes (i := .adcRecoff) (s := s) (by decide) rfl
  rw [show handler .adcRecoff = recordOffsets from rfl] at he
  refine ⟨recordOffsets (beginDispatch s), he, h, ?_,
    Silent.newEvents_nil (s := clearResponse s) (Interleaved.silent h fun f hf u => (hsteps f hf u).1), fun hq => ?_⟩
  · rw [(recordOffsets_stays _).hv, (beginDispatch_interrupts s).only.hv]
    rfl
  · obtain ⟨hon, hacc⟩ := foldl_allChannels (step := channelRecorded) (q := Recorded) (fun _ _ => rfl)
      recorded_channelRecorded (fun ch d u hd => by rw [accOf_channelRecorded, if_neg hd]) (clearResponse s)
    rw [Interleaved.quiet (fun f hf u => (hsteps f hf u).2) (s := clearResponse s) hq h, List.foldl_append]
    generalize List.foldl _ _ (List.map (fun n => channelRecorded (BitVec.ofNat 4 n)) (List.range 16)) = z at hon hacc ⊢
    exact ⟨hon.gpio, hon.quiet hq, newEvents_of_trace (hon.trace.trans (List.append_nil _).symm), hacc⟩

end Sys2Proof.Machine

/-! ## What the interrupt does with a word (R252 to R257) -/

namespace Sys2Proof.Machine

/-- The sample of a word is the word without its last byte (R254). -/
theorem sampleOf_eq (w : Word32) : sampleOf w = w >>> 8 := by
  ext i hi
  simp only [sampleOf, BitVec.getElem_setWidth, BitVec.getLsbD_extractLsb', BitVec.getElem_ushiftRight]
  by_cases h : i < 24
  · simp [h]
  · rw [BitVec.getLsbD_of_ge w (8 + i) (by omega)]
    simp

/-- The word the ADC device holds is accepted and above its channel's threshold, with the comparator armed (R255). -/
def Exceeds (s : State) (w : Word32) : Prop :=
  Armed s ∧ w &&& s.params.adcErrMask = 0#32 ∧ (accOf s (channelOf w)).offset + s.hv.maxDelta < w >>> 8

theorem cuts_iff (s : State) : cuts s = true ↔ Exceeds s s.env.adcWord := by
  simp only [cuts, sampleError, overcurrent, cutoffThreshold, sampleOf_eq, Exceeds, Armed, Bool.and_eq_true,
    Bool.not_eq_true', bne_eq_false_iff_eq, decide_eq_true_eq]
  tauto

/-- Interrupts leave what the comparator compares with (R318). -/
theorem InterruptsOnly.exceeds_iff {s t : State} (h : InterruptsOnly s t) (w : Word32) : Exceeds t w ↔ Exceeds s w := by
  have hparams : t.params = s.params := congrArg ForegroundPart.params h.part
  simp only [Exceeds, Armed, h.hv, hparams, h.offset]

theorem hvEn_takeInterrupt (s : State) :
    (takeInterrupt s).gpio.hvEn = true ↔ s.gpio.hvEn = true ∧ ¬ Exceeds s s.env.adcWord := by
  rw [takeInterrupt_eq, ← cuts_iff]
  simp

/-- What the `ISR` leaves of each channel (R253, R256). -/
theorem accOf_takeInterrupt (s : State) (ch : BitVec 4) :
    accOf (takeInterrupt s) ch =
      if s.env.adcWord &&& s.params.adcErrMask = 0#32 ∧ channelOf s.env.adcWord = ch
      then accumulate (accOf s ch) (s.env.adcWord >>> 8) else accOf s ch := by
  by_cases hbit : s.env.adcWord &&& s.params.adcErrMask = 0#32
  · have hgood : ¬ sampleError s.params s.env.adcWord = true := fun h => sampleError_iff.mp h hbit
    have htake : takeInterrupt s = takeSample s.env.adcWord (emit [.isrReadWord s.env.adcWord] (clearPending s)) :=
      if_neg hgood
    rw [htake, accOf_takeSample, sampleOf_eq]
    simp only [hbit, true_and, eq_comm (a := ch)]
    rfl
  · rw [takeInterrupt_of_sampleError (sampleError_iff.mpr hbit), if_neg fun h => hbit h.1]
    rfl

/-- The accesses of the `ISR` (R252, R255). -/
theorem newEvents_takeInterrupt (s : State) : newEvents s (takeInterrupt s) =
    .isrReadWord s.env.adcWord :: if cuts s then [.isrCutoff] else [] := by
  rw [takeInterrupt_eq]
  exact newEvents_of_trace (List.append_assoc _ _ _)

/-- Settles O54. The `ISR` as one update, with what it cuts on written out. -/
theorem interruptComparesThenAccumulates : Obligations.InterruptComparesThenAccumulates := by
  intro s hbit
  have hcut : Exceeds s s.env.adcWord ↔ s.hv.safetyEn = true ∧ s.hv.offsetValid = true ∧
      (accOf s (channelOf s.env.adcWord)).offset + s.hv.maxDelta < s.env.adcWord >>> 8 := by
    simp only [Exceeds, Armed, hbit, true_and, and_assoc]
  refine ⟨?_, ?_, fun d hd => ?_, ?_, fun h => ?_, fun h => ?_⟩
  · rw [takeInterrupt_eq]
  · exact (accOf_takeInterrupt s (channelOf s.env.adcWord)).trans (if_pos ⟨hbit, rfl⟩)
  · exact (accOf_takeInterrupt s d).trans (if_neg fun h => hd h.2.symm)
  · rw [hvEn_takeInterrupt, hcut]
    rfl
  · rw [newEvents_takeInterrupt, if_pos ((cuts_iff s).mpr (hcut.mpr h))]
  · rw [newEvents_takeInterrupt, if_neg fun hc => h (hcut.mp ((cuts_iff s).mp hc))]

/-! ### Conversions (R250, R315 to R317) -/

/-- A conversion behind an enabled gate, in the state it is latched in (R315). -/
def arrived (w : Word32) (s : State) : State :=
  { s with adc := { s.adc with irqPending := true }, env := { s.env with adcWord := w } }

theorem irqMove_convReady {s : State} (h : s.adc.loopEn = true) (w : Word32) :
    irqMove s (.convReady w) = arrived w s := if_pos h

theorem irqMove_serve {s : State} (hp : s.adc.irqPending = true) (hm : s.irqMasked = false) :
    irqMove s .serve = takeInterrupt s := by
  simp [irqMove, hp, hm]

/-- Settles O56. Each clause is a branch of the move. -/
theorem conversionIsGatedPendsAndWaitsForTheMask : Obligations.ConversionIsGatedPendsAndWaitsForTheMask := by
  intro s w w'
  refine ⟨fun h => ?_, fun h => ⟨irqMove_convReady h w, ?_⟩, fun h => ?_, fun hm hp => ?_,
    fun m rest hs hq => step_bus hs hq⟩
  · simp [irqMove, convReady, h]
  · rw [irqMove_convReady h, irqMove_convReady h, irqMove_convReady (s := arrived w s) h]
    rfl
  · rcases h with h | h <;> simp [irqMove, h]
  · rw [irqMove_serve hp hm, takeInterrupt_eq]
    exact ⟨rfl, rfl⟩

/-! ### A stream of served conversions -/

theorem serveWord_eq {s : State} (hl : s.adc.loopEn = true) (hm : s.irqMasked = false) (w : Word32) :
    serveWord s w = takeInterrupt (arrived w s) := by
  rw [serveWord, irqMove_convReady hl, irqMove_serve (s := arrived w s) rfl hm]

theorem serveWord_only (s : State) (w : Word32) : InterruptsOnly s (serveWord s w) :=
  (irqMove_only _ _).trans (irqMove_only _ _)

theorem serveWords_only (ws : List Word32) (s : State) : InterruptsOnly s (ws.foldl serveWord s) := by
  induction ws generalizing s with
  | nil => exact InterruptsOnly.refl s
  | cons w ws ih => exact (serveWord_only s w).trans (ih _)

/-- `HV_EN` after a stream (R257). -/
theorem hvEn_serveWords (ws : List Word32) {s : State} (hl : s.adc.loopEn = true) (hm : s.irqMasked = false) :
    (ws.foldl serveWord s).gpio.hvEn = true ↔ s.gpio.hvEn = true ∧ ∀ w ∈ ws, ¬ Exceeds s w := by
  induction ws generalizing s with
  | nil => simp
  | cons w ws ih =>
    have ho := serveWord_only s w
    have hone : (serveWord s w).gpio.hvEn = true ↔ s.gpio.hvEn = true ∧ ¬ Exceeds s w := by
      rw [serveWord_eq hl hm]
      exact hvEn_takeInterrupt (arrived w s)
    rw [List.foldl_cons, ih (ho.loopEn.trans hl) (ho.irqMasked.trans hm), hone]
    simp only [ho.exceeds_iff, List.forall_mem_cons, and_assoc]

/-- The accepted samples of a channel, in the order they are served (R253, R256). -/
def samplesOf (p : Params) (ch : BitVec 4) (ws : List Word32) : List Word32 :=
  (ws.filter (fun w => w &&& p.adcErrMask == 0#32)).filter (fun w => channelOf w == ch)

theorem samplesOf_cons (p : Params) (ch : BitVec 4) (w : Word32) (ws : List Word32) :
    samplesOf p ch (w :: ws) =
      if w &&& p.adcErrMask = 0#32 ∧ channelOf w = ch then w :: samplesOf p ch ws else samplesOf p ch ws := by
  by_cases hbit : w &&& p.adcErrMask = 0#32 <;> simp [samplesOf, List.filter_cons, hbit]

/-- A channel after a stream (R256). -/
theorem accOf_serveWords (ws : List Word32) {s : State} (hl : s.adc.loopEn = true) (hm : s.irqMasked = false)
    (ch : BitVec 4) :
    (accOf (ws.foldl serveWord s) ch).sum =
        (samplesOf s.params ch ws).foldl (fun (x w : Word32) => x + w >>> 8) (accOf s ch).sum ∧
      (accOf (ws.foldl serveWord s) ch).count =
        (accOf s ch).count + BitVec.ofNat 16 (samplesOf s.params ch ws).length := by
  induction ws generalizing s with
  | nil => simp [samplesOf]
  | cons w ws ih =>
    have ho := serveWord_only s w
    have hparams : (serveWord s w).params = s.params := congrArg ForegroundPart.params ho.part
    have hone : accOf (serveWord s w) ch =
        if w &&& s.params.adcErrMask = 0#32 ∧ channelOf w = ch then accumulate (accOf s ch) (w >>> 8)
        else accOf s ch := by
      rw [serveWord_eq hl hm]
      exact accOf_takeInterrupt (arrived w s) ch
    obtain ⟨hsum, hcount⟩ := ih (ho.loopEn.trans hl) (ho.irqMasked.trans hm)
    rw [List.foldl_cons, hsum, hcount, hone, hparams, samplesOf_cons]
    by_cases hmine : w &&& s.params.adcErrMask = 0#32 ∧ channelOf w = ch
    · simp only [if_pos hmine, List.foldl_cons, List.length_cons]
      refine ⟨rfl, ?_⟩
      rw [accumulate, BitVec.ofNat_add, BitVec.add_assoc, BitVec.add_comm (1#16)]
    · simp only [if_neg hmine, and_self]

/-- `s` with another line of moves between commands. -/
def withBus (line : Feed EnvEvent) (s : State) : State := { s with env := { s.env with bus := line } }

theorem irqMove_withBus (line : Feed EnvEvent) (s : State) (m : IrqMove) :
    irqMove (withBus line s) m = withBus line (irqMove s m) := irqMove_bus s m line

theorem serveWord_withBus (line : Feed EnvEvent) (s : State) (w : Word32) :
    serveWord (withBus line s) w = withBus line (serveWord s w) := by
  rw [serveWord, irqMove_withBus, irqMove_withBus, serveWord]

theorem serveWords_withBus (ws : List Word32) (line : Feed EnvEvent) (s : State) :
    ws.foldl serveWord (withBus line s) = withBus line (ws.foldl serveWord s) := by
  induction ws generalizing s with
  | nil => rfl
  | cons w ws ih => rw [List.foldl_cons, serveWord_withBus, ih, List.foldl_cons]

/-- A step that makes a move of the interrupt (R130). -/
theorem step_irq {s : State} {m : IrqMove} {rest : List EnvEvent}
    (hs : s.disp.session = .idle ∨ s.disp.session = .writeReadRequested) (hq : s.env.bus.queued = .irq m :: rest) :
    step s = .next (withBus ⟨rest, s.env.bus.taken + 1⟩ (irqMove s m)) :=
  (step_bus hs hq).trans (congrArg Host.Outcome.next (irqMove_withBus _ s m))

/-- Two steps serve a word that the environment brings between commands (R130, R138). -/
theorem steps_serveWord {s : State} {w : Word32} {rest : List EnvEvent}
    (hs : s.disp.session = .idle ∨ s.disp.session = .writeReadRequested)
    (hq : s.env.bus.queued = .irq (.convReady w) :: .irq .serve :: rest) :
    ∃ u, step s = .next u ∧ step u = .next (withBus ⟨rest, s.env.bus.taken + 2⟩ (serveWord s w)) := by
  refine ⟨_, step_irq hs hq, ?_⟩
  have hdisp : (irqMove s (.convReady w)).disp = s.disp := congrArg ForegroundPart.disp (irqMove_only s _).part
  rw [step_irq (s := withBus _ _) (by rwa [withBus, hdisp]) rfl, irqMove_withBus]
  rfl

/-- The steps of the machine serve a stream that the environment brings between commands. -/
theorem steps_serveWords (ws : List Word32) (rest : List EnvEvent) {s : State}
    (hs : s.disp.session = .idle ∨ s.disp.session = .writeReadRequested)
    (hq : s.env.bus.queued = ws.flatMap (fun w => [.irq (.convReady w), .irq .serve]) ++ rest) :
    Steps (2 * ws.length) s (withBus ⟨rest, s.env.bus.taken + 2 * ws.length⟩ (ws.foldl serveWord s)) := by
  induction ws generalizing s with
  | nil =>
    have hbus : s.env.bus = ⟨rest, s.env.bus.taken⟩ := by rw [← show s.env.bus.queued = rest from hq]
    exact congrArg (fun line => withBus line s) hbus.symm
  | cons w ws ih =>
    obtain ⟨u, hfirst, hsecond⟩ := steps_serveWord hs hq
    have hdisp : (serveWord s w).disp = s.disp := congrArg ForegroundPart.disp (serveWord_only s w).part
    have hrest := ih (s := withBus ⟨_, s.env.bus.taken + 2⟩ (serveWord s w)) (by rwa [withBus, hdisp]) rfl
    rw [serveWords_withBus] at hrest
    refine ⟨u, hfirst, _, hsecond, ?_⟩
    rw [List.length_cons, Nat.mul_add, Nat.add_comm (2 * ws.length), ← Nat.add_assoc]
    exact hrest

/-- Settles O55. By induction on the stream; what the comparator compares with stays from word to word. -/
theorem cutoffHappensAtTheFirstExceedingSample : Obligations.CutoffHappensAtTheFirstExceedingSample := by
  intro s ws hl hm
  refine ⟨⟨?_, fun ch => ?_⟩, fun rest hs hq => steps_serveWords ws rest hs hq⟩
  · rw [hvEn_serveWords ws hl hm]
    simp only [Exceeds, List.mem_filter, beq_iff_eq, not_and, not_exists, and_imp]
    exact and_congr_right fun _ => ⟨fun h ha w hw hbit => h w hw ha hbit, fun h w hw ha hbit => h ha w hw hbit⟩
  · obtain ⟨hsum, hcount⟩ := accOf_serveWords ws hl hm ch
    exact ⟨hsum, hcount, (serveWords_only ws s).offset ch⟩

end Sys2Proof.Machine

/-! ## The interrupt among the primitive steps of a command (R214, R318) -/

namespace Sys2Proof.Machine

/-- The `ISR` leaves the foreground and its record (R318). -/
theorem takeInterrupt_sameForeground (s : State) : SameForeground (takeInterrupt s) s :=
  ⟨foregroundPart_takeInterrupt s, foreground_takeInterrupt s⟩

/-- A step of the foreground that leaves the interrupt's part commutes with the `ISR`, but for the record's order. -/
theorem OfForeground.sameButOrder {f : State → State} (hf : OfForeground f)
    (hi : ∀ u, interruptPart (f u) = interruptPart u) (s : State) :
    SameButOrder (takeInterrupt (f s)) (f (takeInterrupt s)) := by
  obtain ⟨hpart, hrecord⟩ := hf _ _ (takeInterrupt_sameForeground s)
  exact ⟨(foregroundPart_takeInterrupt _).trans hpart.symm, (interruptPart_takeInterrupt (hi s)).trans (hi _).symm,
    (foreground_takeInterrupt _).trans hrecord.symm⟩

/-! What a record of accesses, and each primitive step on a device, leaves of the interrupt's part. -/

theorem interruptPart_emit {evs : List Event} (h : interrupt evs = []) (u : State) :
    interruptPart (emit evs u) = interruptPart u := by
  simp [interruptPart, h]

theorem interruptPart_latchWrite {l : Latch} (hl : l ≠ .hvEn) (b : Bool) (u : State) :
    interruptPart (latchWrite l b u) = interruptPart u := by
  have hevents : interruptPart (latchWrite l b u) =
      interruptPart { u with gpio := setLatch l b u.gpio } := interruptPart_emit rfl _
  rw [hevents]
  cases l with
  | hvEn => exact absurd rfl hl
  | led | en3v3 | en5v => rfl

theorem takeReading_ofForeground (src : AnalogSource) : OfForeground (takeReading src) := by
  intro s t h
  have k := h.fields
  unfold takeReading
  rw [k.analog]
  exact emit_ofForeground _ _ _ (SameFields.same { k with analog := rfl })

/-! Writes to a part of the state that the `ISR` neither reads nor writes commute with it. -/

theorem takeInterrupt_disp (g : Dispatcher → Dispatcher) (s : State) :
    takeInterrupt { s with disp := g s.disp } = { takeInterrupt s with disp := g (takeInterrupt s).disp } := by
  rw [takeInterrupt_eq, takeInterrupt_eq]
  rfl

theorem takeInterrupt_spi (g : Spi → Spi) (s : State) :
    takeInterrupt { s with spi := g s.spi } = { takeInterrupt s with spi := g (takeInterrupt s).spi } := by
  rw [takeInterrupt_eq, takeInterrupt_eq]
  rfl

theorem takeInterrupt_miso (line : Feed Byte) (s : State) :
    takeInterrupt { s with env := { s.env with miso := line } } =
      { takeInterrupt s with env := { (takeInterrupt s).env with miso := line } } := by
  rw [takeInterrupt_eq, takeInterrupt_eq]
  rfl

theorem takeInterrupt_setRateCode (code : Byte) (s : State) :
    takeInterrupt (setRateCode code s) = setRateCode code (takeInterrupt s) := by
  rw [takeInterrupt_eq, takeInterrupt_eq]
  rfl

theorem takeInterrupt_setAdcInited (s : State) : takeInterrupt (setAdcInited s) = setAdcInited (takeInterrupt s) := by
  rw [takeInterrupt_eq, takeInterrupt_eq]
  rfl

/-- An ASIC answers the same before and after the `ISR` (R214). -/
theorem asicAnswer_takeInterrupt (c : Chip) (m : SpiMode) (out : Byte) (s : State) :
    asicAnswer c m out (takeInterrupt s) = ((asicAnswer c m out s).1, takeInterrupt (asicAnswer c m out s).2) := by
  have hmiso : (takeInterrupt s).env.miso = s.env.miso := (takeInterrupt_sameForeground s).fields.miso
  simp only [asicAnswer, hmiso, (takeInterrupt_sameForeground s).pinHistory, takeInterrupt_miso]

/-- Settles O57. A step on a device is a function of the foreground and leaves the interrupt's part; a step without
an access writes what the `ISR` does not touch. -/
theorem interruptCommutesWithForegroundDeviceAccesses : Obligations.InterruptCommutesWithForegroundDeviceAccesses := by
  intro s c m a v e l b src i entry d ended
  have hsame := takeInterrupt_sameForeground s
  have hanswer := asicAnswer_takeInterrupt c m v s
  refine ⟨fun he => ?_, by rw [hanswer], by rw [hanswer],
    congrArg (fun ee => Memory.read ee a) hsame.fields.ee, ?_, fun hl => ?_,
    (adcSingleShot_ofForeground src _ _ hsame).1, ?_,
    takeInterrupt_disp (fun p => { p with map := p.map.put c ((p.map.get c).set i entry) }) s,
    takeInterrupt_disp (fun p => { p with
      map := p.map.put c ((p.map.get c).set i { (p.map.get c).get i with addr := v }) }) s,
    takeInterrupt_disp (fun p => { p with
      map := p.map.put c ((p.map.get c).set i { (p.map.get c).get i with data := d }) }) s,
    takeInterrupt_disp (fun p => { p with mapLoaded := p.mapLoaded.put c true }) s,
    takeInterrupt_disp (fun p => { p with tx := p.tx.setIfInBounds a v }) s,
    takeInterrupt_disp (fun p => { p with txLen := a }) s, takeInterrupt_disp (fun p => { p with txLen := 0 }) s,
    takeInterrupt_spi (fun p => { p with inited := true }) s,
    takeInterrupt_spi (fun p => { p with mismatch := true }) s,
    takeInterrupt_disp (fun p => { p with session := ended }) s, takeInterrupt_disp (fun p => { p with err := true }) s,
    takeInterrupt_setRateCode v s, takeInterrupt_setAdcInited s⟩
  · have hevents : interrupt [e] = [] := by simp [he]
    exact ⟨(pinStep_ofForeground e).sameButOrder (fun u => interruptPart_emit hevents _) s,
      (emit_ofForeground [e]).sameButOrder (interruptPart_emit hevents) s⟩
  · exact (programByte_ofForeground a v).sameButOrder (fun u => interruptPart_emit rfl _) s
  · exact (latchWrite_ofForeground l b).sameButOrder (interruptPart_latchWrite hl b) s
  · exact (takeReading_ofForeground src).sameButOrder (fun u => interruptPart_emit rfl _) s

end Sys2Proof.Machine

/-! ## The foreground of a command (R214, R318, R319) -/

namespace Sys2Proof.Machine

/-- The commands that look neither at accumulators nor at `HV_EN`. -/
def LooksAtForegroundOnly (i : Instr) : Prop :=
  match i with
  | .adcRdavg _ | .adcRdoff _ | .adcRecoff | .hvOn | .hvsafeEn | .hvStat => False
  | _ => True

theorem gpioWrite_ofForeground (l : Latch) (b : Bool) : OfForeground (gpioWrite l b) :=
  (latchWrite_ofForeground l b).prim

/-- A step that leaves the foreground and the record. -/
theorem ofForeground_of_unseen {f : State → State} (hpart : ∀ s, foregroundPart (f s) = foregroundPart s)
    (hrecord : ∀ s, (f s).env.trace = s.env.trace) : OfForeground f := fun s t h =>
  ⟨(hpart s).trans (h.1.trans (hpart t).symm), by rw [hrecord, hrecord, h.2]⟩

theorem respondBig_ofForeground (v : Word16) : OfForeground (respondBig v) := respond_ofForeground [hiByte v, loByte v]

theorem respondLittle_ofForeground (v : Word16) : OfForeground (respondLittle v) :=
  respond_ofForeground [loByte v, hiByte v]

theorem reportRegister_ofForeground (c : Chip) (addr : Byte) : OfForeground (reportRegister c addr) :=
  (spiRead_ofForeground c addr).andThen (g := respondBig) respondBig_ofForeground

theorem reportWord_ofForeground (a : Nat) : OfForeground (reportWord a) :=
  (eeReadWord_ofForeground a).andThen respondLittle_ofForeground

theorem reportAnalog_ofForeground (src : AnalogSource) : OfForeground (reportAnalog src) :=
  (adcSingleShot_ofForeground src).andThen respondLittle_ofForeground

theorem reportByte_ofForeground (a : Nat) : OfForeground (reportByte a) :=
  (eeReadStep_ofForeground a).andThen (g := fun v => respond [v, 0x00#8]) fun v => respond_ofForeground [v, 0x00#8]

/-- The operations of each handler, put together. -/
theorem handler_ofForeground {i : Instr} (hi : LooksAtForegroundOnly i) : OfForeground (handler i) := by
  cases i with
  | adcRdavg _ | adcRdoff _ | adcRecoff | hvOn | hvsafeEn | hvStat => exact hi.elim
  | reset => exact resetBlock_ofForeground
  | ledOn | ledOff | p3v3On | p3v3Off | p5vOn | p5vOff | hvOff => exact gpioWrite_ofForeground _ _
  | pallOn | pallOff => exact (gpioWrite_ofForeground _ _).comp (gpioWrite_ofForeground _ _)
  | tempSipm | tempUc => exact reportAnalog_ofForeground _
  | eeRdb _ => exact reportByte_ofForeground _
  | eeRdw _ => exact reportWord_ofForeground _
  | eeWrb _ _ => exact eeWriteIfChanged_ofForeground _ _
  | eeWrw _ _ _ => exact (eeWriteIfChanged_ofForeground _ _).comp (eeWriteIfChanged_ofForeground _ _)
  | musicSpiInit => exact spiInit_ofForeground
  | musicLoad _ => exact loadMap_ofForeground _
  | musicPrint _ => exact printMap_ofForeground _
  | musicApply _ => exact applyMap_ofForeground _
  | musicRd _ _ => exact reportRegister_ofForeground _ _
  | musicWr _ _ _ => exact spiWriteVerified_ofForeground _ _ _
  | adcRate _ => exact setRate_ofForeground _
  | adcInit => exact initAdc_ofForeground
  | adcStart => exact (ofForeground_of_unseen (f := setLoopEn) (fun _ => rfl) fun _ => rfl).prim
  | adcStop => exact (ofForeground_of_unseen (f := clearLoop) (fun _ => rfl) fun _ => rfl).critical
  | adcRdall => exact OfForeground.id
  | hvSetmax uA => exact (ofForeground_of_unseen (f := putMaxCurrent uA) (fun _ => rfl) fun _ => rfl).critical
  | devId => exact reportDeviceId_ofForeground

theorem complete_ofForeground (k : Kind) : OfForeground (complete k) :=
  disp_ofForeground fun d => { d with session := sessionAfter k }

/-- A command the spec refuses completes, where the parameters give it no effect (93_implementation_defined.md
section 1). -/
theorem exec_noEffect {i : Instr} {s : State} (hi : i ≠ .reset) (hstop : stopOf i s ≠ none)
    (hp : s.params.unsourced = .noEffect) : exec i s = .next (complete i.kind (clearResponse s)) := by
  obtain ⟨r, hr⟩ := Option.ne_none_iff_exists'.mp hstop
  have hnot : ¬ s.params.unsourced = .refuse := by
    rw [hp]
    nofun
  exact (exec_stopped hi hr).trans (if_neg hnot)

/-- What a command does in the foreground, from states with the same foreground. -/
theorem exec_sameForeground {i : Instr} {s s' t : State} (hlooks : LooksAtForegroundOnly i) (h : SameForeground s s')
    (e : exec i s = .next t) : ∃ t', exec i s' = .next t' ∧ SameForeground t t' := by
  have hhandled := handler_ofForeground hlooks _ _ (beginDispatch_ofForeground _ _ h)
  by_cases hi : i = .reset
  · subst hi
    rw [exec_reset] at e
    obtain rfl := Host.Outcome.next.inj e
    exact ⟨_, exec_reset s', hhandled⟩
  obtain ⟨hstop, rfl⟩ | ⟨hstop, hp, rfl⟩ := exec_next hi e
  · exact ⟨_, exec_completes hi ((stopOf_sameForeground i h).symm.trans hstop), complete_ofForeground _ _ _ hhandled⟩
  · rw [stopOf_sameForeground i h] at hstop
    rw [h.fields.params] at hp
    exact ⟨_, exec_noEffect hi hstop hp,
      complete_ofForeground _ _ _ (disp_ofForeground (fun d => { d with txLen := 0 }) _ _ h)⟩

/-- Every command adds to the record. -/
theorem exec_trace {i : Instr} {s t : State} (e : exec i s = .next t) : s.env.trace <+: t.env.trace := by
  by_cases hi : i = .reset
  · subst hi
    rw [exec_reset] at e
    obtain rfl := Host.Outcome.next.inj e
    exact (beginDispatch_channelWork s).record
  · exact exec_record hi e

/-- The foreground's record after a command. -/
theorem foreground_trace_append {s t : State} (h : s.env.trace <+: t.env.trace) :
    foreground t.env.trace = foreground s.env.trace ++ foreground (newEvents s t) := by
  rw [← foreground_append, newEvents, List.prefix_iff_eq_append.mp h]

/-- Settles O58. Every operation of these commands is a function of the foreground, interrupts included. -/
theorem interruptsDoNotReachTheForegroundOfACommand : Obligations.InterruptsDoNotReachTheForegroundOfACommand := by
  intro i s s' t hlooks hpart hrecord e
  obtain ⟨t', e', hpart', hrecord'⟩ := exec_sameForeground (i := i) hlooks ⟨hpart, hrecord⟩ e
  refine ⟨t', e', hpart', ?_⟩
  rw [foreground_trace_append (exec_trace e), foreground_trace_append (exec_trace e'), hrecord] at hrecord'
  exact List.append_cancel_left hrecord'

end Sys2Proof.Machine

/-! ## The windows of a command (R9, R86, R316, R317) -/

namespace Sys2Proof.Machine

/-- `s` with another line of interrupt moves. -/
def withIrq (line : Feed (List IrqMove)) (s : State) : State := { s with env := { s.env with irq := line } }

theorem moves_withIrq (ms : List IrqMove) (line : Feed (List IrqMove)) (s : State) :
    ms.foldl irqMove (withIrq line s) = withIrq line (ms.foldl irqMove s) := irqMoves_irq ms s line

/-- A window takes the next moves of the line and makes them. -/
theorem window_withIrq {s : State} (h : s.adc.loopEn = true) (ms : List IrqMove) (rest : List (List IrqMove))
    (n : Nat) : window (withIrq ⟨ms :: rest, n⟩ s) = withIrq ⟨rest, n + 1⟩ (ms.foldl irqMove s) := by
  rw [window_enabled (s := withIrq ⟨ms :: rest, n⟩ s) h, afterMoves, moves_withIrq]
  rfl

/-- A primitive step that does not look at the line, and the window behind it. -/
theorem prim_withIrq {f : State → State} (hf : ∀ line u, f (withIrq line u) = withIrq line (f u)) {s : State}
    (h : (f s).adc.loopEn = true) (ms : List IrqMove) (rest : List (List IrqMove)) (n : Nat) :
    prim f (withIrq ⟨ms :: rest, n⟩ s) = withIrq ⟨rest, n + 1⟩ (ms.foldl irqMove (f s)) := by
  rw [prim_eq, hf, window_withIrq h]

/-- A window under the mask makes the conversions of its moves (R316). -/
theorem arrivals_withIrq {s : State} (h : s.adc.loopEn = true) (ms : List IrqMove) (rest : List (List IrqMove))
    (n : Nat) : arrivals (withIrq ⟨ms :: rest, n⟩ s) =
      withIrq ⟨rest, n + 1⟩ ((ms.filter (fun m => m != .serve)).foldl irqMove s) := by
  have hopen : ((withIrq ⟨ms :: rest, n⟩ s).adc.loopEn || (withIrq ⟨ms :: rest, n⟩ s).adc.irqPending) = true := by
    simp [withIrq, h]
  rw [arrivals, if_pos hopen, afterMoves, moves_withIrq]
  rfl

theorem moves_loopEn {s : State} (h : s.adc.loopEn = true) (ms : List IrqMove) :
    (ms.foldl irqMove s).adc.loopEn = true := (irqMoves_only ms s).loopEn.trans h

/-- The two windows before the handler. -/
theorem beginDispatch_windows {s : State} {w0 w1 : List IrqMove} {rest : List (List IrqMove)}
    (h : s.adc.loopEn = true) (hq : s.env.irq.queued = w0 :: w1 :: rest) :
    beginDispatch s = withIrq ⟨rest, s.env.irq.taken + 2⟩ (w1.foldl irqMove (clearResponse (w0.foldl irqMove s))) := by
  have hline : s = withIrq ⟨w0 :: w1 :: rest, s.env.irq.taken⟩ s := by rw [← hq]; rfl
  have hfirst : window s = withIrq ⟨w1 :: rest, s.env.irq.taken + 1⟩ (w0.foldl irqMove s) := by
    conv_lhs => rw [hline]
    exact window_withIrq h _ _ _
  rw [beginDispatch, hfirst]
  exact prim_withIrq (f := clearResponse) (fun _ _ => rfl) (moves_loopEn h w0) _ _ _

/-- Settles O60. Each window takes the next moves of the line, in the order of the primitive steps. -/
theorem interruptsRunBetweenTheStepsOfACommand : Obligations.InterruptsRunBetweenTheStepsOfACommand := by
  intro s w0 w1 w2 w3 rest hl hq
  have hbegin := beginDispatch_windows hl hq
  have hbegun : (w1.foldl irqMove (clearResponse (w0.foldl irqMove s))).adc.loopEn = true :=
    moves_loopEn (s := clearResponse (w0.foldl irqMove s)) (moves_loopEn hl w0) w1
  refine ⟨?_, fun uA _ => ?_, fun f hf => window_enabled hf⟩
  · have he := exec_completes (i := .pallOn) (s := s) (by decide) rfl
    rw [show handler .pallOn (beginDispatch s) =
      prim (latchWrite .en5v true) (prim (latchWrite .en3v3 true) (beginDispatch s)) from rfl, hbegin,
      prim_withIrq (f := latchWrite .en3v3 true) (fun _ _ => rfl) hbegun,
      prim_withIrq (f := latchWrite .en5v true) (fun _ _ => rfl)
        (moves_loopEn (s := latchWrite .en3v3 true _) hbegun w2)] at he
    exact he
  · have he := exec_completes (i := .hvSetmax uA) (s := s) nofun rfl
    rw [show handler (.hvSetmax uA) (beginDispatch s) = prim (putMaxCurrent uA) (arrivals (beginDispatch s)) from
        critical_eq (body := putMaxCurrent uA) (fun _ _ => rfl) _, hbegin, arrivals_withIrq hbegun,
      prim_withIrq (f := putMaxCurrent uA) (fun _ _ => rfl) (moves_loopEn hbegun _)] at he
    exact he

end Sys2Proof.Machine
